-- ==== Sys2Proof/Word.lean ====
section
/-!
DEFINITION. The bit-vector types of the engine (rules R6 and R10): 32-bit words, 16-bit halfwords,
8-bit bytes, 64-bit accumulator patterns and 4-bit register numbers.
-/

namespace Sys2Proof

/-- A byte of memory (rule R34). -/
abbrev Byte := BitVec 8

/-- A 16-bit halfword, the unit of instruction fetch (rule R54). -/
abbrev Half := BitVec 16

/-- A 32-bit word: registers, addresses and bus transfers (rules R5, R10). -/
abbrev Word := BitVec 32

/-- A 64-bit IEEE 754 binary64 bit pattern (rule R30). -/
abbrev DWord := BitVec 64

/-- A 4-bit register field of an instruction (rule R10): 0 to 15. -/
abbrev RegNo := BitVec 4

end Sys2Proof
end

