-- ==== Sys2Proof/Config.lean ====
section
/-!
DEFINITION. The parameters of the machine (rules R5 and R35) and its free values.

The parameters the spec gives a default for are plain data, a field of the machine's state that no step
changes, so that a statement over every state holds for every configuration. What the spec leaves to
somebody else with no value at all (the sign-seeking constant, a device's answers, the NaN a chosen
arithmetic record delivers) is an opaque function: nothing in Lean can evaluate it.
-/

namespace Sys2Proof

/-- A device's byte range `[base, base + len)` (rules R5, R52). -/
structure DeviceRange where
  base : Nat
  len : Nat
deriving DecidableEq, Repr

/-- Which NaN the arithmetic record `FP` delivers (rule R226 (b)): the spec's default, or the free choice
of another record. -/
inductive NanRule where
  /-- The canonical quiet NaN, the default of rule R226. -/
  | canonical
  /-- Some NaN whose sign and fraction the record chooses. -/
  | chosen
deriving DecidableEq, Repr

/-- The operations of the arithmetic record `FP` that can deliver a NaN (rule R226). -/
inductive FpOp where
  | add
  | sub
  | mul
  | div
  | sqrt
  | widen
  | narrow
deriving DecidableEq, Repr

/-- The parameters of rule R5, with the spec's defaults. `XLEN` and `NREG` are fixed by the source and stand in
the types. `monitor` says whether a Monitor is attached (rule R268 and the head of `60_exceptions.md` section 9). -/
structure Config where
  /-- `MEM_SIZE`: bytes of backed memory from address 0. -/
  memSize : Nat := 0x00020000
  /-- `ROM_LIMIT`: the first writable address. -/
  romLimit : Nat := 0x00010000
  /-- `IO_BASE`: the first address of the I/O region. -/
  ioBase : Nat := 0xFF000000
  /-- `OPEN_BUS_VALUE`: what every open-bus read returns. -/
  openBusValue : Word := 0xFFFFFFFF
  /-- `DEVICES`: the ranges of the devices. -/
  devices : List DeviceRange := []
  /-- `HAS_FPU`: the floating-point unit is built. -/
  hasFpu : Bool := true
  /-- The NaN choice of the record `FP`. -/
  nanRule : NanRule := .canonical
  /-- A Monitor is attached; without one no yield happens. -/
  monitor : Bool := false
deriving DecidableEq, Repr

/-- Everything that ever happened to the devices, in order: the bus transactions of the engine, each performed exactly
once (rules R52, R53), and what reaches a device from outside. A device is a state machine driven by these events. -/
inductive DevEvent where
  /-- The bus read offset `off` of device `dev`. -/
  | read (dev : Nat) (off : Word)
  /-- The bus wrote `v` at offset `off` of device `dev`. -/
  | write (dev : Nat) (off : Word) (v : Word)
  /-- Something outside the machine changed the state of device `dev` (rule R287). -/
  | stimulus (dev : Nat) (w : Word)
deriving DecidableEq, Repr

/-- FREE VALUE: `ADJ_SSQ(N, Z, V, C, CB)`, the constant of the sign-seeking ADJUST variant (rules R5, R192): some fixed total
function of the flags, no default. Assumption 1. -/
opaque Config.adjSsq (n z v c : Bool) (cb : BitVec 8) : Word

/-- FREE VALUE: the answer of device `dev` to a read of offset `off`, a function of all that happened to the
devices before (newest event first) (rule R52). Assumption 2. -/
opaque Config.deviceAnswer (history : List DevEvent) (dev : Nat) (off : Word) : Word

/-- FREE VALUE: the bits from which a chosen arithmetic record takes the sign and fraction of the NaN that operation `op`
delivers for the operand patterns `a` and `b` (rule R226 (b)). Assumption 3. -/
opaque Config.nanChoice (op : FpOp) (a b : DWord) : DWord

end Sys2Proof
end

