-- ==== Sys2Proof/Machine/Float.lean ====
section
/-!
DEFINITION. The arithmetic record `FP` (rules R216, R219 to R226, R229): IEEE 754 binary64 and binary32, round to nearest, ties to even,
gradual underflow. Every operation computes an exact integer (or an integer that rounds the same way) and narrows once at the end.
-/

namespace Sys2Proof.Machine

/-- A binary format: precision in bits (hidden bit included), the all-ones exponent field, and the exponent of the least subnormal. -/
structure FpFormat where
  prec : Nat
  expMax : Nat
  qmin : Int
deriving DecidableEq, Repr

/-- IEEE 754 binary64. -/
def binary64 : FpFormat := ⟨53, 2047, -1074⟩

/-- IEEE 754 binary32. -/
def binary32 : FpFormat := ⟨24, 255, -149⟩

/-- A floating value: a NaN, an infinity with its sign, or `(-1)^neg * m * 2^e` (`m = 0` is a signed zero). -/
inductive FpValue where
  | nan
  | inf (neg : Bool)
  | fin (neg : Bool) (m : Nat) (e : Int)
deriving DecidableEq, Repr

/-- The value of a bit pattern with sign `neg` and magnitude bits `mag`. -/
def fpUnpack (f : FpFormat) (neg : Bool) (mag : Nat) : FpValue :=
  let ef := mag / 2 ^ (f.prec - 1)
  let fr := mag % 2 ^ (f.prec - 1)
  if ef = f.expMax then (if fr = 0 then .inf neg else .nan)
  else if ef = 0 then .fin neg fr f.qmin
  else .fin neg (fr + 2 ^ (f.prec - 1)) (f.qmin + (ef - 1 : Nat))

/-- `m / 2^d` rounded to the nearest integer, ties to even. -/
def roundShift (m d : Nat) : Nat :=
  let q := m / 2 ^ d
  let r := m % 2 ^ d
  if 2 ^ d < 2 * r ∨ (2 * r = 2 ^ d ∧ q % 2 = 1) then q + 1 else q

/-- The magnitude bits of `m * 2^e` rounded to nearest even in format `f`; a magnitude too large gives the infinity. -/
def roundMag (f : FpFormat) (m : Nat) (e : Int) : Nat :=
  if m = 0 then 0 else
  let k : Nat := (e + (Nat.log2 m + 1 : Nat) - f.prec - f.qmin).toNat
  let d : Int := f.qmin + k - e
  let mant := if d ≤ 0 then m * 2 ^ (-d).toNat else roundShift m d.toNat
  min (k * 2 ^ (f.prec - 1) + mant) (f.expMax * 2 ^ (f.prec - 1))

/-- The magnitude bits of an infinity. -/
def infMag (f : FpFormat) : Nat := f.expMax * 2 ^ (f.prec - 1)

/-- The value of a binary64 pattern. -/
def unpack64 (a : DWord) : FpValue := fpUnpack binary64 (a.getLsbD 63) (a.extractLsb' 0 63).toNat

/-- The value of a binary32 pattern. -/
def unpack32 (a : Word) : FpValue := fpUnpack binary32 (a.getLsbD 31) (a.extractLsb' 0 31).toNat

/-- A binary64 pattern from its sign and magnitude bits. -/
def pack64 (neg : Bool) (mag : Nat) : DWord := BitVec.ofBool neg ++ BitVec.ofNat 63 mag

/-- A binary32 pattern from its sign and magnitude bits. -/
def pack32 (neg : Bool) (mag : Nat) : Word := BitVec.ofBool neg ++ BitVec.ofNat 31 mag

/-- A NaN pattern of binary64 with the sign and fraction of `d`; a zero fraction becomes 1, so that it is a NaN (rule R226 (b)). -/
def forceNan64 (d : DWord) : DWord :=
  let fr : BitVec 52 := d.extractLsb' 0 52
  BitVec.ofBool (d.getLsbD 63) ++ 0x7FF#11 ++ (if fr = 0 then 1 else fr)

/-- A NaN pattern of binary32 with the sign and low fraction bits of `d`; a zero fraction becomes 1 (rule R226 (b)). -/
def forceNan32 (d : DWord) : Word :=
  let fr : BitVec 23 := d.extractLsb' 0 23
  BitVec.ofBool (d.getLsbD 63) ++ 0xFF#8 ++ (if fr = 0 then 1 else fr)

/-- The NaN an operation delivers in binary64: the default record's canonical quiet NaN, or the record's own choice (rule R226 (b)). -/
def nan64 (r : NanRule) (op : FpOp) (a b : DWord) : DWord :=
  match r with
  | .canonical => 0x7FF8000000000000
  | .chosen => forceNan64 (Config.nanChoice op a b)

/-- The NaN a narrowing delivers in binary32 (rule R226 (b)). -/
def nan32 (r : NanRule) (op : FpOp) (a b : DWord) : Word :=
  match r with
  | .canonical => 0x7FC00000
  | .chosen => forceNan32 (Config.nanChoice op a b)

/-- `(-1)^neg * m` as an integer. -/
def signedInt (neg : Bool) (m : Nat) : Int := if neg then -(m : Int) else (m : Int)

/-- The exact sum of two finite values, rounded once. An exact zero sum is -0 only for two negative zeros. -/
def addFinite (n1 : Bool) (m1 : Nat) (e1 : Int) (n2 : Bool) (m2 : Nat) (e2 : Int) : DWord :=
  let e := min e1 e2
  let v := signedInt n1 (m1 * 2 ^ (e1 - e).toNat) + signedInt n2 (m2 * 2 ^ (e2 - e).toNat)
  if v = 0 then pack64 (n1 && n2) 0 else pack64 (decide (v < 0)) (roundMag binary64 v.natAbs e)

/-- The sum of two values; `nan` is what an invalid operation or a NaN operand delivers. -/
def addValues (nan : DWord) : FpValue → FpValue → DWord
  | .nan, _ => nan
  | _, .nan => nan
  | .inf n1, .inf n2 => if n1 = n2 then pack64 n1 (infMag binary64) else nan
  | .inf n1, .fin _ _ _ => pack64 n1 (infMag binary64)
  | .fin _ _ _, .inf n2 => pack64 n2 (infMag binary64)
  | .fin n1 m1 e1, .fin n2 m2 e2 => addFinite n1 m1 e1 n2 m2 e2

/-- The value with its sign turned. -/
def negValue : FpValue → FpValue
  | .nan => .nan
  | .inf n => .inf (!n)
  | .fin n m e => .fin (!n) m e

/-- `FP.add` (rules R221, R226). -/
def fpAdd (r : NanRule) (a b : DWord) : DWord := addValues (nan64 r .add a b) (unpack64 a) (unpack64 b)

/-- `FP.sub` (rules R222, R226). -/
def fpSub (r : NanRule) (a b : DWord) : DWord := addValues (nan64 r .sub a b) (unpack64 a) (negValue (unpack64 b))

/-- The product of two values; `nan` is what an invalid operation or a NaN operand delivers. -/
def mulValues (nan : DWord) : FpValue → FpValue → DWord
  | .nan, _ => nan
  | _, .nan => nan
  | .inf n1, .inf n2 => pack64 (n1 ^^ n2) (infMag binary64)
  | .inf n1, .fin n2 m2 _ => if m2 = 0 then nan else pack64 (n1 ^^ n2) (infMag binary64)
  | .fin n1 m1 _, .inf n2 => if m1 = 0 then nan else pack64 (n1 ^^ n2) (infMag binary64)
  | .fin n1 m1 e1, .fin n2 m2 e2 => pack64 (n1 ^^ n2) (roundMag binary64 (m1 * m2) (e1 + e2))

/-- `FP.mul` (rules R223, R226). -/
def fpMul (r : NanRule) (a b : DWord) : DWord := mulValues (nan64 r .mul a b) (unpack64 a) (unpack64 b)

/-- A quotient of at least 57 bits, with a last bit that is 1 exactly when the division leaves a remainder: it rounds as the exact quotient does. -/
def stickyQuotient (m1 m2 : Nat) : Nat :=
  let p := m1 * 2 ^ 110
  2 * (p / m2) + (if p % m2 = 0 then 0 else 1)

/-- The quotient of two values; `nan` is what an invalid operation or a NaN operand delivers. -/
def divValues (nan : DWord) : FpValue → FpValue → DWord
  | .nan, _ => nan
  | _, .nan => nan
  | .inf _, .inf _ => nan
  | .inf n1, .fin n2 _ _ => pack64 (n1 ^^ n2) (infMag binary64)
  | .fin n1 _ _, .inf n2 => pack64 (n1 ^^ n2) 0
  | .fin n1 m1 e1, .fin n2 m2 e2 =>
    if m2 = 0 then (if m1 = 0 then nan else pack64 (n1 ^^ n2) (infMag binary64))
    else pack64 (n1 ^^ n2) (roundMag binary64 (stickyQuotient m1 m2) (e1 - e2 - 111))

/-- `FP.div` (rules R224, R226). -/
def fpDiv (r : NanRule) (a b : DWord) : DWord := divValues (nan64 r .div a b) (unpack64 a) (unpack64 b)

/-- The integer square root of `n`, found bit by bit from bit `i - 1` down, starting from `acc`. -/
def isqrtFrom : Nat → Nat → Nat → Nat
  | 0, _, acc => acc
  | i + 1, n, acc =>
    let t := acc + 2 ^ i
    if t * t ≤ n then isqrtFrom i n t else isqrtFrom i n acc

/-- A square root of at least 57 bits, with a last bit that is 1 exactly when it is not exact (`n` below `2^168`). -/
def stickyRoot (n : Nat) : Nat :=
  let q := isqrtFrom 84 n 0
  2 * q + (if q * q = n then 0 else 1)

/-- The square root of a value; `nan` is what a negative or NaN operand delivers. -/
def sqrtValue (nan : DWord) : FpValue → DWord
  | .nan => nan
  | .inf n => if n then nan else pack64 false (infMag binary64)
  | .fin n m e =>
    if m = 0 then pack64 n 0
    else if n then nan
    else
      let odd := e % 2
      pack64 false (roundMag binary64 (stickyRoot (m * 2 ^ (112 + odd.toNat))) ((e - odd - 112) / 2 - 1))

/-- `FP.sqrt` (rules R220, R226). -/
def fpSqrt (r : NanRule) (a : DWord) : DWord := sqrtValue (nan64 r .sqrt a 0) (unpack64 a)

/-- `FP.widen`: exact (rules R216, R226). -/
def fpWiden (r : NanRule) (a : Word) : DWord :=
  match unpack32 a with
  | .nan => nan64 r .widen (a.zeroExtend 64) 0
  | .inf n => pack64 n (infMag binary64)
  | .fin n m e => pack64 n (roundMag binary64 m e)

/-- `FP.narrow` (rules R226 (c), R227). -/
def fpNarrow (r : NanRule) (a : DWord) : Word :=
  match unpack64 a with
  | .nan => nan32 r .narrow a 0
  | .inf n => pack32 n (infMag binary32)
  | .fin n m e => pack32 n (roundMag binary32 m e)

/-- The binary64 equal to a signed 32-bit integer (rule R219). -/
def fpOfInt (w : Word) : DWord := pack64 (decide (w.toInt < 0)) (roundMag binary64 w.toInt.natAbs 0)

/-- COCC: the condition result of a coprocessor read (rules R32, R206). -/
structure Cocc where
  neg : Bool
  zero : Bool
  nonfinite : Bool
deriving DecidableEq, Repr

/-- COCC of a binary64 pattern (rule R229). -/
def cocc64 (d : DWord) : Cocc :=
  ⟨d.getLsbD 63, d.extractLsb' 0 63 == 0, d.extractLsb' 52 11 == 0x7FF⟩

/-- COCC of a binary32 pattern (rule R229). -/
def cocc32 (s : Word) : Cocc :=
  ⟨s.getLsbD 31, s.extractLsb' 0 31 == 0, s.extractLsb' 23 8 == 0xFF⟩

/-- COCC of the staging word, read as an integer (rule R225). -/
def coccInt (v : Word) : Cocc := ⟨v.getLsbD 31, v == 0, false⟩

end Sys2Proof.Machine
end

