-- ==== Sys2Proof/Syntax.lean ====
section
/-!
DEFINITION. The instruction syntax: one constructor for each row of the opcode table (rules R75 to R78),
in the table's order. Register fields are the 4-bit numbers of the encoding. Counts and the ADDSI
constant stand with the value rule R74 gives them (a count in 1..16, a constant in -8..-1 or 1..8), not
as the raw field; `Instr.wf` says so. The three unassigned rows are instructions too: executing one
takes the IllegalInstruction exception.
-/

namespace Sys2Proof

/-- An instruction (rules R73, R75 to R78). -/
inductive Instr where
  /-- Branch condition 0: always (rules R145, R146, R149). -/
  | br (disp8 : BitVec 8)
  /-- Branch condition 1: N (rules R145, R146, R150). -/
  | bns (disp8 : BitVec 8)
  /-- Branch condition 2: Z (rules R145, R146, R151). -/
  | bzs (disp8 : BitVec 8)
  /-- Branch condition 3: V (rules R145, R146, R152). -/
  | bvs (disp8 : BitVec 8)
  /-- Branch condition 4: C (rules R145, R146, R153). -/
  | bcs (disp8 : BitVec 8)
  /-- Branch condition 5: N xor V (rules R145, R146, R154). -/
  | blt (disp8 : BitVec 8)
  /-- Branch condition 6: (N xor V) or Z (rules R145, R146, R155). -/
  | ble (disp8 : BitVec 8)
  /-- Branch condition 7: (not C) or Z (rules R145, R146, R156). -/
  | bleu (disp8 : BitVec 8)
  /-- Branch condition 8: never (NOP for disp8 = 0) (rules R145, R146, R157). -/
  | nop (disp8 : BitVec 8)
  /-- Branch condition 9: not N (rules R145, R146, R158). -/
  | bnr (disp8 : BitVec 8)
  /-- Branch condition 10: not Z (rules R145, R146, R159). -/
  | bzr (disp8 : BitVec 8)
  /-- Branch condition 11: not V (rules R145, R146, R160). -/
  | bvr (disp8 : BitVec 8)
  /-- Branch condition 12: not C (rules R145, R146, R161). -/
  | bcr (disp8 : BitVec 8)
  /-- Branch condition 13: not (N xor V) (rules R145, R146, R162). -/
  | bge (disp8 : BitVec 8)
  /-- Branch condition 14: not ((N xor V) or Z) (rules R145, R146, R163). -/
  | bgt (disp8 : BitVec 8)
  /-- Branch condition 15: C and not Z (rules R145, R146, R164). -/
  | bgtu (disp8 : BitVec 8)
  /-- Write general register `src` to special register `k` (rule R197). -/
  | cpuset (src : RegNo) (k : BitVec 4)
  /-- Read special register `k` into `dst`; `dst = 0` is the return from trap (rules R196, R198). -/
  | cpuget (dst : RegNo) (k : BitVec 4)
  /-- Write general register `src` to coprocessor register `k` (rule R208). -/
  | coset (src : RegNo) (k : BitVec 4)
  /-- Read coprocessor register `k` into `dst` (rule R204). -/
  | coget (dst : RegNo) (k : BitVec 4)
  /-- Add without flags (rule R188). -/
  | plus (dst src : RegNo)
  /-- The adjust family, by selector (rule R189). -/
  | adjust (dst : RegNo) (sel : BitVec 4)
  /-- Subtract with borrow (rule R187). -/
  | subb (dst src : RegNo)
  /-- Add with carry (rule R186). -/
  | addc (dst src : RegNo)
  /-- Unassigned secondary opcode 8 of primary opcode 1 (rule R78). -/
  | illegal18 (dst s2 : BitVec 4)
  /-- Bitwise equivalence (rule R195). -/
  | equ (dst src : RegNo)
  /-- Bitwise or (rule R194). -/
  | or (dst src : RegNo)
  /-- Bitwise and (rule R184). -/
  | and (dst src : RegNo)
  /-- Add the short constant `c`, in -8..-1 or 1..8 (rule R180). -/
  | addsi (dst : RegNo) (c : Int)
  /-- Branch by the low `n` bits of a register, `n` in 1..16 (rule R183). -/
  | btrunc (dst : RegNo) (n : Nat)
  /-- Sign-extend from `n` bits, `n` in 1..16 (rule R182). -/
  | sxt (dst : RegNo) (n : Nat)
  /-- Truncate to `n` bits, `n` in 1..16 (rule R181). -/
  | trunc (dst : RegNo) (n : Nat)
  /-- Subtract (rule R173). -/
  | sub (dst s1 s2 : RegNo)
  /-- Add (rule R172). -/
  | add (dst s1 s2 : RegNo)
  /-- Extract halfword (rule R175). -/
  | exth (dst s1 s2 : RegNo)
  /-- Extract byte (rule R174). -/
  | extb (dst s1 s2 : RegNo)
  /-- Stuff halfword (rule R177). -/
  | stuffh (dst s1 s2 : RegNo)
  /-- Stuff byte (rule R176). -/
  | stuffb (dst s1 s2 : RegNo)
  /-- Add, then shift right logically by `n` in 1..16 (rule R170). -/
  | addsru (dst s1 : RegNo) (n : Nat)
  /-- Add, then shift right arithmetically by `n` in 1..16 (rule R169). -/
  | addsr (dst s1 : RegNo) (n : Nat)
  /-- Move shifted left by `n` in 1..16 (rule R167). -/
  | movesl (dst s1 : RegNo) (n : Nat)
  /-- Add after shifting the destination left by `n` in 1..16 (rule R168). -/
  | addsl (dst s1 : RegNo) (n : Nat)
  /-- Or immediate short (rule R142). -/
  | oris (dst : RegNo) (const8 : BitVec 8)
  /-- Load immediate short (rule R141). -/
  | lis (dst : RegNo) (const8 : BitVec 8)
  /-- Load immediate long, 32 bits (rule R140). -/
  | lil (dst : RegNo) (const24 : BitVec 24)
  /-- Unassigned secondary opcode 0 of primary opcode 0xF, 16 bits (rules R70, R139). -/
  | illegalF0 (dst s2 : BitVec 4)
  /-- Unassigned secondary opcode 1 of primary opcode 0xF, 16 bits (rules R70, R139). -/
  | illegalF1 (dst s2 : BitVec 4)
  /-- Store register `src` at the long effective address; index `x` (0 is the pc), 32 bits (rules R120, R128). -/
  | store (src x : RegNo) (disp16 : BitVec 16)
  /-- Jump to subroutine, link in `dst`; index `x` (0 is the pc), 32 bits (rules R120, R126). -/
  | jsr (dst x : RegNo) (disp16 : BitVec 16)
  /-- Load and set flags; index `x` (0 is the pc), 32 bits (rules R120, R127). -/
  | loadcc (dst x : RegNo) (disp16 : BitVec 16)
  /-- Load; index `x` (0 is the pc), 32 bits (rules R120, R125). -/
  | load (dst x : RegNo) (disp16 : BitVec 16)
  /-- Load effective address and set flags; index `x` (0 is the pc), 32 bits (rules R120, R124). -/
  | leacc (dst x : RegNo) (disp16 : BitVec 16)
  /-- Load effective address; index `x` (0 is the pc), 32 bits (rules R120, R123). -/
  | lea (dst x : RegNo) (disp16 : BitVec 16)
  /-- Store conditional; index `x` (0 is the pc) (rules R121, R135). -/
  | storec (src x : RegNo)
  /-- Load and take the token; index `x` (0 is the pc) (rules R121, R134). -/
  | loadl (dst x : RegNo)
  /-- Store short; index `x` (0 is the pc) (rules R121, R138). -/
  | stores (src x : RegNo)
  /-- Jump to subroutine short; index `x` (0 is the pc) (rules R121, R133). -/
  | jsrs (dst x : RegNo)
  /-- Load short and set flags; index `x` (0 is the pc) (rules R121, R132). -/
  | loadscc (dst x : RegNo)
  /-- Load short; index `x` (0 is the pc) (rules R121, R131). -/
  | loads (dst x : RegNo)
  /-- Move and set flags; index `x` (0 is the pc) (rules R121, R130). -/
  | movecc (dst x : RegNo)
  /-- Move; index `x` (0 is the pc) (rules R121, R129). -/
  | move (dst x : RegNo)
deriving DecidableEq, Repr

end Sys2Proof
end

