-- ==== Sys2Proof/WellFormed.lean ====
section
/-!
DEFINITION. Which instruction terms an encoding can spell (rule R74). Register fields, selectors and
displacements have the width of their field, so every value of theirs is well formed. Counts lie in
1..16 and the ADDSI constant in -8..-1 or 1..8.
-/

namespace Sys2Proof

/-- A shift count or bit count that a 4-bit field can spell: 1 to 16 (rules R74, R166). -/
def countOk (n : Nat) : Bool := decide (1 ≤ n) && decide (n ≤ 16)

/-- A constant that ADDSI can spell: -8 to -1 or 1 to 8 (rules R74, R180). -/
def const4Ok (c : Int) : Bool := decide (-8 ≤ c) && decide (c ≤ 8) && decide (c ≠ 0)

/-- The instruction can be encoded (rules R73, R74). -/
def Instr.wf : Instr → Bool
  | .br _ | .bns _ | .bzs _ | .bvs _ | .bcs _ | .blt _ | .ble _ | .bleu _
  | .nop _ | .bnr _ | .bzr _ | .bvr _ | .bcr _ | .bge _ | .bgt _ | .bgtu _ => true
  | .cpuset _ _ | .cpuget _ _ | .coset _ _ | .coget _ _ => true
  | .plus _ _ | .adjust _ _ | .subb _ _ | .addc _ _ | .illegal18 _ _ => true
  | .equ _ _ | .or _ _ | .and _ _ => true
  | .addsi _ c => const4Ok c
  | .btrunc _ n | .sxt _ n | .trunc _ n => countOk n
  | .sub _ _ _ | .add _ _ _ | .exth _ _ _ | .extb _ _ _ | .stuffh _ _ _ | .stuffb _ _ _ => true
  | .addsru _ _ n | .addsr _ _ n | .movesl _ _ n | .addsl _ _ n => countOk n
  | .oris _ _ | .lis _ _ | .lil _ _ => true
  | .illegalF0 _ _ | .illegalF1 _ _ => true
  | .store _ _ _ | .jsr _ _ _ | .loadcc _ _ _ | .load _ _ _ | .leacc _ _ _ | .lea _ _ _ => true
  | .storec _ _ | .loadl _ _ | .stores _ _ | .jsrs _ _ => true
  | .loadscc _ _ | .loads _ _ | .movecc _ _ | .move _ _ => true

end Sys2Proof
end

