-- ==== Sys2Proof/Decode.lean ====
section
/-!
DEFINITION. The decoder and the encoder (rules R70 to R78, R80), written from the same tables of the spec.

The decoder is total: all 65536 first halfwords are instructions (the three unassigned combinations decode to the ILLEGAL
rows, which take an exception when executed), so the only thing it can refuse is a byte list that ends too early.
-/

namespace Sys2Proof

/-- Why a byte list is no instruction. -/
inductive DecodeError where
  /-- There are not two bytes for the first halfword. Safe: nothing is decoded. -/
  | firstHalfwordMissing
  /-- The first halfword starts a 32-bit instruction (rule R70) and two more bytes are not there. Safe. -/
  | secondHalfwordMissing
deriving DecidableEq, Repr

/-! ## Fields (rules R71, R74) -/

/-- `OP = h[7:4]` (rule R71). -/
def fieldOp (h : Half) : BitVec 4 := h.extractLsb' 4 4

/-- `DST = h[3:0]` (rule R71). -/
def fieldDst (h : Half) : BitVec 4 := h.extractLsb' 0 4

/-- `S1 = h[15:12]` (rule R71). -/
def fieldS1 (h : Half) : BitVec 4 := h.extractLsb' 12 4

/-- `S2 = h[11:8]` (rule R71). -/
def fieldS2 (h : Half) : BitVec 4 := h.extractLsb' 8 4

/-- `K8 = h[15:8]` (rule R71). -/
def fieldK8 (h : Half) : BitVec 8 := h.extractLsb' 8 8

/-- The count of TRUNC, SXT and BTRUNC: 0 means 16 (rule R74). -/
def decodeCount (f : BitVec 4) : Nat := if f = 0 then 16 else f.toNat

/-- The shift count `((S2 - 1) mod 16) + 1` (rules R74, R166). -/
def decodeShift (f : BitVec 4) : Nat := (f - 1).toNat + 1

/-- The constant of ADDSI: 0 means +8, else the signed field (rules R74, R180). -/
def decodeConst4 (f : BitVec 4) : Int := if f = 0 then 8 else f.toInt

/-- A first halfword from its four fields, in the order `S1`, `S2`, `OP`, `DST` from the most significant end (rule R71). -/
def packHalf (s1 s2 op dst : BitVec 4) : Half := s1 ++ s2 ++ op ++ dst

/-- A first halfword from `K8`, `OP` and `DST` (rule R71). -/
def packHalf8 (k8 : BitVec 8) (op dst : BitVec 4) : Half := k8 ++ op ++ dst

/-- The field of a bit count or shift count: 16 is spelled 0 (rule R74). -/
def encodeCount (n : Nat) : BitVec 4 := BitVec.ofNat 4 n

/-- The field of the ADDSI constant: +8 is spelled 0 (rule R74). -/
def encodeConst4 (c : Int) : BitVec 4 := if c = 8 then 0 else BitVec.ofInt 4 c

/-! ## The decoder (rule R80) -/

/-- The first halfword starts a 32-bit instruction: LIL, or a long memory reference (rule R70). -/
def needsSecondHalf (h : Half) : Bool :=
  fieldOp h == 0xE || (fieldOp h == 0xF && decide (2 ≤ (fieldS1 h).toNat) && decide ((fieldS1 h).toNat ≤ 7))

/-- The sixteen branches, by `DST` (rule R146). -/
def decodeBranch (cond : BitVec 4) (disp8 : BitVec 8) : Instr :=
  match cond with
  | 0x0#4 => .br disp8
  | 0x1#4 => .bns disp8
  | 0x2#4 => .bzs disp8
  | 0x3#4 => .bvs disp8
  | 0x4#4 => .bcs disp8
  | 0x5#4 => .blt disp8
  | 0x6#4 => .ble disp8
  | 0x7#4 => .bleu disp8
  | 0x8#4 => .nop disp8
  | 0x9#4 => .bnr disp8
  | 0xA#4 => .bzr disp8
  | 0xB#4 => .bvr disp8
  | 0xC#4 => .bcr disp8
  | 0xD#4 => .bge disp8
  | 0xE#4 => .bgt disp8
  | _ => .bgtu disp8

/-- The two-register and special family, `OP = 1`, by `S1` (rule R77). -/
def decodeSecondary1 (s1 s2 dst : BitVec 4) : Instr :=
  match s1 with
  | 0x0#4 => .cpuset dst s2
  | 0x1#4 => .cpuget dst s2
  | 0x2#4 => .coset dst s2
  | 0x3#4 => .coget dst s2
  | 0x4#4 => .plus dst s2
  | 0x5#4 => .adjust dst s2
  | 0x6#4 => .subb dst s2
  | 0x7#4 => .addc dst s2
  | 0x8#4 => .illegal18 dst s2
  | 0x9#4 => .equ dst s2
  | 0xA#4 => .or dst s2
  | 0xB#4 => .and dst s2
  | 0xC#4 => .addsi dst (decodeConst4 s2)
  | 0xD#4 => .btrunc dst (decodeCount s2)
  | 0xE#4 => .sxt dst (decodeCount s2)
  | _ => .trunc dst (decodeCount s2)

/-- The memory-reference family, `OP = 0xF`, by `S1` (rule R76); `h2` is read only by the long forms. -/
def decodeSecondaryF (s1 x dst : BitVec 4) (h2 : Half) : Instr :=
  match s1 with
  | 0x0#4 => .illegalF0 dst x
  | 0x1#4 => .illegalF1 dst x
  | 0x2#4 => .store dst x h2
  | 0x3#4 => .jsr dst x h2
  | 0x4#4 => .loadcc dst x h2
  | 0x5#4 => .load dst x h2
  | 0x6#4 => .leacc dst x h2
  | 0x7#4 => .lea dst x h2
  | 0x8#4 => .storec dst x
  | 0x9#4 => .loadl dst x
  | 0xA#4 => .stores dst x
  | 0xB#4 => .jsrs dst x
  | 0xC#4 => .loadscc dst x
  | 0xD#4 => .loads dst x
  | 0xE#4 => .movecc dst x
  | _ => .move dst x

/-- The instruction of a first halfword `h` and, for the 32-bit formats, a second halfword `h2` (rules R75, R80). For a
16-bit instruction `h2` is not looked at. -/
def decodeHalves (h h2 : Half) : Instr :=
  match fieldOp h with
  | 0x0#4 => decodeBranch (fieldDst h) (fieldK8 h)
  | 0x1#4 => decodeSecondary1 (fieldS1 h) (fieldS2 h) (fieldDst h)
  | 0x2#4 => .sub (fieldDst h) (fieldS1 h) (fieldS2 h)
  | 0x3#4 => .add (fieldDst h) (fieldS1 h) (fieldS2 h)
  | 0x4#4 => .exth (fieldDst h) (fieldS1 h) (fieldS2 h)
  | 0x5#4 => .extb (fieldDst h) (fieldS1 h) (fieldS2 h)
  | 0x6#4 => .stuffh (fieldDst h) (fieldS1 h) (fieldS2 h)
  | 0x7#4 => .stuffb (fieldDst h) (fieldS1 h) (fieldS2 h)
  | 0x8#4 => .addsru (fieldDst h) (fieldS1 h) (decodeShift (fieldS2 h))
  | 0x9#4 => .addsr (fieldDst h) (fieldS1 h) (decodeShift (fieldS2 h))
  | 0xA#4 => .movesl (fieldDst h) (fieldS1 h) (decodeShift (fieldS2 h))
  | 0xB#4 => .addsl (fieldDst h) (fieldS1 h) (decodeShift (fieldS2 h))
  | 0xC#4 => .oris (fieldDst h) (fieldK8 h)
  | 0xD#4 => .lis (fieldDst h) (fieldK8 h)
  | 0xE#4 => .lil (fieldDst h) (h2 ++ fieldK8 h)
  | _ => decodeSecondaryF (fieldS1 h) (fieldS2 h) (fieldDst h) h2

/-- The instruction at the head of a byte list in address order, little-endian (rules R41, R72), and the bytes after it. -/
def decodeBytes : List Byte → Except DecodeError (Instr × List Byte)
  | b0 :: b1 :: rest =>
    let h : Half := b1 ++ b0
    if needsSecondHalf h then
      match rest with
      | b2 :: b3 :: rest' => .ok (decodeHalves h (b3 ++ b2), rest')
      | _ => .error .secondHalfwordMissing
    else .ok (decodeHalves h 0, rest)
  | _ => .error .firstHalfwordMissing

/-- The first four bytes in address order of an instruction whose bits are `w`, `nbits` of them given and the rest 0 (rules R41, R72). -/
def tableWordBytes (nbits w : Nat) : List Byte :=
  let v := w % 2 ^ nbits
  [BitVec.ofNat 8 v, BitVec.ofNat 8 (v / 0x100), BitVec.ofNat 8 (v / 0x10000), BitVec.ofNat 8 (v / 0x1000000)]

/-- What the decoder reads from an instruction whose bits are `w`: bit 0 is the least significant bit of the first
halfword, the second halfword is bits 31..16, bits from `nbits` on are 0. -/
def decodeTableWord (nbits w : Nat) : Option Instr :=
  match decodeBytes (tableWordBytes nbits w) with
  | .ok (i, _) => some i
  | .error _ => none

/-! ## The encoder (rules R71 to R77) -/

/-- The halfwords of an instruction, first halfword first. -/
def encode : Instr → List Half
  | .br d => [packHalf8 d 0x0 0x0]
  | .bns d => [packHalf8 d 0x0 0x1]
  | .bzs d => [packHalf8 d 0x0 0x2]
  | .bvs d => [packHalf8 d 0x0 0x3]
  | .bcs d => [packHalf8 d 0x0 0x4]
  | .blt d => [packHalf8 d 0x0 0x5]
  | .ble d => [packHalf8 d 0x0 0x6]
  | .bleu d => [packHalf8 d 0x0 0x7]
  | .nop d => [packHalf8 d 0x0 0x8]
  | .bnr d => [packHalf8 d 0x0 0x9]
  | .bzr d => [packHalf8 d 0x0 0xA]
  | .bvr d => [packHalf8 d 0x0 0xB]
  | .bcr d => [packHalf8 d 0x0 0xC]
  | .bge d => [packHalf8 d 0x0 0xD]
  | .bgt d => [packHalf8 d 0x0 0xE]
  | .bgtu d => [packHalf8 d 0x0 0xF]
  | .cpuset d k => [packHalf 0x0 k 0x1 d]
  | .cpuget d k => [packHalf 0x1 k 0x1 d]
  | .coset d k => [packHalf 0x2 k 0x1 d]
  | .coget d k => [packHalf 0x3 k 0x1 d]
  | .plus d k => [packHalf 0x4 k 0x1 d]
  | .adjust d k => [packHalf 0x5 k 0x1 d]
  | .subb d k => [packHalf 0x6 k 0x1 d]
  | .addc d k => [packHalf 0x7 k 0x1 d]
  | .illegal18 d k => [packHalf 0x8 k 0x1 d]
  | .equ d k => [packHalf 0x9 k 0x1 d]
  | .or d k => [packHalf 0xA k 0x1 d]
  | .and d k => [packHalf 0xB k 0x1 d]
  | .addsi d c => [packHalf 0xC (encodeConst4 c) 0x1 d]
  | .btrunc d n => [packHalf 0xD (encodeCount n) 0x1 d]
  | .sxt d n => [packHalf 0xE (encodeCount n) 0x1 d]
  | .trunc d n => [packHalf 0xF (encodeCount n) 0x1 d]
  | .sub d s1 s2 => [packHalf s1 s2 0x2 d]
  | .add d s1 s2 => [packHalf s1 s2 0x3 d]
  | .exth d s1 s2 => [packHalf s1 s2 0x4 d]
  | .extb d s1 s2 => [packHalf s1 s2 0x5 d]
  | .stuffh d s1 s2 => [packHalf s1 s2 0x6 d]
  | .stuffb d s1 s2 => [packHalf s1 s2 0x7 d]
  | .addsru d s1 n => [packHalf s1 (encodeCount n) 0x8 d]
  | .addsr d s1 n => [packHalf s1 (encodeCount n) 0x9 d]
  | .movesl d s1 n => [packHalf s1 (encodeCount n) 0xA d]
  | .addsl d s1 n => [packHalf s1 (encodeCount n) 0xB d]
  | .oris d k => [packHalf8 k 0xC d]
  | .lis d k => [packHalf8 k 0xD d]
  | .lil d k => [packHalf8 (k.extractLsb' 0 8) 0xE d, k.extractLsb' 8 16]
  | .illegalF0 d x => [packHalf 0x0 x 0xF d]
  | .illegalF1 d x => [packHalf 0x1 x 0xF d]
  | .store d x disp => [packHalf 0x2 x 0xF d, disp]
  | .jsr d x disp => [packHalf 0x3 x 0xF d, disp]
  | .loadcc d x disp => [packHalf 0x4 x 0xF d, disp]
  | .load d x disp => [packHalf 0x5 x 0xF d, disp]
  | .leacc d x disp => [packHalf 0x6 x 0xF d, disp]
  | .lea d x disp => [packHalf 0x7 x 0xF d, disp]
  | .storec d x => [packHalf 0x8 x 0xF d]
  | .loadl d x => [packHalf 0x9 x 0xF d]
  | .stores d x => [packHalf 0xA x 0xF d]
  | .jsrs d x => [packHalf 0xB x 0xF d]
  | .loadscc d x => [packHalf 0xC x 0xF d]
  | .loads d x => [packHalf 0xD x 0xF d]
  | .movecc d x => [packHalf 0xE x 0xF d]
  | .move d x => [packHalf 0xF x 0xF d]

/-- The bytes of a halfword in address order (rule R72). -/
def halfBytes (h : Half) : List Byte := [h.extractLsb' 0 8, h.extractLsb' 8 8]

/-- The bytes of an instruction in address order (rule R72). -/
def encodeBytes (i : Instr) : List Byte := (encode i).flatMap halfBytes

/-- The instruction is 32 bits long: LIL and the long memory references (rule R70). -/
def Instr.isLong : Instr → Bool
  | .lil _ _ | .store _ _ _ | .jsr _ _ _ | .loadcc _ _ _ | .load _ _ _ | .leacc _ _ _ | .lea _ _ _ => true
  | .br _ | .bns _ | .bzs _ | .bvs _ | .bcs _ | .blt _ | .ble _ | .bleu _
  | .nop _ | .bnr _ | .bzr _ | .bvr _ | .bcr _ | .bge _ | .bgt _ | .bgtu _ => false
  | .cpuset _ _ | .cpuget _ _ | .coset _ _ | .coget _ _ | .plus _ _ | .adjust _ _ | .subb _ _ | .addc _ _ | .illegal18 _ _ | .equ _ _ | .or _ _ | .and _ _ => false
  | .addsi _ _ | .btrunc _ _ | .sxt _ _ | .trunc _ _ => false
  | .sub _ _ _ | .add _ _ _ | .exth _ _ _ | .extb _ _ _ | .stuffh _ _ _ | .stuffb _ _ _ => false
  | .addsru _ _ _ | .addsr _ _ _ | .movesl _ _ _ | .addsl _ _ _ | .oris _ _ | .lis _ _ => false
  | .illegalF0 _ _ | .illegalF1 _ _ | .storec _ _ | .loadl _ _ | .stores _ _ | .jsrs _ _ => false
  | .loadscc _ _ | .loads _ _ | .movecc _ _ | .move _ _ => false

/-- The length of an instruction in bytes: 2 or 4 (rule R70). -/
def Instr.byteLength (i : Instr) : Word := if i.isLong then 4 else 2

end Sys2Proof
end

