-- ==== Sys2Proof/Machine/Memory.lean ====
section
/-!
DEFINITION. Memory as a list of (address, byte) cells in one canonical form: addresses strictly rising, and no
cell that holds what an unlisted address reads as (rules R34, R36, R41).
-/

namespace Sys2Proof.Machine

/-- The backed bytes of memory that differ from the default contents (rule R34). -/
abbrev Memory := List Host.Cell

/-- What an unlisted address of memory reads as: the default `INIT_MEM` is all zeros (rules R5, R36). -/
def unlistedByte : Byte := 0

/-- The byte at address `a`. -/
def memRead : Memory → Nat → Byte
  | [], _ => unlistedByte
  | (k, b) :: m, a => if k = a then b else memRead m a

/-- A cell for `a`, or none where the byte is the unlisted one. -/
def memCons (a : Nat) (b : Byte) (m : Memory) : Memory :=
  if b = unlistedByte then m else (a, b) :: m

/-- Memory with the byte at address `a` replaced by `b`, in canonical form. -/
def memWrite : Memory → Nat → Byte → Memory
  | [], a, b => memCons a b []
  | (k, c) :: m, a, b =>
    if a < k then memCons a b ((k, c) :: m)
    else if a = k then memCons a b m
    else (k, c) :: memWrite m a b

/-- The cells stand at strictly rising addresses, all at or above `lo`, and none holds the unlisted byte. -/
def memWfFrom : Nat → Memory → Bool
  | _, [] => true
  | lo, (k, b) :: m => decide (lo ≤ k) && decide (b ≠ unlistedByte) && memWfFrom (k + 1) m

/-- Memory is in canonical form. -/
def Memory.wf (m : Memory) : Bool := memWfFrom 0 m

/-- Every listed cell stands below `limit`. -/
def memBelow (limit : Nat) (m : Memory) : Bool := m.all fun c => decide (c.1 < limit)

/-- The little-endian word at word address `a` (rule R41). -/
def memReadWord (m : Memory) (a : Nat) : Word :=
  memRead m (a + 3) ++ memRead m (a + 2) ++ memRead m (a + 1) ++ memRead m a

/-- Memory with the word at word address `a` replaced by `v`, little-endian (rules R41, R46). -/
def memWriteWord (m : Memory) (a : Nat) (v : Word) : Memory :=
  memWrite (memWrite (memWrite (memWrite m a (v.extractLsb' 0 8)) (a + 1) (v.extractLsb' 8 8))
    (a + 2) (v.extractLsb' 16 8)) (a + 3) (v.extractLsb' 24 8)

/-- Memory with consecutive bytes from address `a` on replaced by `bs`. -/
def memWriteBytes (m : Memory) (a : Nat) : List Byte → Memory
  | [] => m
  | b :: bs => memWriteBytes (memWrite m a b) (a + 1) bs

end Sys2Proof.Machine
end

