-- ==== Sys2Proof/Machine/State.lean ====
section
/-!
DEFINITION. The state of the machine as plain data (rules R10 to R36), the reasons a step can stop, and the state right after reset.
-/

namespace Sys2Proof.Machine

/-- The condition flags and the nibble-carry capture (rules R16, R17). -/
structure Flags where
  n : Bool
  z : Bool
  v : Bool
  c : Bool
  cb : BitVec 8
deriving DecidableEq, Repr

/-- The implemented fields of COSTAT (rule R25). -/
structure Costat where
  coen : BitVec 8
  cosel : BitVec 3
  long : Bool
deriving DecidableEq, Repr

/-- The load-link token `LL_VALID`, `LL_ADDR` (rule R27). -/
structure Token where
  valid : Bool
  addr : Word
deriving DecidableEq, Repr

/-- The prefetch buffer `PF_VALID`, `PF_ADDR`, `PF_WORD` (rule R28). -/
structure Prefetch where
  valid : Bool
  addr : Word
  word : Word
deriving DecidableEq, Repr

/-- The floating-point unit: accumulators `A[0]`, `A[1]` and the staging register `FPLOW` (rules R30, R31). -/
structure Fpu where
  a0 : DWord
  a1 : DWord
  fplow : Word
deriving DecidableEq, Repr

/-- An action of the Monitor while the engine is stopped at a fetch boundary (rules R58, R213, R272). -/
inductive MonitorAction where
  | setReg (r : RegNo) (v : Word)
  | setPc (v : Word)
  | setPsw (w : Word)
  | setTpc (w : Word)
  | setTma (w : Word)
  | setTsv (w : Word)
  | setCyc (w : Word)
  | setCostat (w : Word)
  | setAcc (n : Bool) (d : DWord)
  | setFplow (w : Word)
  | writeWord (a : Word) (v : Word)
  | writeByte (a : Word) (b : Byte)
  /-- The unit called directly with a write of register `k` (rule R213). -/
  | unitWrite (k : BitVec 4) (w : Word)
  /-- The unit called directly with a read of register `k` (rule R213). -/
  | unitRead (k : BitVec 4)
  | setBreakpoint (a : Word)
  | setBudget (n : Int)
  /-- The host's pause flag set or cleared (rule R273). -/
  | setPause (p : Bool)
  /-- End the run: "the model has no state after it" (rule R272). -/
  | terminate
deriving DecidableEq, Repr

/-- An action of the environment at a fetch boundary (rules R250 step 2, R273, R287). -/
inductive EnvAction where
  /-- The devices drive the seven request lines; bit `i - 1` is line `i` (rules R29, R252). -/
  | setIrq (lines : BitVec 7)
  /-- A device writes a byte of memory. -/
  | writeByte (a : Word) (b : Byte)
  /-- A device writes a word of memory. -/
  | writeWord (a : Word) (v : Word)
  /-- A device's own state changes. -/
  | stimulus (dev : Nat) (w : Word)
  /-- The operating system's control signal sets the pause flag and the cycle-count snapshot (rule R273). -/
  | pause
deriving DecidableEq, Repr

/-- The debugger's side of the engine (rules R33, R268 to R273). -/
structure Debug where
  /-- `BREAKPOINT` (rules R33, R271). -/
  breakpoint : Word
  /-- `BUDGET`: bus word accesses left before the next handoff (rules R33, R269). -/
  budget : Int
  /-- The yield conditions are looked at: false from a resume until one step has been executed (rule R268). True at reset, where the Monitor
  has control before the first step (rule R281). -/
  armed : Bool
  /-- The host's pause flag (rule R273). -/
  paused : Bool
  /-- The cycle-count snapshot that the pause signal sets beside its flag (rule R273; width and moment: assumption 10). -/
  snapshot : Word
  /-- The model's own field: what the Monitor will do, one session per yield, the next one first. -/
  script : List (List MonitorAction)
deriving DecidableEq, Repr

/-- The state of the machine: every piece of state of rule R10's table, the parameters of rule R35, and
three fields of the model's own that make the outside world an input (`dbg.script`, `env`, `devLog`). -/
structure State where
  /-- `x[1]` to `x[15]`, register `r` at index `r - 1`; `x[0]` is no storage (rules R10, R11). -/
  x : Vector Word 15
  /-- The program counter (rule R13). -/
  pc : Word
  /-- `N`, `Z`, `V`, `C` and `CB` (rules R16, R17). -/
  flags : Flags
  /-- The current privilege level (rule R18). -/
  level : BitVec 4
  /-- The previous privilege level (rule R18). -/
  olevel : BitVec 4
  /-- Saved program counter (rule R21). -/
  tpc : Word
  /-- Saved faulting address (rule R22). -/
  tma : Word
  /-- Generic save slot (rule R23). -/
  tsv : Word
  /-- Cycle counter (rule R24). -/
  cyc : Word
  /-- Coprocessor status (rule R25). -/
  costat : Costat
  /-- Load-link token (rule R27). -/
  token : Token
  /-- Prefetch buffer (rule R28). -/
  prefetch : Prefetch
  /-- Interrupt request inputs, bit `i - 1` is `IRQ[i]` (rule R29). -/
  irq : BitVec 7
  /-- Floating-point registers (rules R30, R31). -/
  fpu : Fpu
  /-- Memory (rule R34). -/
  mem : Memory
  /-- `BREAKPOINT`, `BUDGET` and the rest of the debugger contract (rule R33). -/
  dbg : Debug
  /-- The model's own field: what the environment will do, one list of actions per fetch boundary, the next one first (rule R250 step 2). -/
  env : List (List EnvAction)
  /-- The model's own field: all that happened to the devices, newest first (rules R52, R53). -/
  devLog : List DevEvent
  /-- The parameters (rules R5, R35); no step changes them. -/
  cfg : Config
deriving DecidableEq, Repr

/-- A synchronous exception of the architecture (rules R234 to R238). It is taken, never a stop of the model. -/
inductive Exc where
  /-- An access to an address that is illegal for it, with the address recorded in `TMA` (rules R234, R235, R242). -/
  | busFault (addr : Word)
  | illegalInstruction
  | privilegeViolation
  | missingCoprocessor
deriving DecidableEq, Repr

/-- Why a run ends. -/
inductive Fault where
  /-- The Monitor asked for process termination; raised by a Monitor session inside `step`, never by an instruction
  (rule R272: the model has no state after it). Safe: the spec ends the run here too. -/
  | terminated
deriving DecidableEq, Repr

/-- Why the model gives no step. -/
inductive Refusal where
  /-- The instruction has no meaning yet; raised by an arm of `exec`. Safe. No arm raises it. -/
  | notModelled (mnemonic : String)
  /-- The parameters break the constraints of rule R5 (`93_implementation_defined.md` U6: refuse the configuration); raised by `step`. Safe. -/
  | badConfiguration
deriving DecidableEq, Repr

/-- The outcome of an instruction or a step. -/
abbrev Result := Host.Outcome State Fault Refusal

/-- The machine right after power-on reset with the default parameters (rules R36, R280). `LL_ADDR`, `PF_ADDR`, `PF_WORD`,
`BREAKPOINT`, `BUDGET`, the pause flag and the cycle-count snapshot have no reset value in the spec: DESIGN CHOICE 0 (assumption 4). -/
def State.reset : State where
  x := Vector.replicate 15 0
  pc := 0
  flags := ⟨false, false, false, false, 0⟩
  level := 0
  olevel := 0
  tpc := 0
  tma := 0
  tsv := 0
  cyc := 0
  costat := ⟨0, 0, false⟩
  token := ⟨false, 0⟩
  prefetch := ⟨false, 0, 0⟩
  irq := 0
  fpu := ⟨0, 0, 0⟩
  mem := []
  dbg := ⟨0, 0, true, false, 0, []⟩
  env := []
  devLog := []
  cfg := ({} : Config)

end Sys2Proof.Machine
end

