-- ==== Sys2Proof/Machine/Ops.lean ====
section
/-!
DEFINITION. The named operations over registers, the program counter, the PSW, the bus and the token, and the one shared
operation that takes an exception or an interrupt, with the return beside it.
-/

namespace Sys2Proof.Machine

/-! ## Registers (rules R10, R11) -/

/-- `x[r]`: register 0 reads as zero (rules R7, R11). -/
def regRead (x : Vector Word 15) (r : RegNo) : Word :=
  if h : r = 0 then 0 else x[r.toNat - 1]'(by have := r.isLt; have : r.toNat ≠ 0 := fun e => h (BitVec.eq_of_toNat_eq e); omega)

/-- `x[r] <- v`: a write of register 0 is discarded (rules R7, R11). -/
def regWrite (x : Vector Word 15) (r : RegNo) (v : Word) : Vector Word 15 :=
  if h : r = 0 then x else x.set (r.toNat - 1) v (by have := r.isLt; have : r.toNat ≠ 0 := fun e => h (BitVec.eq_of_toNat_eq e); omega)

/-- `x[r]` of the state. -/
def readReg (s : State) (r : RegNo) : Word := regRead s.x r

/-- `x[r] <- v` on the state. -/
def writeReg (s : State) (r : RegNo) (v : Word) : State := { s with x := regWrite s.x r v }

/-! ## The program counter (rules R13, R14) -/

/-- An address with bit 0 cleared. -/
def evenAddr (t : Word) : Word := t &&& 0xFFFFFFFE

/-- The word address of a byte address: bits 1:0 ignored (rule R44). -/
def wordAddr (a : Word) : Word := a &&& 0xFFFFFFFC

/-- `pc <- t`: bit 0 is cleared and the prefetch buffer invalidated (rule R14). -/
def writePc (s : State) (t : Word) : State :=
  { s with pc := evenAddr t, prefetch := { s.prefetch with valid := false } }

/-! ## Flags and PSW (rules R15, R19) -/

/-- All flags and `CB` replaced. -/
def setFlags (s : State) (f : Flags) : State := { s with flags := f }

/-- `V` replaced, the other flags and `CB` kept (rule R135). -/
def setV (s : State) (v : Bool) : State := { s with flags := { s.flags with v := v } }

/-- The 32-bit PSW value `LEVEL : OLEVEL : 0x00 : CB : 0b0000 : N : Z : V : C` (rule R19). -/
def pswValue (s : State) : Word :=
  s.level ++ s.olevel ++ 0#8 ++ s.flags.cb ++ 0#4 ++
    BitVec.ofBool s.flags.n ++ BitVec.ofBool s.flags.z ++ BitVec.ofBool s.flags.v ++ BitVec.ofBool s.flags.c

/-- PSW written as data: bits 23:16 and 7:4 of `w` are ignored (rules R19, R199). -/
def writePsw (s : State) (w : Word) : State :=
  { s with
    level := w.extractLsb' 28 4
    olevel := w.extractLsb' 24 4
    flags := ⟨w.getLsbD 3, w.getLsbD 2, w.getLsbD 1, w.getLsbD 0, w.extractLsb' 8 8⟩ }

/-- The engine is in the unprivileged state (rules R18, R202). -/
def unprivileged (s : State) : Bool := s.level == 15

/-! ## Special registers (rules R21 to R24; table of `10_state.md` section 5) -/

/-- The value of special register `k`, or none where no such register exists (rules R196, R203). -/
def specialValue (s : State) (k : BitVec 4) : Option Word :=
  if k = 0 then some (pswValue s)
  else if k = 1 then some s.tpc
  else if k = 2 then some s.tma
  else if k = 3 then some s.tsv
  else if k = 8 then some s.cyc
  else none

/-- Special register `k` written, or none where no such register exists (rules R197, R199 to R201, R203). -/
def writeSpecial (s : State) (k : BitVec 4) (w : Word) : Option State :=
  if k = 0 then some (writePsw s w)
  else if k = 1 then some { s with tpc := w }
  else if k = 2 then some { s with tma := w }
  else if k = 3 then some { s with tsv := w }
  else if k = 8 then some { s with cyc := w }
  else none

/-! ## COSTAT (rule R25) -/

/-- The 32-bit value of COSTAT: `0x0000 : COEN : 0 : COSEL : 0b000 : LONG` (rule R205). -/
def costatValue (c : Costat) : Word :=
  0#16 ++ c.coen ++ 0#1 ++ c.cosel ++ 0#3 ++ BitVec.ofBool c.long

/-- COSTAT from a written word: the other bits are ignored (rule R209). -/
def costatOf (w : Word) : Costat := ⟨w.extractLsb' 8 8, w.extractLsb' 4 3, w.getLsbD 0⟩

/-! ## The bus (rules R40, R44 to R49, R52) -/

/-- The regions of the address map (rule R40). -/
inductive Region where
  | rom
  | ram
  | unmapped
  /-- Inside the range of device number `dev`, at byte offset `off` from its base. -/
  | device (dev : Nat) (off : Word)
  | openBus
deriving DecidableEq, Repr

/-- The device whose range holds address `a`, with the offset; devices are numbered from `n` on (rules R45, R52). -/
def findDevice : List DeviceRange → Nat → Nat → Option (Nat × Word)
  | [], _, _ => none
  | d :: ds, n, a =>
    if d.base ≤ a ∧ a < d.base + d.len then some (n, BitVec.ofNat 32 (a - d.base)) else findDevice ds (n + 1) a

/-- The region of a word address (rule R40). -/
def region (c : Config) (a : Nat) : Region :=
  if a < c.memSize then (if a < c.romLimit then .rom else .ram)
  else if a < c.ioBase then .unmapped
  else match findDevice c.devices 0 a with
    | some (dev, off) => .device dev off
    | none => .openBus

/-- One successful bus word access: `CYC + 1`, and 1 taken from `BUDGET` (rule R49). -/
def countAccess (s : State) : State :=
  { s with cyc := s.cyc + 1, dbg := { s.dbg with budget := s.dbg.budget - 1 } }

/-- A bus transaction with a device is recorded (rules R52, R53). -/
def logDevice (s : State) (e : DevEvent) : State := { s with devLog := e :: s.devLog }

/-- `MemRead(ea, 4)`: the word read and the state after, or none for `BusFault(ea)` (rules R45, R47, R48). -/
def busRead (s : State) (ea : Word) : Option (Word × State) :=
  let a := (wordAddr ea).toNat
  match region s.cfg a with
  | .rom => some (memReadWord s.mem a, countAccess s)
  | .ram => some (memReadWord s.mem a, countAccess s)
  | .unmapped => none
  | .device dev off => some (Config.deviceAnswer s.devLog dev off, countAccess (logDevice s (.read dev off)))
  | .openBus => some (s.cfg.openBusValue, countAccess s)

/-- The token after a write to the word at word address `a` (rules R46, R50). -/
def breakToken (t : Token) (a : Word) : Token :=
  if t.valid && t.addr == a then { t with valid := false } else t

/-- `MemWrite(ea, 4, v)`: the state after, or none for `BusFault(ea)` (rules R46 to R50). -/
def busWrite (s : State) (ea v : Word) : Option State :=
  let a := wordAddr ea
  match region s.cfg a.toNat with
  | .rom => none
  | .ram => some (countAccess { s with mem := memWriteWord s.mem a.toNat v, token := breakToken s.token a })
  | .unmapped => none
  | .device dev off => some (countAccess { logDevice s (.write dev off v) with token := breakToken s.token a })
  | .openBus => some (countAccess { s with token := breakToken s.token a })

/-- The byte of memory at address `a`. -/
def byteAt (s : State) (a : Nat) : Byte := memRead s.mem a

/-! ## Exceptions (rules R232, R240 to R242) -/

/-- The vector of an exception (rule R232). -/
def excVector : Exc → Word
  | .busFault _ => 0x10
  | .illegalInstruction => 0x20
  | .privilegeViolation => 0x30
  | .missingCoprocessor => 0x50

/-- The vector reserved for the MMU trap, which nothing raises (rules R232, R239). -/
def mmuVector : Word := 0x40

/-- The address an exception records in `TMA`, if any (rule R242). -/
def excAddress : Exc → Option Word
  | .busFault a => some a
  | .illegalInstruction => none
  | .privilegeViolation => none
  | .missingCoprocessor => none

/-- `TrapEntry(vector, saved_pc, fault_addr or none)`, for traps and interrupts alike (rule R240). -/
def trapEntry (s : State) (vector savedPc : Word) (faultAddr : Option Word) : State :=
  writePc { s with
    tpc := savedPc
    tma := faultAddr.getD s.tma
    olevel := s.level
    level := 0 } vector

/-- The entry of a synchronous exception of the instruction at `pcInst` (rules R240 to R242). -/
def takeException (s : State) (e : Exc) (pcInst : Word) : State :=
  trapEntry s (excVector e) pcInst (excAddress e)

/-- `pc_inst` of a 16-bit instruction, from the state after its halfword was fetched (rules R7, R13). -/
def pcInst16 (s : State) : Word := s.pc - 2

/-- `pc_inst` of a 32-bit instruction, from the state after its halfwords were fetched (rules R7, R13). -/
def pcInst32 (s : State) : Word := s.pc - 4

/-- A 16-bit instruction raises an exception (rule R7). -/
def raise16 (s : State) (e : Exc) : Result := .next (takeException s e (pcInst16 s))

/-- A 32-bit instruction raises an exception (rule R7). -/
def raise32 (s : State) (e : Exc) : Result := .next (takeException s e (pcInst32 s))

/-- The return of CPUGET with destination 0: `pc <- v`, `LEVEL <- OLEVEL` (rules R198, R258). -/
def returnFromTrap (s : State) (v : Word) : State := { writePc s v with level := s.olevel }

end Sys2Proof.Machine
end

