-- ==== Sys2Proof/Machine/Fpu.lean ====
section
/-!
DEFINITION. The floating-point unit behind COGET and COSET: its registers, the slot check, one read and one write transaction
(rules R206, R207, R210 to R229).
-/

namespace Sys2Proof.Machine

/-- The slot check passes: slot 1 is selected, enabled, and built (rule R211). -/
def slotOk (s : State) : Bool := s.costat.cosel == 1 && s.costat.coen.getLsbD 1 && s.cfg.hasFpu

/-- Accumulator `A[n]`, `n` the low bit of the register number (rule R215). -/
def readAcc (f : Fpu) (n : Bool) : DWord := if n then f.a1 else f.a0

/-- Accumulator `A[n]` replaced. -/
def writeAcc (f : Fpu) (n : Bool) (d : DWord) : Fpu := if n then { f with a1 := d } else { f with a0 := d }

/-- The operand of a write as a binary64 pattern: `x[src] : FPLOW` in 64-bit mode, else `x[src]` widened (rule R216). -/
def fpOperand (r : NanRule) (long : Bool) (f : Fpu) (w : Word) : DWord :=
  if long then w ++ f.fplow else fpWiden r w

/-- The unit's write of register `k` (rules R210, R215, R217 to R224). Register 0 is COSTAT and never reaches the unit. -/
def unitWrite (r : NanRule) (long : Bool) (f : Fpu) (k : BitVec 4) (w : Word) : Fpu :=
  let n := k.getLsbD 0
  let a := readAcc f n
  let opnd := fpOperand r long f w
  match k.extractLsb' 1 3 with
  | 0#3 => if n then { f with fplow := w } else f
  | 1#3 => writeAcc f n opnd
  | 2#3 => writeAcc f n (fpOfInt w)
  | 3#3 => writeAcc f n (fpSqrt r opnd)
  | 4#3 => writeAcc f n (fpAdd r a opnd)
  | 5#3 => writeAcc f n (fpSub r a opnd)
  | 6#3 => writeAcc f n (fpMul r a opnd)
  | _ => writeAcc f n (fpDiv r a opnd)

/-- A read transaction's answer: the word, the condition result and the unit after it (rule R212). -/
structure UnitAnswer where
  value : Word
  cocc : Cocc
  unit : Fpu
deriving DecidableEq, Repr

/-- The unit's read of accumulator `n` (rule R227). -/
def storeAcc (r : NanRule) (long : Bool) (f : Fpu) (n : Bool) : UnitAnswer :=
  let a := readAcc f n
  if long then ⟨a.extractLsb' 32 32, cocc64 a, { f with fplow := a.extractLsb' 0 32 }⟩
  else
    let s := fpNarrow r a
    ⟨s, cocc32 s, f⟩

/-- The unit's read of register `k` (rules R207, R225, R227, R228). Register 0 is COSTAT and never reaches the unit. -/
def unitRead (r : NanRule) (long : Bool) (f : Fpu) (k : BitVec 4) : UnitAnswer :=
  if k = 1 then ⟨f.fplow, coccInt f.fplow, f⟩
  else if k = 2 ∨ k = 3 then storeAcc r long f (k.getLsbD 0)
  else ⟨0, ⟨false, true, false⟩, f⟩

/-- The flags after a coprocessor read: `N`, `Z`, `V` from COCC, `C` and `CB` cleared (rule R206). -/
def coccFlags (c : Cocc) : Flags := ⟨c.neg, c.zero, c.nonfinite, false, 0⟩

end Sys2Proof.Machine
end

