-- ==== Sys2Proof/Machine/Boundary.lean ====
section
/-!
DEFINITION. The fetch boundary (rule R250): the check of the parameters, the debug yield with the Monitor's turn, the environment's turn, the
interrupt check, and what the end of a step leaves for the next boundary.
-/

namespace Sys2Proof.Machine

/-! ## Parameters (rule R5) -/

/-- A device range is word-aligned and inside the I/O region (rule R5). -/
def deviceOk (ioBase : Nat) (d : DeviceRange) : Bool :=
  d.base % 4 == 0 && d.len % 4 == 0 && decide (ioBase ≤ d.base) && decide (d.base + d.len ≤ 2 ^ 32)

/-- Two ranges share no address. Rule R5 does not say whether a range may be empty: DESIGN CHOICE (assumption 13), it may, and an empty range
shares no address with any other, wherever it lies. -/
def devicesApart (d e : DeviceRange) : Bool :=
  d.len == 0 || e.len == 0 || decide (d.base + d.len ≤ e.base) || decide (e.base + e.len ≤ d.base)

/-- The ranges are pairwise disjoint (rule R5). -/
def devicesDisjoint : List DeviceRange → Bool
  | [] => true
  | d :: ds => ds.all (devicesApart d) && devicesDisjoint ds

/-- The constraints of rule R5; a configuration that breaks one is refused (U6 of `93_implementation_defined.md`). -/
def configOk (c : Config) : Bool :=
  c.memSize % 4 == 0 && c.romLimit % 4 == 0 && c.ioBase % 4 == 0 &&
  decide (0x100 ≤ c.romLimit) && decide (c.romLimit ≤ c.memSize) && decide (c.memSize ≤ c.ioBase) &&
  decide (c.ioBase < 2 ^ 32) && c.devices.all (deviceOk c.ioBase) && devicesDisjoint c.devices

/-! ## Writes to memory by other agents (rules R50, R58, R287) -/

/-- An agent other than the engine writes a byte of memory, read-only or not; the token is cleared on a hit. An address outside memory is
nobody's memory, and nothing happens (assumption 14). `CYC` and `BUDGET` do not count the write: DESIGN CHOICE (assumption 20). -/
def agentWriteByte (s : State) (a : Word) (b : Byte) : State :=
  if a.toNat < s.cfg.memSize then
    { s with mem := memWrite s.mem a.toNat b, token := breakToken s.token (wordAddr a) }
  else s

/-- An agent other than the engine writes the word of memory that holds address `a`; outside memory nothing happens (assumption 14), and `CYC` and
`BUDGET` do not count the write: DESIGN CHOICE (assumption 20). -/
def agentWriteWord (s : State) (a v : Word) : State :=
  if (wordAddr a).toNat < s.cfg.memSize then
    { s with mem := memWriteWord s.mem (wordAddr a).toNat v, token := breakToken s.token (wordAddr a) }
  else s

/-- The prefetch buffer emptied (rule R272: a Monitor write to memory). -/
def dropPrefetch (s : State) : State := { s with prefetch := { s.prefetch with valid := false } }

/-- The Monitor writes a byte of memory: as any agent, and the prefetch buffer is emptied (rule R272); outside memory nothing happens at
all (assumption 14). -/
def monitorWriteByte (s : State) (a : Word) (b : Byte) : State :=
  if a.toNat < s.cfg.memSize then dropPrefetch (agentWriteByte s a b) else s

/-- The Monitor writes the word of memory that holds address `a`: as any agent, and the prefetch buffer is emptied (rule R272); outside memory
nothing happens at all (assumption 14). -/
def monitorWriteWord (s : State) (a v : Word) : State :=
  if (wordAddr a).toNat < s.cfg.memSize then dropPrefetch (agentWriteWord s a v) else s

/-! ## The Monitor (rules R268 to R273) -/

/-- The engine must hand over to the Monitor at this boundary (rule R268). -/
def yieldDue (s : State) : Bool :=
  s.cfg.monitor && s.dbg.armed &&
    (decide (s.dbg.budget ≤ 0) || s.pc == s.dbg.breakpoint || s.pc == 0 || s.dbg.paused)

/-- The floating-point unit is built and its own enable bit is set (rule R213). -/
def unitEnabled (s : State) : Bool := s.cfg.hasFpu && s.costat.coen.getLsbD 1

/-- The unit called directly with a write: nothing happens while it is disabled (rule R213). -/
def unitCallWrite (s : State) (k : BitVec 4) (w : Word) : State :=
  if unitEnabled s then { s with fpu := unitWrite s.cfg.nanRule s.costat.long s.fpu k w } else s

/-- The unit called directly with a read: while it is disabled the staging register or zero, and nothing changes (rule R213). -/
def unitCallAnswer (s : State) (k : BitVec 4) : UnitAnswer :=
  if unitEnabled s then unitRead s.cfg.nanRule s.costat.long s.fpu k
  else if k = 1 then ⟨s.fpu.fplow, coccInt s.fpu.fplow, s.fpu⟩
  else ⟨0, ⟨false, true, false⟩, s.fpu⟩

/-- One action of the Monitor, with the effect of the corresponding architectural write; none ends the run (rule R272). -/
def monitorAct (s : State) : MonitorAction → Option State
  | .setReg r v => some (writeReg s r v)
  | .setPc v => some (writePc s v)
  | .setPsw w => some (writePsw s w)
  | .setTpc w => some { s with tpc := w }
  | .setTma w => some { s with tma := w }
  | .setTsv w => some { s with tsv := w }
  | .setCyc w => some { s with cyc := w }
  | .setCostat w => some { s with costat := costatOf w }
  | .setAcc n d => some { s with fpu := writeAcc s.fpu n d }
  | .setFplow w => some { s with fpu := { s.fpu with fplow := w } }
  | .writeWord a v => some (monitorWriteWord s a v)
  | .writeByte a b => some (monitorWriteByte s a b)
  | .unitWrite k w => some (unitCallWrite s k w)
  | .unitRead k => some { s with fpu := (unitCallAnswer s k).unit }
  | .setBreakpoint a => some { s with dbg := { s.dbg with breakpoint := a } }
  | .setBudget n => some { s with dbg := { s.dbg with budget := n } }
  | .setPause p => some { s with dbg := { s.dbg with paused := p } }
  | .terminate => none

/-- The actions of one session in order; none where the Monitor ends the run. -/
def monitorSession (s : State) : List MonitorAction → Option State
  | [] => some s
  | a :: acts =>
    match monitorAct s a with
    | some t => monitorSession t acts
    | none => none

/-- The Monitor resumes the engine: no step has been executed since (rule R268). -/
def resume (s : State) : State := { s with dbg := { s.dbg with armed := false } }

/-- Step 1 of rule R250. On a yield the next session of the script is carried out and the engine resumed; when the script is used up the
Monitor resumes at once (assumption 8). None where the Monitor ends the run. -/
def monitorTurn (s : State) : Option State :=
  if yieldDue s then
    match s.dbg.script with
    | [] => some (resume s)
    | session :: rest =>
      match monitorSession { s with dbg := { s.dbg with script := rest } } session with
      | some t => some (resume t)
      | none => none
  else some s

/-! ## The environment (rules R250 step 2, R287) -/

/-- The control signal: the pause flag is set and the cycle count recorded (rule R273; assumption 10). -/
def pauseSignal (s : State) : State := { s with dbg := { s.dbg with paused := true, snapshot := s.cyc } }

/-- One action of the environment. -/
def environmentAct (s : State) : EnvAction → State
  | .setIrq lines => { s with irq := lines }
  | .writeByte a b => agentWriteByte s a b
  | .writeWord a v => agentWriteWord s a v
  | .stimulus dev w => logDevice s (.stimulus dev w)
  | .pause => pauseSignal s

/-- Step 2 of rule R250: the actions that the input list holds for this boundary; when the list is used up nothing happens (assumption 7). -/
def environmentTurn (s : State) : State :=
  match s.env with
  | [] => s
  | acts :: rest => acts.foldl environmentAct { s with env := rest }

/-! ## Interrupts (rules R20, R251 to R254) -/

/-- `IE[i] = (i <= LEVEL)` (rule R20). -/
def lineEnabled (level : BitVec 4) (i : Nat) : Bool := decide (i ≤ level.toNat)

/-- `IRQ[i]`, `i` in 1..7 (rule R29). -/
def lineRequested (irq : BitVec 7) (i : Nat) : Bool := irq.getLsbD (i - 1)

/-- The lowest-numbered line that is requested and admitted (rules R250 step 3, R251, R254). -/
def pendingLine (s : State) : Option Nat :=
  [1, 2, 3, 4, 5, 6, 7].find? fun i => lineRequested s.irq i && lineEnabled s.level i

/-- `InterruptEntry(i)`: vector `0x80 + 0x10 * i`, the pc of the instruction not yet executed saved, no fault address (rule R251). -/
def interruptEntry (s : State) (i : Nat) : State := trapEntry s (0x80 + 0x10 * BitVec.ofNat 32 i) s.pc none

/-! ## The end of a step (rules R268, R270) -/

/-- What a step leaves for the next boundary: a step has been executed, and a step that ends with `pc = 0` flushes the budget (rules R268, R270). -/
def endStep (s : State) : State :=
  { s with dbg := { s.dbg with armed := true, budget := if s.pc = 0 then 0 else s.dbg.budget } }

end Sys2Proof.Machine
end

