-- ==== Sys2Proof/Machine/Flags.lean ====
section
/-!
DEFINITION. The add primitive with its carry capture, the flag-setting rules, the shift overflow test, the adjust constants and the
branch predicates (rules R100 to R109, R146).
-/

namespace Sys2Proof.Machine

/-- The result of the add primitive (rule R100). -/
structure AddResult where
  sum : Word
  n : Bool
  z : Bool
  v : Bool
  c : Bool
  cb : BitVec 8
deriving DecidableEq, Repr

/-- `S33`: the exact 33-bit sum (rule R100). -/
def sum33 (a b : Word) (cin : Bool) : BitVec 33 :=
  a.zeroExtend 33 + b.zeroExtend 33 + (BitVec.ofBool cin).zeroExtend 33

/-- `K33`: bit `i` is the carry into bit position `i` (rule R100). -/
def carries33 (a b : Word) (cin : Bool) : BitVec 33 :=
  a.zeroExtend 33 ^^^ b.zeroExtend 33 ^^^ sum33 a b cin

/-- The eight sampled positions 4, 8, ..., 32 of a carry vector (rules R17, R100). -/
def nibbleCarries (k : BitVec 33) : BitVec 8 :=
  BitVec.ofBool (k.getLsbD 32) ++ BitVec.ofBool (k.getLsbD 28) ++ BitVec.ofBool (k.getLsbD 24) ++
  BitVec.ofBool (k.getLsbD 20) ++ BitVec.ofBool (k.getLsbD 16) ++ BitVec.ofBool (k.getLsbD 12) ++
  BitVec.ofBool (k.getLsbD 8) ++ BitVec.ofBool (k.getLsbD 4)

/-- `ADDER(a, b, cin)` (rule R100). -/
def adder (a b : Word) (cin : Bool) : AddResult :=
  let s := sum33 a b cin
  let k := carries33 a b cin
  let sum : Word := s.extractLsb' 0 32
  { sum := sum
    n := sum.getLsbD 31
    z := sum == 0
    v := k.getLsbD 32 ^^ k.getLsbD 31
    c := k.getLsbD 32
    cb := nibbleCarries k }

/-- Subtraction is the addition of the complement (rule R102). -/
def subtractor (a b : Word) (cin : Bool) : AddResult := adder a (~~~b) cin

/-- `SETADD(t)` (rule R103). -/
def addFlags (t : AddResult) : Flags := ⟨t.n, t.z, t.v, t.c, t.cb⟩

/-- `SETNZ(r)` (rule R104). -/
def nzFlags (r : Word) : Flags := ⟨r.getLsbD 31, r == 0, false, false, 0⟩

/-- `SHLV(v, n)`: the bits `v[31 : 31-n]` are not all equal (rule R108). -/
def shiftOverflow (v : Word) (n : Nat) : Bool :=
  let top := v.sshiftRight (31 - n)
  top != 0 && top != BitVec.allOnes 32

/-- The sum over the eight digits `k` of `16^k` times a digit value chosen by `CB[k]` (rule R109). -/
def digitSum (cb : BitVec 8) (carried plain : Word) : Word :=
  [0, 1, 2, 3, 4, 5, 6, 7].foldl
    (fun acc k => acc + (if cb.getLsbD k then carried else plain) * BitVec.ofNat 32 (16 ^ k)) 0

/-- `BCDK(cb)` (rule R109). -/
def bcdConstant (cb : BitVec 8) : Word := - digitSum cb 0 6

/-- `EX3K(cb)` (rule R109). -/
def ex3Constant (cb : BitVec 8) : Word := digitSum cb 3 (-3)

/-- Signed less-than, as the flags of a compare show it (rule R146). -/
def flagLt (f : Flags) : Bool := f.n ^^ f.v

/-- The sixteen predicates (rule R146). -/
def predicate (cond : BitVec 4) (f : Flags) : Bool :=
  match cond with
  | 0x0#4 => true
  | 0x1#4 => f.n
  | 0x2#4 => f.z
  | 0x3#4 => f.v
  | 0x4#4 => f.c
  | 0x5#4 => flagLt f
  | 0x6#4 => flagLt f || f.z
  | 0x7#4 => !f.c || f.z
  | 0x8#4 => false
  | 0x9#4 => !f.n
  | 0xA#4 => !f.z
  | 0xB#4 => !f.v
  | 0xC#4 => !f.c
  | 0xD#4 => !(flagLt f)
  | 0xE#4 => !(flagLt f || f.z)
  | _ => f.c && !f.z

/-- The lookup table indexed by the nibble `N:Z:V:C`; bit `p` of an entry is predicate `p` (rule R148). -/
def predicateTable (nzvc : BitVec 4) : BitVec 16 :=
  match nzvc with
  | 0x0#4 => 0x7E81
  | 0x1#4 => 0xEE11
  | 0x2#4 => 0x16E9
  | 0x3#4 => 0x8679
  | 0x4#4 => 0x3AC5
  | 0x5#4 => 0x2AD5
  | 0x6#4 => 0x12ED
  | 0x7#4 => 0x02FD
  | 0x8#4 => 0x1CE3
  | 0x9#4 => 0x8C73
  | 0xA#4 => 0x748B
  | 0xB#4 => 0xE41B
  | 0xC#4 => 0x18E7
  | 0xD#4 => 0x08F7
  | 0xE#4 => 0x30CF
  | _ => 0x20DF

end Sys2Proof.Machine
end

