-- ==== Sys2Proof/Machine/Operands.lean ====
section
/-!
DEFINITION. The operand forms: effective addresses, immediates, byte and halfword selectors (rules R74, R120, R121, R174 to R177), and the
ways a result reaches the destination register and the flags (rules R103 to R105).
-/

namespace Sys2Proof.Machine

/-! ## Immediates (rule R74) -/

/-- The branch offset in bytes: `2 * sext_8(disp8)`. -/
def branchOffset (disp8 : BitVec 8) : Word := disp8.signExtend 32 <<< 1

/-- `sext_16(disp16)`, a byte displacement. -/
def displacement (disp16 : BitVec 16) : Word := disp16.signExtend 32

/-- `2^n - 1`, the mask of the low `n` bits (rules R181, R183). -/
def lowMask (n : Nat) : Word := BitVec.ofNat 32 (2 ^ n - 1)

/-- `sext_n(v[n-1:0])` for `n` in 1..16 (rule R182). -/
def signExtendFrom (v : Word) (n : Nat) : Word := (v <<< (32 - n)).sshiftRight (32 - n)

/-! ## Effective addresses (rules R120, R121) -/

/-- The index operand: field 0 means `pc_next`, not register 0. -/
def indexBase (s : State) (x : RegNo) : Word := if x = 0 then s.pc else readReg s x

/-- `EA_long` (rule R120). -/
def eaLong (s : State) (x : RegNo) (disp16 : BitVec 16) : Word := indexBase s x + displacement disp16

/-- `EA_short` (rule R121). -/
def eaShort (s : State) (x : RegNo) : Word := indexBase s x

/-! ## Byte and halfword selectors (rules R41, R174 to R177) -/

/-- The bit position of the byte that the low two bits of an address select. -/
def byteShift (sel : Word) : Nat := 8 * (sel.extractLsb' 0 2).toNat

/-- The bit position of the halfword that bit 1 of an address selects. -/
def halfShift (sel : Word) : Nat := 16 * (sel.extractLsb' 1 1).toNat

/-- The selected byte of a word, zero-extended (rule R174). -/
def extractByte (v sel : Word) : Word := (v.extractLsb' (byteShift sel) 8).zeroExtend 32

/-- The selected halfword of a word, zero-extended (rule R175). -/
def extractHalf (v sel : Word) : Word := (v.extractLsb' (halfShift sel) 16).zeroExtend 32

/-- A word with the selected byte replaced by the low byte of `v` (rule R176). -/
def stuffByte (old v sel : Word) : Word :=
  (old &&& ~~~((0xFF : Word) <<< byteShift sel)) ||| ((v &&& 0xFF) <<< byteShift sel)

/-- A word with the selected halfword replaced by the low halfword of `v` (rule R177). -/
def stuffHalf (old v sel : Word) : Word :=
  (old &&& ~~~((0xFFFF : Word) <<< halfShift sel)) ||| ((v &&& 0xFFFF) <<< halfShift sel)

/-! ## Where a result goes -/

/-- The result of an adder operation: destination, then `SETADD` (rule R103). -/
def finishAdd (s : State) (dst : RegNo) (t : AddResult) : Result :=
  .next (setFlags (writeReg s dst t.sum) (addFlags t))

/-- The result of a non-adder operation that sets flags: destination, then `SETNZ` (rule R104). -/
def finishNz (s : State) (dst : RegNo) (r : Word) : Result :=
  .next (setFlags (writeReg s dst r) (nzFlags r))

/-- A result that leaves the flags alone (rule R105). -/
def finishReg (s : State) (dst : RegNo) (r : Word) : Result := .next (writeReg s dst r)

end Sys2Proof.Machine
end

