-- ==== Sys2Proof/Machine/Branch.lean ====
section
/-!
DEFINITION. The sixteen conditional branches (rules R145 to R164).
-/

namespace Sys2Proof.Machine

/-- Bcc: taken, `pc <- pc_next + 2 * sext_8(disp8)`; not taken, nothing (rule R145). -/
def branchOn (cond : BitVec 4) (disp8 : BitVec 8) (s : State) : Result :=
  if predicate cond s.flags then .next (writePc s (s.pc + branchOffset disp8)) else .next s

/-- BR: condition 0 (rule R149). -/
def execBr (disp8 : BitVec 8) (s : State) : Result := branchOn 0x0 disp8 s

/-- BNS: condition 1 (rule R150). -/
def execBns (disp8 : BitVec 8) (s : State) : Result := branchOn 0x1 disp8 s

/-- BZS: condition 2 (rule R151). -/
def execBzs (disp8 : BitVec 8) (s : State) : Result := branchOn 0x2 disp8 s

/-- BVS: condition 3 (rule R152). -/
def execBvs (disp8 : BitVec 8) (s : State) : Result := branchOn 0x3 disp8 s

/-- BCS: condition 4 (rule R153). -/
def execBcs (disp8 : BitVec 8) (s : State) : Result := branchOn 0x4 disp8 s

/-- BLT: condition 5 (rule R154). -/
def execBlt (disp8 : BitVec 8) (s : State) : Result := branchOn 0x5 disp8 s

/-- BLE: condition 6 (rule R155). -/
def execBle (disp8 : BitVec 8) (s : State) : Result := branchOn 0x6 disp8 s

/-- BLEU: condition 7 (rule R156). -/
def execBleu (disp8 : BitVec 8) (s : State) : Result := branchOn 0x7 disp8 s

/-- the never-taken branch: condition 8 (rule R157). -/
def execNop (disp8 : BitVec 8) (s : State) : Result := branchOn 0x8 disp8 s

/-- BNR: condition 9 (rule R158). -/
def execBnr (disp8 : BitVec 8) (s : State) : Result := branchOn 0x9 disp8 s

/-- BZR: condition 10 (rule R159). -/
def execBzr (disp8 : BitVec 8) (s : State) : Result := branchOn 0xA disp8 s

/-- BVR: condition 11 (rule R160). -/
def execBvr (disp8 : BitVec 8) (s : State) : Result := branchOn 0xB disp8 s

/-- BCR: condition 12 (rule R161). -/
def execBcr (disp8 : BitVec 8) (s : State) : Result := branchOn 0xC disp8 s

/-- BGE: condition 13 (rule R162). -/
def execBge (disp8 : BitVec 8) (s : State) : Result := branchOn 0xD disp8 s

/-- BGT: condition 14 (rule R163). -/
def execBgt (disp8 : BitVec 8) (s : State) : Result := branchOn 0xE disp8 s

/-- BGTU: condition 15 (rule R164). -/
def execBgtu (disp8 : BitVec 8) (s : State) : Result := branchOn 0xF disp8 s

end Sys2Proof.Machine
end

