-- ==== Sys2Proof/Machine/Illegal.lean ====
section
/-!
DEFINITION. The three unassigned combinations: each raises IllegalInstruction, whatever `DST` and `S2` hold (rules R78, R139, R236).
-/

namespace Sys2Proof.Machine

/-- `OP = 1, S1 = 8` (rule R78). -/
def execIllegal18 (_dst _s2 : BitVec 4) (s : State) : Result := raise16 s .illegalInstruction

/-- `OP = 0xF, S1 = 0` (rule R139). -/
def execIllegalF0 (_dst _s2 : BitVec 4) (s : State) : Result := raise16 s .illegalInstruction

/-- `OP = 0xF, S1 = 1` (rule R139). -/
def execIllegalF1 (_dst _s2 : BitVec 4) (s : State) : Result := raise16 s .illegalInstruction

end Sys2Proof.Machine
end

