-- ==== Sys2Proof/Machine/ImmediateLoad.lean ====
section
/-!
DEFINITION. LIL, LIS and ORIS (rules R140 to R142). None writes a flag or raises an exception.
-/

namespace Sys2Proof.Machine

/-- LIL: `x[dst] <- sext_24(const24)` (rule R140). -/
def execLil (dst : RegNo) (const24 : BitVec 24) (s : State) : Result :=
  finishReg s dst (const24.signExtend 32)

/-- LIS: `x[dst] <- sext_8(const8)` (rule R141). -/
def execLis (dst : RegNo) (const8 : BitVec 8) (s : State) : Result :=
  finishReg s dst (const8.signExtend 32)

/-- ORIS: `x[dst] <- (x[dst] << 8) | zext_8(const8)` (rule R142). -/
def execOris (dst : RegNo) (const8 : BitVec 8) (s : State) : Result :=
  finishReg s dst ((readReg s dst <<< 8) ||| const8.zeroExtend 32)

end Sys2Proof.Machine
end

