-- ==== Sys2Proof/Machine/MemoryReference.lean ====
section
/-!
DEFINITION. The memory-reference family (rules R120 to R138). The only exception an instruction of the family raises is
`BusFault(ea)` from its one data access, and then nothing has changed (rule R122).
-/

namespace Sys2Proof.Machine

/-! ## Shared operations -/

/-- What a jump does: the link in `dst`, the pc at the target (rules R126, R133). The target was computed before the link is written. -/
def jumpAndLink (s : State) (dst : RegNo) (target : Word) : Result :=
  .next (writePc (writeReg s dst s.pc) target)

/-- A load of a 16-bit instruction: `finish` gets the word read, or BusFault is raised (rules R122, R234). -/
def load16 (s : State) (ea : Word) (finish : State → Word → Result) : Result :=
  match busRead s ea with
  | some (v, t) => finish t v
  | none => raise16 s (.busFault ea)

/-- A load of a 32-bit instruction: `finish` gets the word read, or BusFault is raised (rules R122, R234). -/
def load32 (s : State) (ea : Word) (finish : State → Word → Result) : Result :=
  match busRead s ea with
  | some (v, t) => finish t v
  | none => raise32 s (.busFault ea)

/-! ## Long forms -/

/-- LEA (rule R123). -/
def execLea (dst x : RegNo) (disp16 : BitVec 16) (s : State) : Result := finishReg s dst (eaLong s x disp16)

/-- LEACC (rule R124). -/
def execLeacc (dst x : RegNo) (disp16 : BitVec 16) (s : State) : Result :=
  finishAdd s dst (adder (indexBase s x) (displacement disp16) false)

/-- LOAD (rule R125). -/
def execLoad (dst x : RegNo) (disp16 : BitVec 16) (s : State) : Result :=
  load32 s (eaLong s x disp16) (fun t v => finishReg t dst v)

/-- JSR (rule R126). -/
def execJsr (dst x : RegNo) (disp16 : BitVec 16) (s : State) : Result := jumpAndLink s dst (eaLong s x disp16)

/-- LOADCC (rule R127). -/
def execLoadcc (dst x : RegNo) (disp16 : BitVec 16) (s : State) : Result :=
  load32 s (eaLong s x disp16) (fun t v => finishNz t dst v)

/-- STORE (rule R128). -/
def execStore (src x : RegNo) (disp16 : BitVec 16) (s : State) : Result :=
  match busWrite s (eaLong s x disp16) (readReg s src) with
  | some t => .next t
  | none => raise32 s (.busFault (eaLong s x disp16))

/-! ## Short forms -/

/-- MOVE (rule R129). -/
def execMove (dst x : RegNo) (s : State) : Result := finishReg s dst (eaShort s x)

/-- MOVECC (rule R130). -/
def execMovecc (dst x : RegNo) (s : State) : Result := finishAdd s dst (adder (eaShort s x) 0 false)

/-- LOADS (rule R131). -/
def execLoads (dst x : RegNo) (s : State) : Result :=
  load16 s (eaShort s x) (fun t v => finishReg t dst v)

/-- LOADSCC (rule R132). -/
def execLoadscc (dst x : RegNo) (s : State) : Result :=
  load16 s (eaShort s x) (fun t v => finishNz t dst v)

/-- JSRS (rule R133). -/
def execJsrs (dst x : RegNo) (s : State) : Result := jumpAndLink s dst (eaShort s x)

/-- STORES (rule R138). -/
def execStores (src x : RegNo) (s : State) : Result :=
  match busWrite s (eaShort s x) (readReg s src) with
  | some t => .next t
  | none => raise16 s (.busFault (eaShort s x))

/-! ## Load-linked and store-conditional -/

/-- LOADL: a normal load, then the token watches the word (rule R134). -/
def execLoadl (dst x : RegNo) (s : State) : Result :=
  load16 s (eaShort s x) (fun t v => .next { writeReg t dst v with token := ⟨true, wordAddr (eaShort s x)⟩ })

/-- The token consumed (rule R135). -/
def consumeToken (s : State) : State := { s with token := { s.token with valid := false } }

/-- STOREC: store and clear `V` where the token watches the word, else set `V`; the token is consumed in both (rule R135). -/
def execStorec (src x : RegNo) (s : State) : Result :=
  let ea := eaShort s x
  if s.token.valid && s.token.addr == wordAddr ea then
    match busWrite s ea (readReg s src) with
    | some t => .next (consumeToken (setV t false))
    | none => raise16 s (.busFault ea)
  else .next (consumeToken (setV s true))

end Sys2Proof.Machine
end

