-- ==== Sys2Proof/Machine/RegisterConstant.lean ====
section
/-!
DEFINITION. ADDSI, TRUNC, SXT and BTRUNC (rules R180 to R183).
-/

namespace Sys2Proof.Machine

/-- ADDSI (rule R180). -/
def execAddsi (dst : RegNo) (c : Int) (s : State) : Result :=
  finishAdd s dst (adder (readReg s dst) (BitVec.ofInt 32 c) false)

/-- TRUNC (rule R181). -/
def execTrunc (dst : RegNo) (n : Nat) (s : State) : Result :=
  finishNz s dst (readReg s dst &&& lowMask n)

/-- SXT (rule R182). -/
def execSxt (dst : RegNo) (n : Nat) (s : State) : Result :=
  finishNz s dst (signExtendFrom (readReg s dst) n)

/-- BTRUNC: always a control transfer, the register is not modified (rule R183). -/
def execBtrunc (dst : RegNo) (n : Nat) (s : State) : Result :=
  .next (writePc s (s.pc + ((readReg s dst &&& lowMask n) <<< 1)))

end Sys2Proof.Machine
end

