-- ==== Sys2Proof/Machine/ShiftConstant.lean ====
section
/-!
DEFINITION. MOVESL, ADDSL, ADDSR and ADDSRU, with a count `n` in 1..16 (rules R166 to R170).
-/

namespace Sys2Proof.Machine

/-- MOVESL: shifted left, `V` the shift overflow (rule R167). -/
def execMovesl (dst s1 : RegNo) (n : Nat) (s : State) : Result :=
  let v := readReg s s1
  let r := v <<< n
  .next (setFlags (writeReg s dst r) { nzFlags r with v := shiftOverflow v n })

/-- ADDSL: `x[dst] * 2^n + x[s1]`, `V` set when the shift or the addition overflowed (rule R168). -/
def execAddsl (dst s1 : RegNo) (n : Nat) (s : State) : Result :=
  let d := readReg s dst
  let t := adder (d <<< n) (readReg s s1) false
  .next (setFlags (writeReg s dst t.sum) { addFlags t with v := t.v || shiftOverflow d n })

/-- The signed sum shifted right: `floor(S / 2^n)`, with `S` exact (rule R169). -/
def averageSigned (a b : Word) (n : Nat) : Word := BitVec.ofInt 32 ((a.toInt + b.toInt) / (2 ^ n : Int))

/-- The unsigned sum shifted right: `floor(S / 2^n)`, with `S` exact (rule R170). -/
def averageUnsigned (a b : Word) (n : Nat) : Word := BitVec.ofNat 32 ((a.toNat + b.toNat) / 2 ^ n)

/-- ADDSR (rule R169). -/
def execAddsr (dst s1 : RegNo) (n : Nat) (s : State) : Result :=
  finishNz s dst (averageSigned (readReg s dst) (readReg s s1) n)

/-- ADDSRU (rule R170). -/
def execAddsru (dst s1 : RegNo) (n : Nat) (s : State) : Result :=
  finishNz s dst (averageUnsigned (readReg s dst) (readReg s s1) n)

end Sys2Proof.Machine
end

