-- ==== Sys2Proof/Machine/Special.lean ====
section
/-!
DEFINITION. CPUGET, CPUSET, COGET and COSET (rules R196 to R211).
-/

namespace Sys2Proof.Machine

/-- Special registers whose reading is "status register access": PSW, TPC, TMA, TSV (rules R196, R202). -/
def isStatusRegister (k : BitVec 4) : Bool := k == 0 || k == 1 || k == 2 || k == 3

/-- CPUGET: existence check, privilege check, then the value goes to `dst`, or for `dst = 0` the return from trap (rules R196, R198, R202, R203, R245). -/
def execCpuget (dst : RegNo) (k : BitVec 4) (s : State) : Result :=
  match specialValue s k with
  | none => raise16 s .illegalInstruction
  | some v =>
    if unprivileged s && (isStatusRegister k || dst == 0) then raise16 s .privilegeViolation
    else if dst = 0 then .next (returnFromTrap s v)
    else .next (writeReg s dst v)

/-- CPUSET: existence check, privilege check, then the write (rules R197, R199 to R203, R245). -/
def execCpuset (src : RegNo) (k : BitVec 4) (s : State) : Result :=
  match writeSpecial s k (readReg s src) with
  | none => raise16 s .illegalInstruction
  | some t => if unprivileged s then raise16 s .privilegeViolation else .next t

/-- COGET: COSTAT without flags, or a read of the unit with the flags from COCC (rules R204 to R207, R211). -/
def execCoget (dst : RegNo) (k : BitVec 4) (s : State) : Result :=
  if k = 0 then .next (writeReg s dst (costatValue s.costat))
  else if slotOk s then
    let u := unitRead s.cfg.nanRule s.costat.long s.fpu k
    .next (setFlags { writeReg s dst u.value with fpu := u.unit } (coccFlags u.cocc))
  else raise16 s .missingCoprocessor

/-- COSET: COSTAT (privileged), or a write of the unit; no flags (rules R208 to R211). -/
def execCoset (src : RegNo) (k : BitVec 4) (s : State) : Result :=
  if k = 0 then
    if unprivileged s then raise16 s .privilegeViolation
    else .next { s with costat := costatOf (readReg s src) }
  else if slotOk s then
    .next { s with fpu := unitWrite s.cfg.nanRule s.costat.long s.fpu k (readReg s src) }
  else raise16 s .missingCoprocessor

end Sys2Proof.Machine
end

