-- ==== Sys2Proof/Machine/ThreeRegister.lean ====
section
/-!
DEFINITION. ADD, SUB, EXTB, EXTH, STUFFB and STUFFH (rules R172 to R177).
-/

namespace Sys2Proof.Machine

/-- ADD (rule R172). -/
def execAdd (dst s1 s2 : RegNo) (s : State) : Result :=
  finishAdd s dst (adder (readReg s s1) (readReg s s2) false)

/-- SUB: `x[s1] - x[s2]` (rule R173). -/
def execSub (dst s1 s2 : RegNo) (s : State) : Result :=
  finishAdd s dst (subtractor (readReg s s1) (readReg s s2) true)

/-- EXTB (rule R174). -/
def execExtb (dst s1 s2 : RegNo) (s : State) : Result :=
  finishNz s dst (extractByte (readReg s s1) (readReg s s2))

/-- EXTH (rule R175). -/
def execExth (dst s1 s2 : RegNo) (s : State) : Result :=
  finishNz s dst (extractHalf (readReg s s1) (readReg s s2))

/-- STUFFB: no flags (rule R176). -/
def execStuffb (dst s1 s2 : RegNo) (s : State) : Result :=
  finishReg s dst (stuffByte (readReg s dst) (readReg s s1) (readReg s s2))

/-- STUFFH: no flags (rule R177). -/
def execStuffh (dst s1 s2 : RegNo) (s : State) : Result :=
  finishReg s dst (stuffHalf (readReg s dst) (readReg s s1) (readReg s s2))

end Sys2Proof.Machine
end

