-- ==== Sys2Proof/Machine/TwoRegister.lean ====
section
/-!
DEFINITION. AND, OR, EQU, ADDC, SUBB, PLUS and the adjust family (rules R184 to R195).
-/

namespace Sys2Proof.Machine

/-- AND (rule R184). -/
def execAnd (dst src : RegNo) (s : State) : Result := finishNz s dst (readReg s dst &&& readReg s src)

/-- OR (rule R194). -/
def execOr (dst src : RegNo) (s : State) : Result := finishNz s dst (readReg s dst ||| readReg s src)

/-- EQU: exclusive nor (rule R195). -/
def execEqu (dst src : RegNo) (s : State) : Result := finishNz s dst (~~~(readReg s dst ^^^ readReg s src))

/-- ADDC: the carry in is the `C` flag before the instruction (rule R186). -/
def execAddc (dst src : RegNo) (s : State) : Result :=
  finishAdd s dst (adder (readReg s dst) (readReg s src) s.flags.c)

/-- SUBB: `x[dst] - x[src] - (1 - C)` (rule R187). -/
def execSubb (dst src : RegNo) (s : State) : Result :=
  finishAdd s dst (subtractor (readReg s dst) (readReg s src) s.flags.c)

/-- PLUS: no flags (rule R188). -/
def execPlus (dst src : RegNo) (s : State) : Result := finishReg s dst (readReg s dst + readReg s src)

/-- `K(sel)`, the constant that ADJUST adds (rules R189 to R193). Selector 5 is the open parameter `ADJ_SSQ`. -/
def adjustConstant (sel : BitVec 4) (f : Flags) : Word :=
  match sel with
  | 0x0#4 => 0
  | 0x1#4 => 0
  | 0x2#4 => bcdConstant f.cb
  | 0x3#4 => ex3Constant f.cb
  | 0x4#4 => 0
  | 0x5#4 => Config.adjSsq f.n f.z f.v f.c f.cb
  | 0x6#4 => 0
  | 0x7#4 => 0
  | 0x8#4 => 1
  | 0x9#4 => 2
  | 0xA#4 => 4
  | 0xB#4 => 8
  | 0xC#4 => 16
  | 0xD#4 => 32
  | 0xE#4 => 64
  | _ => 128

/-- ADJUST: `x[dst] <- x[dst] + K(sel)`, flags and `CB` unchanged (rule R189). -/
def execAdjust (dst : RegNo) (sel : BitVec 4) (s : State) : Result :=
  finishReg s dst (readReg s dst + adjustConstant sel s.flags)

end Sys2Proof.Machine
end

