-- ==== Sys2Proof/Machine/Dispatch.lean ====
section
/-!
DEFINITION. One arm per instruction. `exec i s` is the effect of instruction `i` from the state `s` right after its halfwords were fetched:
`s.pc` is `pc_next` (rule R13), so `pc_inst` is `s.pc` less the instruction's length (assumption 12).
-/

namespace Sys2Proof.Machine

def exec (i : Instr) (s : State) : Host.Outcome State Fault Refusal :=
  match i with
  | .br disp8 => Sys2Proof.Machine.execBr disp8 s
  | .bns disp8 => Sys2Proof.Machine.execBns disp8 s
  | .bzs disp8 => Sys2Proof.Machine.execBzs disp8 s
  | .bvs disp8 => Sys2Proof.Machine.execBvs disp8 s
  | .bcs disp8 => Sys2Proof.Machine.execBcs disp8 s
  | .blt disp8 => Sys2Proof.Machine.execBlt disp8 s
  | .ble disp8 => Sys2Proof.Machine.execBle disp8 s
  | .bleu disp8 => Sys2Proof.Machine.execBleu disp8 s
  | .nop disp8 => Sys2Proof.Machine.execNop disp8 s
  | .bnr disp8 => Sys2Proof.Machine.execBnr disp8 s
  | .bzr disp8 => Sys2Proof.Machine.execBzr disp8 s
  | .bvr disp8 => Sys2Proof.Machine.execBvr disp8 s
  | .bcr disp8 => Sys2Proof.Machine.execBcr disp8 s
  | .bge disp8 => Sys2Proof.Machine.execBge disp8 s
  | .bgt disp8 => Sys2Proof.Machine.execBgt disp8 s
  | .bgtu disp8 => Sys2Proof.Machine.execBgtu disp8 s
  | .cpuset src k => Sys2Proof.Machine.execCpuset src k s
  | .cpuget dst k => Sys2Proof.Machine.execCpuget dst k s
  | .coset src k => Sys2Proof.Machine.execCoset src k s
  | .coget dst k => Sys2Proof.Machine.execCoget dst k s
  | .plus dst src => Sys2Proof.Machine.execPlus dst src s
  | .adjust dst sel => Sys2Proof.Machine.execAdjust dst sel s
  | .subb dst src => Sys2Proof.Machine.execSubb dst src s
  | .addc dst src => Sys2Proof.Machine.execAddc dst src s
  | .illegal18 dst s2 => Sys2Proof.Machine.execIllegal18 dst s2 s
  | .equ dst src => Sys2Proof.Machine.execEqu dst src s
  | .or dst src => Sys2Proof.Machine.execOr dst src s
  | .and dst src => Sys2Proof.Machine.execAnd dst src s
  | .addsi dst c => Sys2Proof.Machine.execAddsi dst c s
  | .btrunc dst n => Sys2Proof.Machine.execBtrunc dst n s
  | .sxt dst n => Sys2Proof.Machine.execSxt dst n s
  | .trunc dst n => Sys2Proof.Machine.execTrunc dst n s
  | .sub dst s1 s2 => Sys2Proof.Machine.execSub dst s1 s2 s
  | .add dst s1 s2 => Sys2Proof.Machine.execAdd dst s1 s2 s
  | .exth dst s1 s2 => Sys2Proof.Machine.execExth dst s1 s2 s
  | .extb dst s1 s2 => Sys2Proof.Machine.execExtb dst s1 s2 s
  | .stuffh dst s1 s2 => Sys2Proof.Machine.execStuffh dst s1 s2 s
  | .stuffb dst s1 s2 => Sys2Proof.Machine.execStuffb dst s1 s2 s
  | .addsru dst s1 n => Sys2Proof.Machine.execAddsru dst s1 n s
  | .addsr dst s1 n => Sys2Proof.Machine.execAddsr dst s1 n s
  | .movesl dst s1 n => Sys2Proof.Machine.execMovesl dst s1 n s
  | .addsl dst s1 n => Sys2Proof.Machine.execAddsl dst s1 n s
  | .oris dst const8 => Sys2Proof.Machine.execOris dst const8 s
  | .lis dst const8 => Sys2Proof.Machine.execLis dst const8 s
  | .lil dst const24 => Sys2Proof.Machine.execLil dst const24 s
  | .illegalF0 dst s2 => Sys2Proof.Machine.execIllegalF0 dst s2 s
  | .illegalF1 dst s2 => Sys2Proof.Machine.execIllegalF1 dst s2 s
  | .store src x disp16 => Sys2Proof.Machine.execStore src x disp16 s
  | .jsr dst x disp16 => Sys2Proof.Machine.execJsr dst x disp16 s
  | .loadcc dst x disp16 => Sys2Proof.Machine.execLoadcc dst x disp16 s
  | .load dst x disp16 => Sys2Proof.Machine.execLoad dst x disp16 s
  | .leacc dst x disp16 => Sys2Proof.Machine.execLeacc dst x disp16 s
  | .lea dst x disp16 => Sys2Proof.Machine.execLea dst x disp16 s
  | .storec src x => Sys2Proof.Machine.execStorec src x s
  | .loadl dst x => Sys2Proof.Machine.execLoadl dst x s
  | .stores src x => Sys2Proof.Machine.execStores src x s
  | .jsrs dst x => Sys2Proof.Machine.execJsrs dst x s
  | .loadscc dst x => Sys2Proof.Machine.execLoadscc dst x s
  | .loads dst x => Sys2Proof.Machine.execLoads dst x s
  | .movecc dst x => Sys2Proof.Machine.execMovecc dst x s
  | .move dst x => Sys2Proof.Machine.execMove dst x s

end Sys2Proof.Machine
end

