-- ==== Sys2Proof/Machine/Fetch.lean ====
section
/-!
DEFINITION. Instruction fetch through the one-word prefetch buffer (rules R54 to R57), and the fetch of a whole instruction (rules R70, R80).
-/

namespace Sys2Proof.Machine

/-- The halfword of a word that bit 1 of the address selects (rule R54). -/
def pickHalf (w a : Word) : Half := if a.getLsbD 1 then w.extractLsb' 16 16 else w.extractLsb' 0 16

/-- The sequential advance after a halfword: it does not invalidate the buffer (rules R13, R55). -/
def advancePc (s : State) : State := { s with pc := s.pc + 2 }

/-- `FetchHalf(pc)`: the halfword and the state after, or none for `BusFault(pc)` (rules R55, R56). -/
def fetchHalf (s : State) : Option (Half × State) :=
  if s.prefetch.valid && s.prefetch.addr == wordAddr s.pc then
    some (pickHalf s.prefetch.word s.pc, advancePc s)
  else match busRead s s.pc with
    | none => none
    | some (w, t) => some (pickHalf w s.pc, advancePc { t with prefetch := ⟨true, wordAddr s.pc, w⟩ })

/-- A fetched instruction with the state after its halfwords, or a fetch fault: the state so far and the address of
the halfword that faulted (rules R235, R245). -/
inductive Fetched where
  | instr (i : Instr) (s : State)
  | fault (s : State) (addr : Word)

/-- The fetch of one instruction (rules R70, R80): the second halfword only where the first asks for it. -/
def fetchInstr (s : State) : Fetched :=
  match fetchHalf s with
  | none => .fault s s.pc
  | some (h, s1) =>
    if needsSecondHalf h then
      match fetchHalf s1 with
      | none => .fault s1 s1.pc
      | some (h2, s2) => .instr (decodeHalves h h2) s2
    else .instr (decodeHalves h 0) s1

end Sys2Proof.Machine
end

