-- ==== Sys2Proof/Machine/Step.lean ====
section
/-!
DEFINITION. One step of the machine (rule R250), and the state in which the next step runs a given instruction.
-/

namespace Sys2Proof.Machine

/-- Step 4 of rule R250: fetch, decode and execute one instruction; a fetch fault is taken with `TPC = pc_inst` (rules R235, R241). -/
def runInstruction (s : State) : Result :=
  match fetchInstr s with
  | .instr i t => exec i t
  | .fault t a => .next (takeException t (.busFault a) s.pc)

/-- Steps 3 and 4 of rule R250: an interrupt entry where a line is pending and admitted, else one instruction. -/
def engineTurn (s : State) : Result :=
  match pendingLine s with
  | some i => .next (interruptEntry s i)
  | none => runInstruction s

/-- One step (rule R250): debug yield, environment, interrupt check, then fetch, decode and execute. -/
def step (s : State) : Host.Outcome State Fault Refusal :=
  if configOk s.cfg then
    match monitorTurn s with
    | none => .fault .terminated
    | some t =>
      match engineTurn (environmentTurn t) with
      | .next u => .next (endStep u)
      | .fault r => .fault r
      | .refused r => .refused r
  else .refused .badConfiguration

/-- `s` with an instruction stored where `step` fetches next: its bytes at `pc`, no stale prefetched word, and nothing that would come before
it at the boundary (no request line, no environment action, no yield). It stands for a load from outside (assumption 6). -/
def State.withFetchWord (s : State) (nbits w : Nat) : State :=
  { s with
    mem := memWriteBytes s.mem s.pc.toNat (tableWordBytes nbits w)
    prefetch := { s.prefetch with valid := false }
    irq := 0
    env := []
    dbg := { s.dbg with armed := false } }

end Sys2Proof.Machine
end

