-- ==== Sys2Proof/Safety.lean ====
section
/-!
DEFINITION. The terms in which claims about the machine are stated: what an instruction leaves unchanged, what a result and its
flags are (written from the rules, not from the operations that compute them), the data access an instruction makes, and the invariant of the state.
-/

namespace Sys2Proof.Machine

/-! ## Registers -/

/-- Register `d` holds `v` and every other register what it held; a write of register 0 changes nothing (rules R10, R11). -/
def RegWritten (s t : State) (d : RegNo) (v : Word) : Prop :=
  ∀ r : RegNo, readReg t r = if r = 0 then 0 else if r = d then v else readReg s r

/-- Every register holds what it held. -/
def RegsKept (s t : State) : Prop := ∀ r : RegNo, readReg t r = readReg s r

/-! ## Frames -/

/-- The system state that no computation touches: levels, trap-save registers, COSTAT, request lines, inputs, parameters, and the debugger's
state but for `BUDGET`. -/
structure SystemKept (s t : State) : Prop where
  level : t.level = s.level
  olevel : t.olevel = s.olevel
  tpc : t.tpc = s.tpc
  tma : t.tma = s.tma
  tsv : t.tsv = s.tsv
  costat : t.costat = s.costat
  irq : t.irq = s.irq
  env : t.env = s.env
  cfg : t.cfg = s.cfg
  breakpoint : t.dbg.breakpoint = s.dbg.breakpoint
  armed : t.dbg.armed = s.dbg.armed
  paused : t.dbg.paused = s.dbg.paused
  snapshot : t.dbg.snapshot = s.dbg.snapshot
  script : t.dbg.script = s.dbg.script

/-- Every byte of memory reads as before. -/
def MemoryKept (s t : State) : Prop := ∀ a : Nat, byteAt t a = byteAt s a

/-- No bus access took place: memory, token, device history, `CYC` and `BUDGET` are as before. -/
structure BusIdle (s t : State) : Prop where
  memory : MemoryKept s t
  token : t.token = s.token
  devLog : t.devLog = s.devLog
  cyc : t.cyc = s.cyc
  budget : t.dbg.budget = s.dbg.budget

/-- One successful bus access was counted (rule R49). -/
structure OneAccess (s t : State) : Prop where
  cyc : t.cyc = s.cyc + 1
  budget : t.dbg.budget = s.dbg.budget - 1

/-- Execution goes on at `pc_next` and the prefetch buffer is as before. -/
structure Sequential (s t : State) : Prop where
  pc : t.pc = s.pc
  prefetch : t.prefetch = s.prefetch

/-- Control went to `target`: bit 0 cleared, prefetch buffer invalid (rule R14). -/
structure WentTo (t : State) (target : Word) : Prop where
  pc : t.pc = target &&& 0xFFFFFFFE
  prefetch : t.prefetch.valid = false

/-- The outcome is a next state in which `d` holds `v`, the flags satisfy `P`, and nothing else has changed. -/
def Computes (s : State) (o : Result) (d : RegNo) (v : Word) (P : Flags → Prop) : Prop :=
  ∃ t, o = .next t ∧ RegWritten s t d v ∧ P t.flags ∧ t.fpu = s.fpu ∧ SystemKept s t ∧ BusIdle s t ∧ Sequential s t

/-- The outcome is a next state in which no register, flag or memory byte has changed and control went to `target`. -/
def Jumps (s : State) (o : Result) (target : Word) : Prop :=
  ∃ t, o = .next t ∧ RegsKept s t ∧ t.flags = s.flags ∧ t.fpu = s.fpu ∧ SystemKept s t ∧ BusIdle s t ∧ WentTo t target

/-- The outcome is the entry of a synchronous exception: `TPC`, `OLEVEL`, `LEVEL`, `pc` (and `TMA` for a BusFault) as trap entry leaves them, and
everything else as before (rules R240 to R243). -/
def TakesException (s : State) (o : Result) (vector pcInst : Word) (tma : Word) : Prop :=
  ∃ t, o = .next t ∧ t.tpc = pcInst ∧ t.tma = tma ∧ t.olevel = s.level ∧ t.level = 0 ∧ WentTo t vector ∧
    RegsKept s t ∧ t.flags = s.flags ∧ t.fpu = s.fpu ∧ BusIdle s t ∧ t.tsv = s.tsv ∧ t.costat = s.costat ∧
    t.irq = s.irq ∧ t.env = s.env ∧ t.cfg = s.cfg ∧ t.dbg = s.dbg

/-! ## Flags, from the rules -/

/-- `cin` as a number. -/
def carryNat (c : Bool) : Nat := if c then 1 else 0

/-- The flags of the addition `a + b + cin`: sign and zero of the result, signed overflow, carry out of bit 31, and the carry out of each
4-bit digit (rules R100, R101). -/
def IsAddFlags (a b : Word) (cin : Bool) (f : Flags) : Prop :=
  f.n = (a + b + BitVec.ofNat 32 (carryNat cin)).msb ∧
  f.z = decide (a + b + BitVec.ofNat 32 (carryNat cin) = 0) ∧
  f.v = decide (¬ (-2 ^ 31 ≤ a.toInt + b.toInt + carryNat cin ∧ a.toInt + b.toInt + carryNat cin < 2 ^ 31)) ∧
  f.c = decide (2 ^ 32 ≤ a.toNat + b.toNat + carryNat cin) ∧
  ∀ k < 8, f.cb.getLsbD k =
    decide (16 ^ (k + 1) ≤ a.toNat % 16 ^ (k + 1) + b.toNat % 16 ^ (k + 1) + carryNat cin)

/-- The flags of the subtraction `a - b - bin`: sign and zero of the result, signed overflow, `C` set when there is no borrow, and each bit of `CB`
set when its digit did not borrow (rules R101, R102). -/
def IsSubFlags (a b : Word) (bin : Bool) (f : Flags) : Prop :=
  f.n = (a - b - BitVec.ofNat 32 (carryNat bin)).msb ∧
  f.z = decide (a - b - BitVec.ofNat 32 (carryNat bin) = 0) ∧
  f.v = decide (¬ (-2 ^ 31 ≤ a.toInt - b.toInt - carryNat bin ∧ a.toInt - b.toInt - carryNat bin < 2 ^ 31)) ∧
  f.c = decide (b.toNat + carryNat bin ≤ a.toNat) ∧
  ∀ k < 8, f.cb.getLsbD k = decide (b.toNat % 16 ^ (k + 1) + carryNat bin ≤ a.toNat % 16 ^ (k + 1))

/-- The flags of a non-adder operation with result `r` (rule R104). -/
def IsNzFlags (r : Word) (f : Flags) : Prop :=
  f.n = r.msb ∧ f.z = decide (r = 0) ∧ f.v = false ∧ f.c = false ∧ f.cb = 0

/-- Shifting `v` left by `n` leaves the range of a signed word (rule R108). -/
def ShiftOverflows (v : Word) (n : Nat) : Prop := ¬ (-2 ^ 31 ≤ v.toInt * 2 ^ n ∧ v.toInt * 2 ^ n < 2 ^ 31)

/-! ## Data accesses (rules R44 to R50, R120 to R138) -/

/-- The effective address of an instruction's data read, if it makes one. -/
def readAddress : Instr → State → Option Word
  | .load _ x d, s => some (eaLong s x d)
  | .loadcc _ x d, s => some (eaLong s x d)
  | .loads _ x, s => some (eaShort s x)
  | .loadscc _ x, s => some (eaShort s x)
  | .loadl _ x, s => some (eaShort s x)
  | _, _ => none

/-- The effective address of an instruction's data write, if it makes one; STOREC only where the token watches the word. -/
def storeAddress : Instr → State → Option Word
  | .store _ x d, s => some (eaLong s x d)
  | .stores _ x, s => some (eaShort s x)
  | .storec _ x, s =>
    if s.token.valid = true ∧ s.token.addr = wordAddr (eaShort s x) then some (eaShort s x) else none
  | _, _ => none

/-- The bus answers a read at this effective address (rules R40, R45). -/
def readable (c : Config) (ea : Word) : Prop := region c (wordAddr ea).toNat ≠ .unmapped

/-- The bus accepts a write at this effective address (rules R40, R46). -/
def writable (c : Config) (ea : Word) : Prop :=
  region c (wordAddr ea).toNat ≠ .unmapped ∧ region c (wordAddr ea).toNat ≠ .rom

/-- Address `a` is one of the four bytes of the word that an access at `ea` moves (rule R44). -/
def inWordOf (ea : Word) (a : Nat) : Prop := (wordAddr ea).toNat ≤ a ∧ a < (wordAddr ea).toNat + 4

/-- The memory word at the word address `a`, byte by byte (rule R41). -/
def wordAt (s : State) (a : Nat) : Word := byteAt s (a + 3) ++ byteAt s (a + 2) ++ byteAt s (a + 1) ++ byteAt s a

/-- A successful read at `ea` gives `v` and leaves the device history `log` (rule R45). -/
def ReadGives (s : State) (ea v : Word) (log : List DevEvent) : Prop :=
  match region s.cfg (wordAddr ea).toNat with
  | .rom => v = wordAt s (wordAddr ea).toNat ∧ log = s.devLog
  | .ram => v = wordAt s (wordAddr ea).toNat ∧ log = s.devLog
  | .unmapped => False
  | .device dev off => v = Config.deviceAnswer s.devLog dev off ∧ log = .read dev off :: s.devLog
  | .openBus => v = s.cfg.openBusValue ∧ log = s.devLog

/-- The outcome is a next state in which one access at `ea` was read, `d` holds the word read, the flags satisfy `P` of it, the token is
`tok`, and nothing else has changed. -/
def Loads (s : State) (o : Result) (ea : Word) (d : RegNo) (P : Word → Flags → Prop) (tok : Token) : Prop :=
  ∃ t v, o = .next t ∧ ReadGives s ea v t.devLog ∧ RegWritten s t d v ∧ P v t.flags ∧ t.token = tok ∧ MemoryKept s t ∧
    OneAccess s t ∧ t.fpu = s.fpu ∧ SystemKept s t ∧ Sequential s t

/-- What a successful write of `v` at `ea` leaves in memory and with the devices (rule R46): in RAM the four bytes of the word, little-endian,
and no other byte. -/
def WriteLeaves (s t : State) (ea v : Word) : Prop :=
  match region s.cfg (wordAddr ea).toNat with
  | .rom => False
  | .ram => wordAt t (wordAddr ea).toNat = v ∧ (∀ a, ¬ inWordOf ea a → byteAt t a = byteAt s a) ∧ t.devLog = s.devLog
  | .unmapped => False
  | .device dev off => MemoryKept s t ∧ t.devLog = .write dev off v :: s.devLog
  | .openBus => MemoryKept s t ∧ t.devLog = s.devLog

/-- The outcome is a next state in which `v` was written at `ea`, the flags are `f`, the token is `tok`, and nothing else has changed. -/
def Stores (s : State) (o : Result) (ea v : Word) (f : Flags) (tok : Token) : Prop :=
  ∃ t, o = .next t ∧ WriteLeaves s t ea v ∧ RegsKept s t ∧ t.flags = f ∧ t.token = tok ∧
    OneAccess s t ∧ t.fpu = s.fpu ∧ SystemKept s t ∧ Sequential s t

/-- The token after an ordinary store at `ea`: invalid where it watched that word (rule R50). -/
def tokenAfterStore (s : State) (ea : Word) : Token :=
  { s.token with valid := s.token.valid && !decide (s.token.addr = wordAddr ea) }

/-- The `n` bytes of memory from address `a` on. -/
def bytesAt (s : State) (a n : Nat) : List Byte := (List.range n).map fun k => byteAt s (a + k)

/-- The prefetch buffer holds the word of the pc (rule R55). -/
def Buffered (s : State) : Prop := s.prefetch.valid = true ∧ s.prefetch.addr = wordAddr s.pc

/-- The state in which `exec` meets the instruction `i` fetched at an even `pc` from memory: `pc` moved past it, the last word of it in the
prefetch buffer, and one bus access for each word that holds a part of it, but for the first one where the buffer held that
already (rules R13, R49, R55). -/
def fetchedState (s : State) (i : Instr) : State :=
  let last := wordAddr (s.pc + i.byteLength - 2)
  let hit : Bool := s.prefetch.valid && decide (s.prefetch.addr = wordAddr s.pc)
  let n : Nat := (if hit then 0 else 1) + (if last = wordAddr s.pc then 0 else 1)
  { s with
    pc := s.pc + i.byteLength
    prefetch := ⟨true, last, wordAt s last.toNat⟩
    cyc := s.cyc + BitVec.ofNat 32 n
    dbg := { s.dbg with budget := s.dbg.budget - n } }

/-- What the end of a step makes of the state `u` that its instruction left: a step has been executed since the last resume, and a pc of zero flushes
the budget (rules R268, R270). -/
def StepEnds (u t : State) : Prop :=
  t = { u with dbg := { u.dbg with armed := true, budget := if u.pc = 0 then 0 else u.dbg.budget } }

/-! ## Decimal digits (rules R190, R191) -/

/-- Digit `k` of a word: bits `4k+3 : 4k`. -/
def digit (w : Word) (k : Nat) : Nat := w.toNat / 16 ^ k % 16

/-- Every digit of `w`, less the bias `b`, is a decimal digit. -/
def IsDecimal (b : Nat) (w : Word) : Prop := ∀ k < 8, b ≤ digit w k ∧ digit w k < b + 10

/-- The number that the eight digits of `w`, each less the bias `b`, spell in base ten. -/
def decimalValue (b : Nat) (w : Word) : Nat :=
  (digit w 0 - b) + (digit w 1 - b) * 10 + (digit w 2 - b) * 10 ^ 2 + (digit w 3 - b) * 10 ^ 3 +
  (digit w 4 - b) * 10 ^ 4 + (digit w 5 - b) * 10 ^ 5 + (digit w 6 - b) * 10 ^ 6 + (digit w 7 - b) * 10 ^ 7

/-! ## Branches, special registers and the unit -/

/-- A branch: where `taken` control goes to `pc_next` plus twice the signed displacement, else nothing changes (rule R145). -/
def Branches (s : State) (o : Result) (disp8 : BitVec 8) (taken : Bool) : Prop :=
  (taken = true → Jumps s o (s.pc + BitVec.ofInt 32 (2 * disp8.toInt))) ∧ (taken = false → o = .next s)

/-- The PSW as a number (rules R15, R19). -/
def pswNumber (s : State) : Nat :=
  s.level.toNat * 2 ^ 28 + s.olevel.toNat * 2 ^ 24 + s.flags.cb.toNat * 2 ^ 8 +
    s.flags.n.toNat * 8 + s.flags.z.toNat * 4 + s.flags.v.toNat * 2 + s.flags.c.toNat

/-- Special register `k` exists and holds `v` (table of `10_state.md` section 5). -/
def SpecialIs (s : State) (k : BitVec 4) (v : Word) : Prop :=
  (k = 0 ∧ v.toNat = pswNumber s) ∨ (k = 1 ∧ v = s.tpc) ∨ (k = 2 ∧ v = s.tma) ∨ (k = 3 ∧ v = s.tsv) ∨ (k = 8 ∧ v = s.cyc)

/-- COGET and COSET of registers 1 to 15 reach the floating-point unit (rule R211). -/
def UnitAnswers (s : State) : Prop := s.costat.cosel = 1 ∧ s.costat.coen.getLsbD 1 = true ∧ s.cfg.hasFpu = true

/-- The outcome is a next state in which the unit holds `f` and nothing else has changed. -/
def UnitBecomes (s : State) (o : Result) (f : Fpu) : Prop :=
  ∃ t, o = .next t ∧ t.fpu = f ∧ RegsKept s t ∧ t.flags = s.flags ∧ SystemKept s t ∧ BusIdle s t ∧ Sequential s t

/-- The outcome is a next state in which `d` holds `v`, the flags are those of a coprocessor read with the three condition bits given (rule R206),
the unit holds `f`, and nothing else has changed. -/
def UnitReads (s : State) (o : Result) (d : RegNo) (v : Word) (neg zero nonfinite : Bool) (f : Fpu) : Prop :=
  ∃ t, o = .next t ∧ RegWritten s t d v ∧ t.flags = ⟨neg, zero, nonfinite, false, 0⟩ ∧ t.fpu = f ∧ SystemKept s t ∧ BusIdle s t ∧ Sequential s t

/-- A binary64 pattern is a NaN: exponent field all ones, fraction not zero (rule R226). -/
def IsNan64 (d : DWord) : Prop := d.extractLsb' 52 11 = 0x7FF ∧ d.extractLsb' 0 52 ≠ 0

/-- A binary32 pattern is a NaN. -/
def IsNan32 (w : Word) : Prop := w.extractLsb' 23 8 = 0xFF ∧ w.extractLsb' 0 23 ≠ 0

/-- A binary64 pattern is finite. -/
def IsFinite64 (d : DWord) : Prop := d.extractLsb' 52 11 ≠ 0x7FF

/-! ## Floating-point values (rule R226: IEEE 754) -/

/-- The infinity of binary64 with sign `z`. -/
def inf64 (z : Bool) : DWord := BitVec.ofBool z ++ 0x7FF#11 ++ 0#52

/-- The zero of binary64 with sign `z`. -/
def zero64 (z : Bool) : DWord := BitVec.ofBool z ++ 0#63

/-- The infinity of binary32 with sign `z`. -/
def inf32 (z : Bool) : Word := BitVec.ofBool z ++ 0xFF#8 ++ 0#23

/-- The zero of binary32 with sign `z`. -/
def zero32 (z : Bool) : Word := BitVec.ofBool z ++ 0#31

/-- A binary64 pattern is finite and not a zero. -/
def IsNonzero64 (d : DWord) : Prop := IsFinite64 d ∧ d.extractLsb' 0 63 ≠ 0

/-- A binary32 pattern is finite. -/
def IsFinite32 (w : Word) : Prop := w.extractLsb' 23 8 ≠ 0xFF

/-- The number that a finite binary64 pattern stands for, from its sign, exponent field and fraction field. -/
def value64 (d : DWord) : ℚ :=
  (if d.msb then -1 else 1) *
    (if d.toNat / 2 ^ 52 % 2 ^ 11 = 0 then ((d.toNat % 2 ^ 52 : Nat) : ℚ) * 2 ^ (-1074 : Int)
     else ((2 ^ 52 + d.toNat % 2 ^ 52 : Nat) : ℚ) * 2 ^ (((d.toNat / 2 ^ 52 % 2 ^ 11 : Nat) : Int) - 1075))

/-- The number that a finite binary32 pattern stands for, from its sign, exponent field and fraction field. -/
def value32 (w : Word) : ℚ :=
  (if w.msb then -1 else 1) *
    (if w.toNat / 2 ^ 23 % 2 ^ 8 = 0 then ((w.toNat % 2 ^ 23 : Nat) : ℚ) * 2 ^ (-149 : Int)
     else ((2 ^ 23 + w.toNat % 2 ^ 23 : Nat) : ℚ) * 2 ^ (((w.toNat / 2 ^ 23 % 2 ^ 8 : Nat) : Int) - 150))

/-- `r` is the number `x` rounded to nearest in binary64, ties to the even pattern: the sign of `x`; the infinity from half a unit above the largest
finite number on; else a finite number than which none is nearer to `x`, and an even pattern where another number is as near. -/
def Rounds64 (x : ℝ) (r : DWord) : Prop :=
  (x < 0 → r.msb = true) ∧ (0 < x → r.msb = false) ∧
  (2 ^ 1024 - 2 ^ 970 ≤ |x| → r.extractLsb' 0 63 = 0x7FF0000000000000) ∧
  (|x| < 2 ^ 1024 - 2 ^ 970 → IsFinite64 r ∧ ∀ y, IsFinite64 y →
    |x - (value64 r : ℝ)| ≤ |x - (value64 y : ℝ)| ∧
    (|x - (value64 r : ℝ)| = |x - (value64 y : ℝ)| → value64 y = value64 r ∨ r.getLsbD 0 = false))

/-- `r` is the number `x` rounded to nearest in binary32, ties to the even pattern. -/
def Rounds32 (x : ℝ) (r : Word) : Prop :=
  (x < 0 → r.msb = true) ∧ (0 < x → r.msb = false) ∧
  (2 ^ 128 - 2 ^ 103 ≤ |x| → r.extractLsb' 0 31 = 0x7F800000) ∧
  (|x| < 2 ^ 128 - 2 ^ 103 → IsFinite32 r ∧ ∀ y, IsFinite32 y →
    |x - (value32 r : ℝ)| ≤ |x - (value32 y : ℝ)| ∧
    (|x - (value32 r : ℝ)| = |x - (value32 y : ℝ)| → value32 y = value32 r ∨ r.getLsbD 0 = false))

/-! ## Writes of other agents to the watched word (rules R50, R136) -/

/-- The environment's action writes a byte of the watched word, or the word, in memory. -/
def EnvAction.Hits (s : State) : EnvAction → Prop
  | .writeByte a _ => a.toNat < s.cfg.memSize ∧ wordAddr a = s.token.addr
  | .writeWord a _ => (wordAddr a).toNat < s.cfg.memSize ∧ wordAddr a = s.token.addr
  | .setIrq _ => False
  | .stimulus _ _ => False
  | .pause => False

/-- The Monitor's action writes a byte of the watched word, or the word, in memory. -/
def MonitorAction.Hits (s : State) : MonitorAction → Prop
  | .writeByte a _ => a.toNat < s.cfg.memSize ∧ wordAddr a = s.token.addr
  | .writeWord a _ => (wordAddr a).toNat < s.cfg.memSize ∧ wordAddr a = s.token.addr
  | _ => False

/-! ## Privilege (rule R262) -/

/-- The privileged instructions of rule R262 (those of CPUGET and CPUSET that name an existing register). -/
def privilegedForm : Instr → Prop
  | .cpuset _ k => k = 0 ∨ k = 1 ∨ k = 2 ∨ k = 3 ∨ k = 8
  | .cpuget d k => k = 0 ∨ k = 1 ∨ k = 2 ∨ k = 3 ∨ (k = 8 ∧ d = 0)
  | .coset _ k => k = 0
  | _ => False

/-! ## Quiet boundaries -/

/-- The conditions under which the engine hands over to the Monitor (rule R268). -/
def YieldConditions (s : State) : Prop :=
  s.cfg.monitor = true ∧ s.dbg.armed = true ∧
    (s.dbg.budget ≤ 0 ∨ s.pc = s.dbg.breakpoint ∨ s.pc = 0 ∨ s.dbg.paused = true)

/-- Nothing comes before the instruction at the next boundary: good parameters, no yield, no environment action, no admitted request (rule R250). -/
structure Quiet (s : State) : Prop where
  config : configOk s.cfg = true
  noYield : ¬ YieldConditions s
  env : s.env = []
  lines : ∀ i, 1 ≤ i → i ≤ 7 → s.irq.getLsbD (i - 1) = true → s.level.toNat < i

/-! ## The Monitor's actions (rules R213, R272, R273) -/

/-- What each action of the Monitor does in the state `s`: the write of the rule, and nothing else. A write outside memory does nothing, and no memory
write is a counted access (assumptions 14 and 20); a call of the unit while it is disabled changes nothing, and while the engine reaches the unit it does what
COSET and COGET do to it (assumption 15). -/
structure MonitorActions (s : State) : Prop where
  setReg : ∀ r v, ∃ t, monitorAct s (.setReg r v) = some t ∧ t = { s with x := t.x } ∧ RegWritten s t r v
  setPc : ∀ v, ∃ t, monitorAct s (.setPc v) = some t ∧
    t = { s with pc := v &&& 0xFFFFFFFE, prefetch := { s.prefetch with valid := false } }
  setPsw : ∀ w, ∃ t, monitorAct s (.setPsw w) = some t ∧ t = { s with level := t.level, olevel := t.olevel, flags := t.flags } ∧
    pswNumber t = (w &&& 0xFF00FF0F).toNat
  setTpc : ∀ w, monitorAct s (.setTpc w) = some { s with tpc := w }
  setTma : ∀ w, monitorAct s (.setTma w) = some { s with tma := w }
  setTsv : ∀ w, monitorAct s (.setTsv w) = some { s with tsv := w }
  setCyc : ∀ w, monitorAct s (.setCyc w) = some { s with cyc := w }
  setCostat : ∀ w, ∃ t, monitorAct s (.setCostat w) = some t ∧ t = { s with costat := t.costat } ∧
    costatValue t.costat = w &&& 0x0000FF71
  setAcc : ∀ d, monitorAct s (.setAcc false d) = some { s with fpu := { s.fpu with a0 := d } } ∧
    monitorAct s (.setAcc true d) = some { s with fpu := { s.fpu with a1 := d } }
  setFplow : ∀ w, monitorAct s (.setFplow w) = some { s with fpu := { s.fpu with fplow := w } }
  writeWord : s.mem.wf = true → ∀ a v, (wordAddr a).toNat < s.cfg.memSize → ∃ t, monitorAct s (.writeWord a v) = some t ∧
    t = { s with mem := t.mem, token := tokenAfterStore s a, prefetch := { s.prefetch with valid := false } } ∧
    wordAt t (wordAddr a).toNat = v ∧ ∀ c, ¬ inWordOf a c → byteAt t c = byteAt s c
  writeByte : s.mem.wf = true → ∀ a b, a.toNat < s.cfg.memSize → ∃ t, monitorAct s (.writeByte a b) = some t ∧
    t = { s with mem := t.mem, token := tokenAfterStore s a, prefetch := { s.prefetch with valid := false } } ∧
    ∀ c, byteAt t c = if c = a.toNat then b else byteAt s c
  writeOutside : ∀ a v b, (s.cfg.memSize ≤ (wordAddr a).toNat → monitorAct s (.writeWord a v) = some s) ∧
    (s.cfg.memSize ≤ a.toNat → monitorAct s (.writeByte a b) = some s)
  unitDisabled : ∀ k w, s.costat.coen.getLsbD 1 = false →
    monitorAct s (.unitWrite k w) = some s ∧ monitorAct s (.unitRead k) = some s
  unitEnabled : UnitAnswers s → ∀ (r : RegNo) (k : BitVec 4) (t : State), k ≠ 0 →
    (exec (.coset r k) s = .next t → monitorAct s (.unitWrite k (readReg s r)) = some t) ∧
    (exec (.coget r k) s = .next t → monitorAct s (.unitRead k) = some { s with fpu := t.fpu })
  setBreakpoint : ∀ a, monitorAct s (.setBreakpoint a) = some { s with dbg := { s.dbg with breakpoint := a } }
  setBudget : ∀ n, monitorAct s (.setBudget n) = some { s with dbg := { s.dbg with budget := n } }
  setPause : ∀ p, monitorAct s (.setPause p) = some { s with dbg := { s.dbg with paused := p } }
  terminate : monitorAct s .terminate = none

/-! ## The invariant -/

/-- What every reachable state satisfies: memory is canonical and inside `MEM_SIZE`, the pc is even (rule R13), the token and the prefetch
buffer hold word addresses (rules R27, R28). -/
structure Inv (s : State) : Prop where
  memCanonical : s.mem.wf = true
  memInside : memBelow s.cfg.memSize s.mem = true
  pcEven : s.pc.getLsbD 0 = false
  tokenWord : wordAddr s.token.addr = s.token.addr
  prefetchWord : wordAddr s.prefetch.addr = s.prefetch.addr

end Sys2Proof.Machine
end

