-- ==== Sys2Proof/Certificates/Slice0/Obligations.lean ====
section
/-!
DEFINITION. The statements for the provers. `exec i s` runs from the state after the fetch, so `s.pc` is `pc_next` there, and `pc_inst` is `s.pc - 2` or
`s.pc - 4` (assumption 12). The predicates (`Computes`, `Loads`, `Jumps`, ...) are those of `Sys2Proof/Safety.lean`: each says that the outcome is
a next state, what it holds, and that everything else is as before.
-/

open Sys2Proof Sys2Proof.Machine

/-! ## Reset, encoding, one step -/

/-- What reset leaves, where the spec gives a value (rules R36, R280; `LL_ADDR`, `PF_ADDR`, `PF_WORD`, `BREAKPOINT` and `BUDGET` have none, assumption 4;
memory is the default `INIT_MEM`, assumption 5). The zero of `pc` and of the system registers is the spec's own decision D32. -/
def Obligations.ResetHoldsTheStatedValues : Prop :=
  (∀ r : RegNo, readReg State.reset r = 0) ∧ pswNumber State.reset = 0 ∧ State.reset.irq = 0 ∧ State.reset.pc = 0 ∧
  State.reset.tpc = 0 ∧ State.reset.tma = 0 ∧ State.reset.tsv = 0 ∧ State.reset.cyc = 0 ∧
  costatValue State.reset.costat = 0 ∧ State.reset.token.valid = false ∧ State.reset.prefetch.valid = false ∧
  State.reset.fpu.a0 = 0 ∧ State.reset.fpu.a1 = 0 ∧ State.reset.fpu.fplow = 0 ∧ ∀ a : Nat, byteAt State.reset a = 0

/-- The invariant holds at reset, and the default parameters meet the constraints of rule R5. -/
def Obligations.ResetMeetsTheInvariant : Prop := Inv State.reset ∧ configOk State.reset.cfg = true

/-- Words written out from the spec's encoding tables and examples, one or more of every format of rule R73, decode to the instructions
they stand for. -/
def Obligations.WordsOfEveryFormatDecode : Prop :=
  decodeTableWord 16 0xFE00 = some (.br 0xFE) ∧ decodeTableWord 16 0x1013 = some (.cpuget 3 0) ∧
  decodeTableWord 16 0x2013 = some (.coset 3 0) ∧ decodeTableWord 16 0xB413 = some (.and 3 4) ∧
  decodeTableWord 16 0xC013 = some (.addsi 3 8) ∧ decodeTableWord 16 0xCF13 = some (.addsi 3 (-1)) ∧
  decodeTableWord 16 0xD213 = some (.btrunc 3 2) ∧ decodeTableWord 16 0x4533 = some (.add 3 4 5) ∧
  decodeTableWord 16 0x40A3 = some (.movesl 3 4 16) ∧ decodeTableWord 16 0x78C3 = some (.oris 3 0x78) ∧
  decodeTableWord 32 0x012345E3 = some (.lil 3 0x012345) ∧ decodeTableWord 32 0xFFFC74F3 = some (.lea 3 4 0xFFFC) ∧
  decodeTableWord 16 0x85F3 = some (.storec 3 5) ∧ decodeTableWord 16 0x8010 = some (.illegal18 0 0)

/-- Step 4 of rule R250 at a boundary where nothing else happens. First, with an even pc in memory: where the bytes from the pc to any point inside memory decode to
an instruction, and the prefetch buffer, if it holds the word of the pc, holds what memory holds, the step is `exec` of that
instruction from the state its fetch leaves (rules R13, R55, R80), then what the end of a step does (rules R268, R270). Second, wherever the
halfwords come from, memory, a stale buffer or a device: the step is `exec` of what `FetchHalf` (the statement FetchHalfUsesTheBuffer says what it
gives) delivers. The state in which `exec` starts is the model's convention (assumption 12), and that the budget is flushed at pc = 0 where no Monitor
is attached is the model's reading (assumption 11). -/
def Obligations.StepRunsTheFetchedInstruction : Prop :=
  (∀ (s : State) (i : Instr) (n : Nat) (rest : List Byte), Quiet s → s.pc.getLsbD 0 = false →
    (Buffered s → s.prefetch.word = wordAt s (wordAddr s.pc).toNat) → s.pc.toNat + n ≤ s.cfg.memSize →
    decodeBytes (bytesAt s s.pc.toNat n) = .ok (i, rest) →
    i.wf = true ∧ ∀ u, exec i (fetchedState s i) = .next u → ∃ t, step s = .next t ∧ StepEnds u t) ∧
  (∀ (s s1 : State) (h : Half), Quiet s → fetchHalf s = some (h, s1) →
    (needsSecondHalf h = false →
      (decodeHalves h 0).wf = true ∧ ∀ u, exec (decodeHalves h 0) s1 = .next u → ∃ t, step s = .next t ∧ StepEnds u t) ∧
    (needsSecondHalf h = true → ∀ (h2 : Half) (s2 : State), fetchHalf s1 = some (h2, s2) →
      (decodeHalves h h2).wf = true ∧ ∀ u, exec (decodeHalves h h2) s2 = .next u → ∃ t, step s = .next t ∧ StepEnds u t))

/-- Decode after encode: every well-formed instruction, with every operand at every value its encoding admits, is read back from its bytes, and the
bytes after it are left alone (rules R71 to R77). -/
def Obligations.DecodeInvertsEncode : Prop :=
  ∀ (i : Instr) (rest : List Byte), i.wf = true → decodeBytes (encodeBytes i ++ rest) = .ok (i, rest)

/-- Encode after decode: whatever bytes decode, the instruction is well formed and its encoding is those bytes: no two encodings share a meaning. -/
def Obligations.EncodeInvertsDecode : Prop :=
  ∀ (bytes rest : List Byte) (i : Instr), decodeBytes bytes = .ok (i, rest) → i.wf = true ∧ encodeBytes i ++ rest = bytes

/-- The unassigned first halfwords are exactly the three combinations of rule R78, and each is 16 bits long (rule R70). -/
def Obligations.UnassignedEncodingsAreExactlyThree : Prop :=
  ∀ h h2 : Half,
    ((∃ d x, decodeHalves h h2 = .illegal18 d x ∨ decodeHalves h h2 = .illegalF0 d x ∨ decodeHalves h h2 = .illegalF1 d x) ↔
      (h &&& 0xF0F0 = 0x8010 ∨ h &&& 0xF0F0 = 0x00F0 ∨ h &&& 0xF0F0 = 0x10F0)) ∧
    (h &&& 0xF0F0 = 0x8010 ∨ h &&& 0xF0F0 = 0x00F0 ∨ h &&& 0xF0F0 = 0x10F0 → needsSecondHalf h = false)

/-! ## Arithmetic -/

/-- ADD and SUB: the result modulo 2^32 and the flags of the addition and of the difference (rules R100 to R103, R172, R173; decision D42). -/
def Obligations.AddAndSubComputeWithFlags : Prop :=
  ∀ (s : State) (d a b : RegNo),
    Computes s (exec (.add d a b) s) d (readReg s a + readReg s b) (IsAddFlags (readReg s a) (readReg s b) false) ∧
    Computes s (exec (.sub d a b) s) d (readReg s a - readReg s b) (IsSubFlags (readReg s a) (readReg s b) false)

/-- ADDC adds the carry; SUBB takes away the borrow, which is the complement of the carry (rules R186, R187). -/
def Obligations.AddcAndSubbChainTheCarry : Prop :=
  ∀ (s : State) (d a : RegNo),
    Computes s (exec (.addc d a) s) d (readReg s d + readReg s a + BitVec.ofNat 32 (carryNat s.flags.c))
      (IsAddFlags (readReg s d) (readReg s a) s.flags.c) ∧
    Computes s (exec (.subb d a) s) d (readReg s d - readReg s a - BitVec.ofNat 32 (carryNat (!s.flags.c)))
      (IsSubFlags (readReg s d) (readReg s a) (!s.flags.c))

/-- ADDSI, LEACC and MOVECC are additions with their flags; an index field 0 is the pc (rules R120, R121, R124, R130, R180; decisions D16, D17). -/
def Obligations.ImmediateAddsComputeWithFlags : Prop :=
  ∀ (s : State) (d x : RegNo) (c : Int) (disp : BitVec 16),
    Computes s (exec (.addsi d c) s) d (readReg s d + BitVec.ofInt 32 c) (IsAddFlags (readReg s d) (BitVec.ofInt 32 c) false) ∧
    Computes s (exec (.leacc d x disp) s) d ((if x = 0 then s.pc else readReg s x) + BitVec.ofInt 32 disp.toInt)
      (IsAddFlags (if x = 0 then s.pc else readReg s x) (BitVec.ofInt 32 disp.toInt) false) ∧
    Computes s (exec (.movecc d x) s) d (if x = 0 then s.pc else readReg s x) (IsNzFlags (if x = 0 then s.pc else readReg s x))

/-- MOVESL and ADDSL: the shifted value, and `V` set when the shift (or the addition) left the signed range (rules R108, R167, R168; decision D19). -/
def Obligations.LeftShiftsReportOverflow : Prop :=
  ∀ (s : State) (d a : RegNo) (n : Nat), 1 ≤ n → n ≤ 16 →
    (let r := BitVec.ofNat 32 ((readReg s a).toNat * 2 ^ n)
     Computes s (exec (.movesl d a n) s) d r (fun f => f.n = r.msb ∧ f.z = decide (r = 0) ∧
       (f.v = true ↔ ShiftOverflows (readReg s a) n) ∧ f.c = false ∧ f.cb = 0)) ∧
    (let sh := BitVec.ofNat 32 ((readReg s d).toNat * 2 ^ n)
     Computes s (exec (.addsl d a n) s) d (sh + readReg s a) (fun f => ∃ g, IsAddFlags sh (readReg s a) false g ∧
       f.n = g.n ∧ f.z = g.z ∧ f.c = g.c ∧ f.cb = g.cb ∧ (f.v = true ↔ g.v = true ∨ ShiftOverflows (readReg s d) n)))

/-- ADDSR and ADDSRU: the exact sum, signed and unsigned, divided by 2^n and rounded down; no carry is lost (rules R169, R170; decision D20). -/
def Obligations.RightShiftsKeepTheCarry : Prop :=
  ∀ (s : State) (d a : RegNo) (n : Nat), 1 ≤ n → n ≤ 16 →
    (∃ v, Computes s (exec (.addsr d a n) s) d v (IsNzFlags v) ∧
      v.toInt * 2 ^ n ≤ (readReg s d).toInt + (readReg s a).toInt ∧
      (readReg s d).toInt + (readReg s a).toInt < (v.toInt + 1) * 2 ^ n) ∧
    (∃ v, Computes s (exec (.addsru d a n) s) d v (IsNzFlags v) ∧
      v.toNat * 2 ^ n ≤ (readReg s d).toNat + (readReg s a).toNat ∧
      (readReg s d).toNat + (readReg s a).toNat < (v.toNat + 1) * 2 ^ n)

/-- AND, OR and EQU, bit by bit, with the flags of a non-adder operation (rules R104, R184, R194, R195; decision D2). -/
def Obligations.LogicalOperationsWorkBitByBit : Prop :=
  ∀ (s : State) (d a : RegNo),
    (∃ v, Computes s (exec (.and d a) s) d v (IsNzFlags v) ∧
      ∀ i < 32, v.getLsbD i = ((readReg s d).getLsbD i && (readReg s a).getLsbD i)) ∧
    (∃ v, Computes s (exec (.or d a) s) d v (IsNzFlags v) ∧
      ∀ i < 32, v.getLsbD i = ((readReg s d).getLsbD i || (readReg s a).getLsbD i)) ∧
    (∃ v, Computes s (exec (.equ d a) s) d v (IsNzFlags v) ∧
      ∀ i < 32, v.getLsbD i = ((readReg s d).getLsbD i == (readReg s a).getLsbD i))

/-- EXTB and EXTH: the byte or halfword that the low bits of an address select in a little-endian word, as a number (rules R41, R174, R175;
decision D14). -/
def Obligations.ExtractsReadTheSelectedPart : Prop :=
  ∀ (s : State) (d a b : RegNo),
    (∃ v, Computes s (exec (.extb d a b) s) d v (IsNzFlags v) ∧
      v.toNat = (readReg s a).toNat / 256 ^ ((readReg s b).toNat % 4) % 256) ∧
    (∃ v, Computes s (exec (.exth d a b) s) d v (IsNzFlags v) ∧
      v.toNat = (readReg s a).toNat / 65536 ^ ((readReg s b).toNat / 2 % 2) % 65536)

/-- STUFFB and STUFFH: the selected byte or halfword replaced, every other bit and the flags kept (rules R176, R177). -/
def Obligations.StuffsReplaceTheSelectedPart : Prop :=
  ∀ (s : State) (d a b : RegNo),
    (∃ v, Computes s (exec (.stuffb d a b) s) d v (fun f => f = s.flags) ∧
      ∀ i < 32, v.getLsbD i =
        if i / 8 = (readReg s b).toNat % 4 then (readReg s a).getLsbD (i % 8) else (readReg s d).getLsbD i) ∧
    (∃ v, Computes s (exec (.stuffh d a b) s) d v (fun f => f = s.flags) ∧
      ∀ i < 32, v.getLsbD i =
        if i / 16 = (readReg s b).toNat / 2 % 2 then (readReg s a).getLsbD (i % 16) else (readReg s d).getLsbD i)

/-- TRUNC keeps the low `n` bits as an unsigned number, SXT as a signed one (rules R181, R182; decision D17). -/
def Obligations.TruncAndSxtKeepTheLowBits : Prop :=
  ∀ (s : State) (d : RegNo) (n : Nat), 1 ≤ n → n ≤ 16 →
    (∃ v, Computes s (exec (.trunc d n) s) d v (IsNzFlags v) ∧ v.toNat = (readReg s d).toNat % 2 ^ n) ∧
    (∃ v, Computes s (exec (.sxt d n) s) d v (IsNzFlags v) ∧ v.toInt = Int.bmod (readReg s d).toNat (2 ^ n))

/-- PLUS and ADJUST add and leave the flags alone. ADJUST adds: a power of two for selectors 8 to 15, nothing for the unassigned ones, the
open constant `ADJ_SSQ` for selector 5, less 6 in every digit that did not carry for BCD, plus 3 or less 3 for excess-3 (rules R109, R188 to
R193; decision D21). The value of `ADJ_SSQ` is the model's free value (assumption 1). -/
def Obligations.PlusAndAdjustAddWithoutFlags : Prop :=
  ∀ (s : State) (d a : RegNo),
    Computes s (exec (.plus d a) s) d (readReg s d + readReg s a) (fun f => f = s.flags) ∧
    (∀ j < 8, Computes s (exec (.adjust d (BitVec.ofNat 4 (8 + j))) s) d (readReg s d + BitVec.ofNat 32 (2 ^ j)) (fun f => f = s.flags)) ∧
    (∀ sel : BitVec 4, (sel = 0 ∨ sel = 1 ∨ sel = 4 ∨ sel = 6 ∨ sel = 7) →
      Computes s (exec (.adjust d sel) s) d (readReg s d) (fun f => f = s.flags)) ∧
    Computes s (exec (.adjust d 5) s) d
      (readReg s d + Config.adjSsq s.flags.n s.flags.z s.flags.v s.flags.c s.flags.cb) (fun f => f = s.flags) ∧
    Computes s (exec (.adjust d 2) s) d (readReg s d - BitVec.ofNat 32
      (∑ k ∈ Finset.range 8, if s.flags.cb.getLsbD k then 0 else 6 * 16 ^ k)) (fun f => f = s.flags) ∧
    Computes s (exec (.adjust d 3) s) d (readReg s d + BitVec.ofInt 32
      (∑ k ∈ Finset.range 8, if s.flags.cb.getLsbD k then 3 * 16 ^ k else -3 * 16 ^ k)) (fun f => f = s.flags)

/-- The packed-decimal addition of rule R190: with 6 added to every digit of one operand first, ADD then ADJUST BCD gives the decimal sum, and `C` its
carry out of the eighth digit. Destination 0 keeps no sum (PlusAndAdjustAddWithoutFlags says what ADJUST does there). -/
def Obligations.BcdAdditionIsDecimal : Prop :=
  ∀ (s : State) (d a b : RegNo) (p q : Word), d ≠ 0 → readReg s a = p + 0x66666666 → readReg s b = q →
    IsDecimal 0 p → IsDecimal 0 q →
    ∃ t u, exec (.add d a b) s = .next t ∧ exec (.adjust d 2) t = .next u ∧ IsDecimal 0 (readReg u d) ∧
      decimalValue 0 (readReg u d) + (if u.flags.c then 10 ^ 8 else 0) = decimalValue 0 p + decimalValue 0 q

/-- The excess-3 addition of rule R191: ADD then ADJUST EX3 of two excess-3 numbers gives the excess-3 form of the sum, and `C` its carry.
Destination 0 keeps no sum (PlusAndAdjustAddWithoutFlags says what ADJUST does there). -/
def Obligations.ExcessThreeAdditionIsDecimal : Prop :=
  ∀ (s : State) (d a b : RegNo), d ≠ 0 → IsDecimal 3 (readReg s a) → IsDecimal 3 (readReg s b) →
    ∃ t u, exec (.add d a b) s = .next t ∧ exec (.adjust d 3) t = .next u ∧ IsDecimal 3 (readReg u d) ∧
      decimalValue 3 (readReg u d) + (if u.flags.c then 10 ^ 8 else 0) =
        decimalValue 3 (readReg s a) + decimalValue 3 (readReg s b)

/-! ## Constants, addresses, loads and stores -/

/-- LIL and LIS load a signed constant, ORIS shifts one in. LEA and MOVE load the effective address, with the index field 0 meaning `pc_next`; these are the
addresses every memory reference uses. No flag changes (rules R120, R121, R123, R129, R140 to R142; decisions D16, D17). -/
def Obligations.ConstantsAndAddressesReachTheirRegister : Prop :=
  ∀ (s : State) (d x : RegNo) (k : BitVec 24) (c : BitVec 8) (disp : BitVec 16),
    Computes s (exec (.lil d k) s) d (BitVec.ofInt 32 k.toInt) (fun f => f = s.flags) ∧
    Computes s (exec (.lis d c) s) d (BitVec.ofInt 32 c.toInt) (fun f => f = s.flags) ∧
    Computes s (exec (.oris d c) s) d (BitVec.ofNat 32 ((readReg s d).toNat * 256 + c.toNat)) (fun f => f = s.flags) ∧
    eaLong s x disp = (if x = 0 then s.pc else readReg s x) + BitVec.ofInt 32 disp.toInt ∧
    eaShort s x = (if x = 0 then s.pc else readReg s x) ∧
    Computes s (exec (.lea d x disp) s) d (eaLong s x disp) (fun f => f = s.flags) ∧
    Computes s (exec (.move d x) s) d (eaShort s x) (fun f => f = s.flags)

/-- LOAD, LOADS, LOADCC, LOADSCC and LOADL at a readable address: one access, the word read in the destination, flags only for the CC forms; LOADL also makes
the token watch the word, whatever it watched before (rules R104, R125, R127, R131, R132, R134). A device's answer is the model's free value (assumption 2). -/
def Obligations.LoadsReadTheAddressedWord : Prop :=
  ∀ (s : State) (d x : RegNo) (disp : BitVec 16),
    (readable s.cfg (eaLong s x disp) →
      Loads s (exec (.load d x disp) s) (eaLong s x disp) d (fun _ f => f = s.flags) s.token ∧
      Loads s (exec (.loadcc d x disp) s) (eaLong s x disp) d IsNzFlags s.token) ∧
    (readable s.cfg (eaShort s x) →
      Loads s (exec (.loads d x) s) (eaShort s x) d (fun _ f => f = s.flags) s.token ∧
      Loads s (exec (.loadscc d x) s) (eaShort s x) d IsNzFlags s.token ∧
      Loads s (exec (.loadl d x) s) (eaShort s x) d (fun _ f => f = s.flags) ⟨true, wordAddr (eaShort s x)⟩)

/-- STORE and STORES at a writable address, in canonical memory: the word at the effective address takes the source register, no other byte changes, the
token breaks on a hit (rules R46, R50, R128, R138; decisions D15, D16, D27). -/
def Obligations.StoresWriteTheAddressedWord : Prop :=
  ∀ (s : State) (r x : RegNo) (disp : BitVec 16), s.mem.wf = true →
    (writable s.cfg (eaLong s x disp) →
      Stores s (exec (.store r x disp) s) (eaLong s x disp) (readReg s r) s.flags (tokenAfterStore s (eaLong s x disp))) ∧
    (writable s.cfg (eaShort s x) →
      Stores s (exec (.stores r x) s) (eaShort s x) (readReg s r) s.flags (tokenAfterStore s (eaShort s x)))

/-- Rule R234: a load from the unmapped region, and a store (or a STOREC on its success path) to the read-only or unmapped region, take BusFault with the
effective address in `TMA`, and have no other effect. The vector and the two saved addresses are the spec's decisions D6, D8, D9. -/
def Obligations.DataFaultsTakeTheBusVector : Prop :=
  ∀ (s : State) (d x : RegNo) (disp : BitVec 16),
    (¬ readable s.cfg (eaLong s x disp) →
      TakesException s (exec (.load d x disp) s) 0x10 (s.pc - 4) (eaLong s x disp) ∧
      TakesException s (exec (.loadcc d x disp) s) 0x10 (s.pc - 4) (eaLong s x disp)) ∧
    (¬ readable s.cfg (eaShort s x) →
      TakesException s (exec (.loads d x) s) 0x10 (s.pc - 2) (eaShort s x) ∧
      TakesException s (exec (.loadscc d x) s) 0x10 (s.pc - 2) (eaShort s x) ∧
      TakesException s (exec (.loadl d x) s) 0x10 (s.pc - 2) (eaShort s x)) ∧
    (¬ writable s.cfg (eaLong s x disp) →
      TakesException s (exec (.store d x disp) s) 0x10 (s.pc - 4) (eaLong s x disp)) ∧
    (¬ writable s.cfg (eaShort s x) →
      TakesException s (exec (.stores d x) s) 0x10 (s.pc - 2) (eaShort s x) ∧
      (s.token.valid = true ∧ s.token.addr = wordAddr (eaShort s x) →
        TakesException s (exec (.storec d x) s) 0x10 (s.pc - 2) (eaShort s x)))

/-- STOREC stores, clears `V` and consumes the token where the token watches the word and the word is writable; where the token does not watch it, STOREC
only sets `V` and consumes the token (rule R135; decision D27). -/
def Obligations.StorecStoresOnlyUnderTheToken : Prop :=
  ∀ (s : State) (r x : RegNo), s.mem.wf = true →
    (s.token.valid = true ∧ s.token.addr = wordAddr (eaShort s x) ∧ writable s.cfg (eaShort s x) →
      Stores s (exec (.storec r x) s) (eaShort s x) (readReg s r) { s.flags with v := false } { s.token with valid := false }) ∧
    (¬ (s.token.valid = true ∧ s.token.addr = wordAddr (eaShort s x)) →
      ∃ t, exec (.storec r x) s = .next t ∧ t.flags = { s.flags with v := true } ∧ t.token = { s.token with valid := false } ∧
        RegsKept s t ∧ MemoryKept s t ∧ t.devLog = s.devLog ∧ t.cyc = s.cyc ∧ t.dbg = s.dbg ∧ t.fpu = s.fpu ∧
        SystemKept s t ∧ Sequential s t)

/-- The three guarantees of rule R137 as sequences of instructions. After a LOADL, a STOREC to a word it does not watch fails and writes nothing; where
the word is writable, a STOREC to it succeeds and a second one fails; an ordinary store to the word in between, STORES or STORE,
whatever it stores, makes the STOREC fail without writing memory (decision D27). -/
def Obligations.StorecSucceedsExactlyOnce : Prop :=
  ∀ (s : State) (d r x : RegNo), x ≠ 0 → d ≠ x → readable s.cfg (readReg s x) →
    ∃ t, exec (.loadl d x) s = .next t ∧
      (∀ y : RegNo, wordAddr (eaShort t y) ≠ wordAddr (readReg s x) →
        ∃ u, exec (.storec r y) t = .next u ∧ u.flags.v = true ∧ MemoryKept t u ∧ u.devLog = t.devLog ∧ u.cyc = t.cyc) ∧
      (writable s.cfg (readReg s x) →
        (∃ u, exec (.storec r x) t = .next u ∧ u.flags.v = false ∧
          ∃ w, exec (.storec r x) u = .next w ∧ w.flags.v = true ∧ MemoryKept u w) ∧
        ∀ (q y : RegNo) (disp : BitVec 16),
          (wordAddr (eaShort t y) = wordAddr (readReg s x) →
            ∃ u, exec (.stores q y) t = .next u ∧ ∃ w, exec (.storec r x) u = .next w ∧ w.flags.v = true ∧ MemoryKept u w) ∧
          (wordAddr (eaLong t y disp) = wordAddr (readReg s x) →
            ∃ u, exec (.store q y disp) t = .next u ∧ ∃ w, exec (.storec r x) u = .next w ∧ w.flags.v = true ∧ MemoryKept u w))

/-- Rule R40: every word address lies in exactly the region its table gives, device ranges being those of the parameter `DEVICES`. -/
def Obligations.RegionsAreTheAddressMap : Prop :=
  ∀ (c : Config) (a : Nat), configOk c = true → a % 4 = 0 → a < 2 ^ 32 →
    (region c a = .rom ↔ a < c.romLimit) ∧
    (region c a = .ram ↔ c.romLimit ≤ a ∧ a < c.memSize) ∧
    (region c a = .unmapped ↔ c.memSize ≤ a ∧ a < c.ioBase) ∧
    (∀ k off, region c a = .device k off ↔
      c.ioBase ≤ a ∧ ∃ d, c.devices[k]? = some d ∧ d.base ≤ a ∧ a < d.base + d.len ∧ off = BitVec.ofNat 32 (a - d.base)) ∧
    (region c a = .openBus ↔ c.ioBase ≤ a ∧ ∀ d ∈ c.devices, ¬ (d.base ≤ a ∧ a < d.base + d.len)) ∧
    (a < c.romLimit → a + 3 < c.romLimit) ∧ (a < c.memSize → a + 3 < c.memSize) ∧ (a < c.ioBase → a + 3 < c.ioBase)

/-- Rule R45, the read of a word: memory, a device's answer, the open-bus value, or a fault (no result); a read that succeeds counts one access.
A device's answer is the model's free value (assumption 2); that an access without result is BusFault say DataFaultsTakeTheBusVector and
FetchFaultsTakeTheBusVector. -/
def Obligations.BusReadFollowsTheMap : Prop :=
  ∀ (s : State) (ea : Word), configOk s.cfg = true →
    let a := (ea &&& 0xFFFFFFFC).toNat
    let counted (log : List DevEvent) : State :=
      { s with cyc := s.cyc + 1, dbg := { s.dbg with budget := s.dbg.budget - 1 }, devLog := log }
    (a < s.cfg.memSize → busRead s ea = some (wordAt s a, counted s.devLog)) ∧
    (s.cfg.memSize ≤ a → a < s.cfg.ioBase → busRead s ea = none) ∧
    (s.cfg.ioBase ≤ a → ∀ k d, s.cfg.devices[k]? = some d → d.base ≤ a → a < d.base + d.len →
      busRead s ea = some (Config.deviceAnswer s.devLog k (BitVec.ofNat 32 (a - d.base)),
        counted (.read k (BitVec.ofNat 32 (a - d.base)) :: s.devLog))) ∧
    (s.cfg.ioBase ≤ a → (∀ d ∈ s.cfg.devices, ¬ (d.base ≤ a ∧ a < d.base + d.len)) →
      busRead s ea = some (s.cfg.openBusValue, counted s.devLog))

/-- Rule R46, the write of a word, in canonical memory: a fault (no result) below `ROM_LIMIT` and in the unmapped region; else the word is stored
little-endian, handed to its device, or discarded, the token breaks on a hit, and one access is counted. What a device gets is recorded in its history, the
model's own form (assumption 2); that an access without result is BusFault says DataFaultsTakeTheBusVector. -/
def Obligations.BusWriteFollowsTheMap : Prop :=
  ∀ (s : State) (ea v : Word), configOk s.cfg = true → s.mem.wf = true →
    let a := (ea &&& 0xFFFFFFFC).toNat
    let after (m : Memory) (log : List DevEvent) : State :=
      { s with mem := m, devLog := log, token := tokenAfterStore s ea, cyc := s.cyc + 1,
               dbg := { s.dbg with budget := s.dbg.budget - 1 } }
    (a < s.cfg.romLimit → busWrite s ea v = none) ∧
    (s.cfg.romLimit ≤ a → a < s.cfg.memSize → ∃ m, busWrite s ea v = some (after m s.devLog) ∧ m.wf = true ∧
      memRead m a = v.extractLsb' 0 8 ∧ memRead m (a + 1) = v.extractLsb' 8 8 ∧ memRead m (a + 2) = v.extractLsb' 16 8 ∧
      memRead m (a + 3) = v.extractLsb' 24 8 ∧ ∀ b, (b < a ∨ a + 4 ≤ b) → memRead m b = byteAt s b) ∧
    (s.cfg.memSize ≤ a → a < s.cfg.ioBase → busWrite s ea v = none) ∧
    (s.cfg.ioBase ≤ a → ∀ k d, s.cfg.devices[k]? = some d → d.base ≤ a → a < d.base + d.len →
      busWrite s ea v = some (after s.mem (.write k (BitVec.ofNat 32 (a - d.base)) v :: s.devLog))) ∧
    (s.cfg.ioBase ≤ a → (∀ d ∈ s.cfg.devices, ¬ (d.base ≤ a ∧ a < d.base + d.len)) → busWrite s ea v = some (after s.mem s.devLog))

/-- Rule R48: every load from an open-bus address puts `OPEN_BUS_VALUE` in its register, every store there changes no memory and reaches no device, a fetch there is
served too, each counts one access, and none is a fault. -/
def Obligations.OpenBusAnswersAConstantAndDiscardsWrites : Prop :=
  ∀ (s : State) (d x : RegNo) (disp : BitVec 16), configOk s.cfg = true →
    let OpenBus (ea : Word) : Prop := s.cfg.ioBase ≤ ea.toNat / 4 * 4 ∧
      ∀ r ∈ s.cfg.devices, ¬ (r.base ≤ ea.toNat / 4 * 4 ∧ ea.toNat / 4 * 4 < r.base + r.len)
    let Reads (o : Result) : Prop := ∃ t, o = .next t ∧ RegWritten s t d s.cfg.openBusValue ∧ MemoryKept s t ∧ t.devLog = s.devLog ∧ OneAccess s t
    let Discards (o : Result) : Prop := ∃ t, o = .next t ∧ RegsKept s t ∧ MemoryKept s t ∧ t.devLog = s.devLog ∧ OneAccess s t
    (OpenBus (eaLong s x disp) → Reads (exec (.load d x disp) s) ∧ Reads (exec (.loadcc d x disp) s) ∧ Discards (exec (.store d x disp) s)) ∧
    (OpenBus (eaShort s x) → Reads (exec (.loads d x) s) ∧ Reads (exec (.loadscc d x) s) ∧ Reads (exec (.loadl d x) s) ∧
      Discards (exec (.stores d x) s) ∧ (s.token.valid = true ∧ s.token.addr = wordAddr (eaShort s x) → Discards (exec (.storec d x) s))) ∧
    (OpenBus s.pc → ¬ Buffered s → ∃ h t, fetchHalf s = some (h, t) ∧ t.prefetch.word = s.cfg.openBusValue ∧ MemoryKept s t ∧
      t.devLog = s.devLog ∧ OneAccess s t)

/-- No instruction changes a byte outside the word it stores to, nor any byte below `ROM_LIMIT` (rules R34, R46, R51; decisions D15, D16). -/
def Obligations.MemoryChangesOnlyInTheStoredWord : Prop :=
  ∀ (i : Instr) (s t : State), exec i s = .next t →
    ∀ a : Nat, (∀ ea, storeAddress i s = some ea → ¬ inWordOf ea a) ∨
        (configOk s.cfg = true ∧ a < s.cfg.romLimit) →
      byteAt t a = byteAt s a

/-- Every instruction counts one access for its data read or write that does not fault, and none else; only CPUSET CYC sets the counter otherwise
(rules R24, R49; decision D29). -/
def Obligations.CycCountsEveryDataAccess : Prop :=
  ∀ (i : Instr) (s t : State), exec i s = .next t → (∀ r, i ≠ .cpuset r 8) →
    ((∃ ea, readAddress i s = some ea ∧ readable s.cfg ea) ∨ (∃ ea, storeAddress i s = some ea ∧ writable s.cfg ea) →
      t.cyc = s.cyc + 1 ∧ t.dbg.budget = s.dbg.budget - 1) ∧
    (¬ ((∃ ea, readAddress i s = some ea ∧ readable s.cfg ea) ∨ (∃ ea, storeAddress i s = some ea ∧ writable s.cfg ea)) →
      t.cyc = s.cyc ∧ t.dbg.budget = s.dbg.budget)

/-- A token that stays valid watches a word that nobody has written. Where the token is valid after the environment's turn, after the Monitor's, or after an instruction,
no byte of the watched word has changed in it; and a write into the watched word, by a store of the engine, the environment or the Monitor,
leaves the token invalid whatever it wrote, the old value too (rules R50, R136; decision D27). -/
def Obligations.AValidTokenWatchesAnUnwrittenWord : Prop :=
  ∀ s : State, wordAddr s.token.addr = s.token.addr →
    ((environmentTurn s).token.valid = true →
      ∀ a, inWordOf (environmentTurn s).token.addr a → byteAt (environmentTurn s) a = byteAt s a) ∧
    (∀ t, monitorTurn s = some t → t.token.valid = true → ∀ a, inWordOf t.token.addr a → byteAt t a = byteAt s a) ∧
    (∀ (i : Instr) (t : State), exec i s = .next t → t.token.valid = true → ∀ a, inWordOf t.token.addr a → byteAt t a = byteAt s a) ∧
    (∀ acts rest, s.env = acts :: rest → (∃ act ∈ acts, act.Hits s) → (environmentTurn s).token.valid = false) ∧
    (YieldConditions s → ∀ acts rest, s.dbg.script = acts :: rest → (∃ act ∈ acts, act.Hits s) →
      ∀ t, monitorTurn s = some t → t.token.valid = false) ∧
    (∀ (i : Instr) (ea : Word) (t : State), storeAddress i s = some ea → writable s.cfg ea → wordAddr ea = s.token.addr →
      exec i s = .next t → t.token.valid = false)

/-! ## Control transfers -/

/-- The sixteen conditional branches, each by its predicate of the flags (rules R145 to R164; decision D3). -/
def Obligations.BranchesFollowTheirPredicates : Prop :=
  ∀ (s : State) (d : BitVec 8),
    Branches s (exec (.br d) s) d true ∧
    Branches s (exec (.bns d) s) d s.flags.n ∧
    Branches s (exec (.bzs d) s) d s.flags.z ∧
    Branches s (exec (.bvs d) s) d s.flags.v ∧
    Branches s (exec (.bcs d) s) d s.flags.c ∧
    Branches s (exec (.blt d) s) d (s.flags.n != s.flags.v) ∧
    Branches s (exec (.ble d) s) d ((s.flags.n != s.flags.v) || s.flags.z) ∧
    Branches s (exec (.bleu d) s) d (!s.flags.c || s.flags.z) ∧
    Branches s (exec (.nop d) s) d false ∧
    Branches s (exec (.bnr d) s) d (!s.flags.n) ∧
    Branches s (exec (.bzr d) s) d (!s.flags.z) ∧
    Branches s (exec (.bvr d) s) d (!s.flags.v) ∧
    Branches s (exec (.bcr d) s) d (!s.flags.c) ∧
    Branches s (exec (.bge d) s) d (s.flags.n == s.flags.v) ∧
    Branches s (exec (.bgt d) s) d ((s.flags.n == s.flags.v) && !s.flags.z) ∧
    Branches s (exec (.bgtu d) s) d (s.flags.c && !s.flags.z)

/-- The names of the predicates are true of the flags a compare leaves, signed and unsigned (rules R102, R146). -/
def Obligations.PredicatesOrderTheComparedValues : Prop :=
  ∀ (s t : State) (a b : RegNo), exec (.sub 0 a b) s = .next t →
    predicate 0x2 t.flags = decide (readReg s a = readReg s b) ∧
    predicate 0x4 t.flags = decide ((readReg s b).toNat ≤ (readReg s a).toNat) ∧
    predicate 0x5 t.flags = decide ((readReg s a).toInt < (readReg s b).toInt) ∧
    predicate 0x6 t.flags = decide ((readReg s a).toInt ≤ (readReg s b).toInt) ∧
    predicate 0x7 t.flags = decide ((readReg s a).toNat ≤ (readReg s b).toNat) ∧
    predicate 0xA t.flags = decide (readReg s a ≠ readReg s b) ∧
    predicate 0xC t.flags = decide ((readReg s a).toNat < (readReg s b).toNat) ∧
    predicate 0xD t.flags = decide ((readReg s b).toInt ≤ (readReg s a).toInt) ∧
    predicate 0xE t.flags = decide ((readReg s b).toInt < (readReg s a).toInt) ∧
    predicate 0xF t.flags = decide ((readReg s b).toNat < (readReg s a).toNat)

/-- JSR and JSRS: the link is `pc_next`, the target is computed before the link is written, its bit 0 is dropped and the prefetch buffer emptied;
destination 0 keeps no link (rules R14, R126, R133; decisions D15, D16, D28). -/
def Obligations.JumpsLinkAndTransfer : Prop :=
  ∀ (s : State) (d x : RegNo) (disp : BitVec 16),
    (∃ t, exec (.jsr d x disp) s = .next t ∧ RegWritten s t d s.pc ∧ WentTo t (eaLong s x disp) ∧ t.flags = s.flags ∧
      t.fpu = s.fpu ∧ SystemKept s t ∧ BusIdle s t) ∧
    (∃ t, exec (.jsrs d x) s = .next t ∧ RegWritten s t d s.pc ∧ WentTo t (eaShort s x) ∧ t.flags = s.flags ∧
      t.fpu = s.fpu ∧ SystemKept s t ∧ BusIdle s t)

/-- BTRUNC branches forward by twice the low `n` bits of a register, which keeps its value (rule R183; decisions D15, D17). -/
def Obligations.BtruncIndexesTheInstructionsThatFollow : Prop :=
  ∀ (s : State) (d : RegNo) (n : Nat), 1 ≤ n → n ≤ 16 →
    Jumps s (exec (.btrunc d n) s) (s.pc + BitVec.ofNat 32 (2 * ((readReg s d).toNat % 2 ^ n)))

/-! ## Special registers and privilege -/

/-- CPUGET. Into a register it reads PSW, TPC, TMA, TSV or CYC, below level 15, or CYC at every level. With destination 0, below level 15, control goes to the value of
the special register and `LEVEL` becomes `OLEVEL`, and nothing else changes (rules R19, R196, R198, R202, R258; decisions D10 to D12). -/
def Obligations.CpugetReadsTheRegisterOrReturns : Prop :=
  ∀ (s : State) (d : RegNo) (k : BitVec 4) (v : Word), SpecialIs s k v →
    (d ≠ 0 → (s.level ≠ 15 ∨ k = 8) → Computes s (exec (.cpuget d k) s) d v (fun f => f = s.flags)) ∧
    (s.level ≠ 15 → ∃ t, exec (.cpuget 0 k) s = .next t ∧ WentTo t v ∧ t.level = s.olevel ∧ t.olevel = s.olevel ∧ RegsKept s t ∧
      t.flags = s.flags ∧ t.tpc = s.tpc ∧ t.tma = s.tma ∧ t.tsv = s.tsv ∧ t.costat = s.costat ∧ t.fpu = s.fpu ∧ BusIdle s t ∧
      t.irq = s.irq ∧ t.env = s.env ∧ t.cfg = s.cfg ∧ t.dbg = s.dbg)

/-- CPUSET below level 15: PSW takes its fields from the written word and drops the reserved bits, so it reads back under the mask 0xFF00FF0F; TPC,
TMA, TSV and CYC take the word whole; nothing else changes (rules R19, R197, R199 to R201; decision D35). -/
def Obligations.CpusetWritesTheSpecialRegister : Prop :=
  ∀ (s : State) (r : RegNo), s.level ≠ 15 →
    (∃ t, exec (.cpuset r 0) s = .next t ∧
      t = { s with level := t.level, olevel := t.olevel, flags := t.flags } ∧
      t.level.toNat = (readReg s r).toNat / 2 ^ 28 ∧ t.olevel.toNat = (readReg s r).toNat / 2 ^ 24 % 16 ∧
      t.flags.cb.toNat = (readReg s r).toNat / 2 ^ 8 % 256 ∧
      t.flags.n = (readReg s r).getLsbD 3 ∧ t.flags.z = (readReg s r).getLsbD 2 ∧
      t.flags.v = (readReg s r).getLsbD 1 ∧ t.flags.c = (readReg s r).getLsbD 0 ∧
      pswValue t = readReg s r &&& 0xFF00FF0F) ∧
    exec (.cpuset r 1) s = .next { s with tpc := readReg s r } ∧
    exec (.cpuset r 2) s = .next { s with tma := readReg s r } ∧
    exec (.cpuset r 3) s = .next { s with tsv := readReg s r } ∧
    exec (.cpuset r 8) s = .next { s with cyc := readReg s r }

/-- Rule R236: the three unassigned combinations, and CPUGET or CPUSET of a special register that does not exist, take IllegalInstruction at every
level, before any privilege check; only the first halfword was fetched. The vector, the saved pc, the register numbers and the length are the spec's
decisions D6, D8, D10, D37. -/
def Obligations.IllegalInstructionsTakeTheirVector : Prop :=
  ∀ (s : State) (d x : BitVec 4),
    TakesException s (exec (.illegal18 d x) s) 0x20 (s.pc - 2) s.tma ∧
    TakesException s (exec (.illegalF0 d x) s) 0x20 (s.pc - 2) s.tma ∧
    TakesException s (exec (.illegalF1 d x) s) 0x20 (s.pc - 2) s.tma ∧
    (x ≠ 0 ∧ x ≠ 1 ∧ x ≠ 2 ∧ x ≠ 3 ∧ x ≠ 8 →
      TakesException s (exec (.cpuget d x) s) 0x20 (s.pc - 2) s.tma ∧ TakesException s (exec (.cpuset d x) s) 0x20 (s.pc - 2) s.tma) ∧
    ∀ i ∈ [Instr.illegal18 d x, .illegalF0 d x, .illegalF1 d x, .cpuget d x, .cpuset d x], i.isLong = false

/-- Rule R237: at level 15 every privileged instruction of rule R262 takes PrivilegeViolation and has no other effect (decisions D6, D8, D12). -/
def Obligations.PrivilegedInstructionsTrapAtLevel15 : Prop :=
  ∀ (i : Instr) (s : State), s.level = 15 → privilegedForm i → TakesException s (exec i s) 0x30 (s.pc - 2) s.tma

/-- Code at level 15 changes its level only by a trap: after any instruction the level and the system registers are as before, or a trap was
entered, with level 0, old level 15 and the pc at one of the four vectors; `TSV` and `COSTAT` never change (rules R202, R262, R263; decision D12). -/
def Obligations.UnprivilegedCodeLeavesLevel15OnlyByATrap : Prop :=
  ∀ (i : Instr) (s t : State), s.level = 15 → exec i s = .next t →
    t.tsv = s.tsv ∧ t.costat = s.costat ∧
    ((t.level = 15 ∧ t.olevel = s.olevel ∧ t.tpc = s.tpc ∧ t.tma = s.tma) ∨
     (t.level = 0 ∧ t.olevel = 15 ∧ (t.pc = 0x10 ∨ t.pc = 0x20 ∨ t.pc = 0x30 ∨ t.pc = 0x50) ∧
      (t.tpc = s.pc - 2 ∨ t.tpc = s.pc - 4) ∧ RegsKept s t ∧ t.flags = s.flags ∧ t.token = s.token ∧ MemoryKept s t))

/-- Rule R240: trap entry saves the pc given and the level, enters level 0 at the vector with an empty prefetch buffer, records the fault address if
there is one, and changes nothing else; on the PSW it is the shift the rule writes. -/
def Obligations.TrapEntrySavesAndShiftsTheLevel : Prop :=
  ∀ (s : State) (vector savedPc : Word) (addr : Option Word),
    let t := trapEntry s vector savedPc addr
    t = { s with tpc := savedPc, tma := addr.getD s.tma, olevel := s.level, level := 0, pc := vector &&& 0xFFFFFFFE,
                 prefetch := { s.prefetch with valid := false } } ∧
    pswValue t = ((pswValue s >>> 4) &&& 0x0F000000) ||| (pswValue s &&& 0x00FFFFFF)

/-- The return undoes trap entry: after any exception at an even address, taken at any level, `CPUGET R0,TPC` resumes at that address and at that level, with
registers, flags and memory as they were (rules R198, R240, R258; decision D11). -/
def Obligations.TheReturnUndoesTrapEntry : Prop :=
  ∀ (s : State) (e : Exc) (p : Word), p.getLsbD 0 = false →
    ∃ u, exec (.cpuget 0 1) (takeException s e p) = .next u ∧ u.pc = p ∧ u.level = s.level ∧ u.prefetch.valid = false ∧
      RegsKept s u ∧ u.flags = s.flags ∧ u.token = s.token ∧ u.fpu = s.fpu ∧ MemoryKept s u

/-! ## Coprocessor -/

/-- COSTAT is read by COGET at every level and written by COSET below level 15; its reserved bits read 0, so a written word reads back under
the mask 0x0000FF71; the unit is not disturbed (rules R25, R205, R208, R209; decisions D12, D22, D35). -/
def Obligations.CostatIsReadAndWritten : Prop :=
  ∀ (s : State) (r d : RegNo),
    Computes s (exec (.coget d 0) s) d (BitVec.ofNat 32 (s.costat.coen.toNat * 2 ^ 8 + s.costat.cosel.toNat * 2 ^ 4 + s.costat.long.toNat))
      (fun f => f = s.flags) ∧
    (s.level ≠ 15 → ∃ t, exec (.coset r 0) s = .next t ∧ t = { s with costat := t.costat } ∧
      t.costat.coen.toNat = (readReg s r).toNat / 2 ^ 8 % 256 ∧ t.costat.cosel.toNat = (readReg s r).toNat / 2 ^ 4 % 8 ∧
      t.costat.long = (readReg s r).getLsbD 0 ∧ costatValue t.costat = readReg s r &&& 0x0000FF71)

/-- Rule R238: COGET and COSET of registers 1 to 15 take MissingCoprocessor, with no other effect, when slot 1 is not selected, not enabled or not built (decisions D6, D8,
D22, D46). -/
def Obligations.MissingCoprocessorsTakeTheirVector : Prop :=
  ∀ (s : State) (d : RegNo) (k : BitVec 4), k ≠ 0 →
    (s.costat.cosel ≠ 1 ∨ s.costat.coen.getLsbD 1 = false ∨ s.cfg.hasFpu = false) →
    TakesException s (exec (.coget d k) s) 0x50 (s.pc - 2) s.tma ∧ TakesException s (exec (.coset d k) s) 0x50 (s.pc - 2) s.tma

/-- COSET of the unit's fifteen registers: the staging word, and for either accumulator load, convert, square root and the four operations; in 64-bit
mode the operand is the source register over the staging word, else the source register widened (rules R210, R215 to R224; decisions D23, D24). -/
def Obligations.CosetWritesTheUnit : Prop :=
  ∀ (s : State) (r : RegNo), UnitAnswers s →
    let w := readReg s r
    let f := s.fpu
    let q := s.cfg.nanRule
    let opnd := if s.costat.long then w ++ f.fplow else fpWiden q w
    UnitBecomes s (exec (.coset r 1) s) { f with fplow := w } ∧
    UnitBecomes s (exec (.coset r 2) s) { f with a0 := opnd } ∧ UnitBecomes s (exec (.coset r 3) s) { f with a1 := opnd } ∧
    UnitBecomes s (exec (.coset r 4) s) { f with a0 := fpOfInt w } ∧ UnitBecomes s (exec (.coset r 5) s) { f with a1 := fpOfInt w } ∧
    UnitBecomes s (exec (.coset r 6) s) { f with a0 := fpSqrt q opnd } ∧ UnitBecomes s (exec (.coset r 7) s) { f with a1 := fpSqrt q opnd } ∧
    UnitBecomes s (exec (.coset r 8) s) { f with a0 := fpAdd q f.a0 opnd } ∧ UnitBecomes s (exec (.coset r 9) s) { f with a1 := fpAdd q f.a1 opnd } ∧
    UnitBecomes s (exec (.coset r 10) s) { f with a0 := fpSub q f.a0 opnd } ∧ UnitBecomes s (exec (.coset r 11) s) { f with a1 := fpSub q f.a1 opnd } ∧
    UnitBecomes s (exec (.coset r 12) s) { f with a0 := fpMul q f.a0 opnd } ∧ UnitBecomes s (exec (.coset r 13) s) { f with a1 := fpMul q f.a1 opnd } ∧
    UnitBecomes s (exec (.coset r 14) s) { f with a0 := fpDiv q f.a0 opnd } ∧ UnitBecomes s (exec (.coset r 15) s) { f with a1 := fpDiv q f.a1 opnd }

/-- COGET of the unit's registers: the staging word with integer conditions; an accumulator, whole through the staging word in 64-bit mode or narrowed in
32-bit mode, with the conditions of what was transferred; zero for an operation register (rules R206, R225, R227 to R229; decisions D25, D26). -/
def Obligations.CogetReadsTheUnit : Prop :=
  ∀ (s : State) (d : RegNo), UnitAnswers s →
    UnitReads s (exec (.coget d 1) s) d s.fpu.fplow s.fpu.fplow.msb (decide (s.fpu.fplow = 0)) false s.fpu ∧
    (∀ n : Bool,
      let a := if n then s.fpu.a1 else s.fpu.a0
      let k : BitVec 4 := if n then 3 else 2
      (s.costat.long = true →
        UnitReads s (exec (.coget d k) s) d (a.extractLsb' 32 32) a.msb (decide (a.toNat % 2 ^ 63 = 0))
          (decide (a.toNat / 2 ^ 52 % 2048 = 2047)) { s.fpu with fplow := a.extractLsb' 0 32 }) ∧
      (s.costat.long = false →
        let v := fpNarrow s.cfg.nanRule a
        UnitReads s (exec (.coget d k) s) d v v.msb (decide (v.toNat % 2 ^ 31 = 0))
          (decide (v.toNat / 2 ^ 23 % 256 = 255)) s.fpu)) ∧
    (∀ k : BitVec 4, 4 ≤ k.toNat → UnitReads s (exec (.coget d k) s) d 0 false true false s.fpu)

/-- In 64-bit mode any bit pattern, NaNs included, goes into an accumulator through the staging register and comes back unchanged (rules R217, R218,
R225, R227). -/
def Obligations.LongTransfersRoundTrip : Prop :=
  ∀ (s : State) (lo hi dl dh : RegNo) (n : Bool), UnitAnswers s → s.costat.long = true → dl ≠ 0 → dh ≠ 0 → dl ≠ dh →
    let k : BitVec 4 := if n then 3 else 2
    ∃ s1 s2 s3 s4, exec (.coset lo 1) s = .next s1 ∧ exec (.coset hi k) s1 = .next s2 ∧
      exec (.coget dh k) s2 = .next s3 ∧ exec (.coget dl 1) s3 = .next s4 ∧
      readReg s4 dh = readReg s hi ∧ readReg s4 dl = readReg s lo

/-- The cases of the arithmetic where an operand or the result is a NaN, an infinity or a zero, for every sign and order, for the default NaN and for every other
choice of it. A NaN operand gives a NaN; so do `inf - inf` as a sum or a difference, `0 * inf`, `0 / 0`, `inf / inf`, and the root of a number below
zero. Other operations with an infinity give the infinity, or for a divisor the zero, of the sign arithmetic gives; a finite nonzero number over
zero gives an infinity. A number plus its opposite, and less itself, is +0.0; zeros add, multiply and divide by their signs (rules R216,
R220 to R224, R226, R227; decision D24). -/
def Obligations.FloatingSpecialCasesAreIeee : Prop :=
  ∀ (q : NanRule) (a b : DWord) (w : Word) (y z : Bool),
    (IsNan64 a ∨ IsNan64 b → IsNan64 (fpAdd q a b) ∧ IsNan64 (fpSub q a b) ∧ IsNan64 (fpMul q a b) ∧ IsNan64 (fpDiv q a b)) ∧
    (IsNan64 a → IsNan64 (fpSqrt q a) ∧ IsNan32 (fpNarrow q a)) ∧ (IsNan32 w → IsNan64 (fpWiden q w)) ∧
    fpAdd q (inf64 z) (inf64 z) = inf64 z ∧ IsNan64 (fpAdd q (inf64 z) (inf64 (!z))) ∧
    IsNan64 (fpSub q (inf64 z) (inf64 z)) ∧ fpSub q (inf64 z) (inf64 (!z)) = inf64 z ∧
    fpMul q (inf64 y) (inf64 z) = inf64 (y ^^ z) ∧ IsNan64 (fpDiv q (inf64 y) (inf64 z)) ∧
    IsNan64 (fpMul q (zero64 y) (inf64 z)) ∧ IsNan64 (fpMul q (inf64 y) (zero64 z)) ∧ IsNan64 (fpDiv q (zero64 y) (zero64 z)) ∧
    (IsFinite64 a → fpAdd q a (inf64 z) = inf64 z ∧ fpAdd q (inf64 z) a = inf64 z ∧ fpSub q a (inf64 z) = inf64 (!z) ∧
      fpSub q (inf64 z) a = inf64 z ∧ fpDiv q (inf64 z) a = inf64 (z ^^ a.msb) ∧ fpDiv q a (inf64 z) = zero64 (a.msb ^^ z)) ∧
    (IsNonzero64 a → fpMul q a (inf64 z) = inf64 (a.msb ^^ z) ∧ fpMul q (inf64 z) a = inf64 (z ^^ a.msb) ∧
      fpDiv q a (zero64 z) = inf64 (a.msb ^^ z) ∧ fpDiv q (zero64 z) a = zero64 (z ^^ a.msb)) ∧
    (IsFinite64 a → fpAdd q a (a ^^^ 0x8000000000000000) = 0 ∧ fpSub q a a = 0 ∧ fpMul q a (zero64 z) = zero64 (a.msb ^^ z) ∧
      fpMul q (zero64 z) a = zero64 (z ^^ a.msb)) ∧
    fpAdd q (zero64 z) (zero64 z) = zero64 z ∧ fpSub q (zero64 z) (zero64 (!z)) = zero64 z ∧
    fpSqrt q (zero64 z) = zero64 z ∧ fpSqrt q (inf64 false) = inf64 false ∧
    (a.msb = true → a.extractLsb' 0 63 ≠ 0 → IsNan64 (fpSqrt q a)) ∧
    fpNarrow q (inf64 z) = inf32 z ∧ fpNarrow q (zero64 z) = zero32 z ∧ fpWiden q (inf32 z) = inf64 z ∧ fpWiden q (zero32 z) = zero64 z

/-- Sums, differences and products of finite numbers are the exact result rounded to nearest, ties to even, subnormal results and overflow included
(rules R221 to R223, R226 (a); decision D24). -/
def Obligations.SumsAndProductsRoundToNearestEven : Prop :=
  ∀ (q : NanRule) (a b : DWord), IsFinite64 a → IsFinite64 b →
    Rounds64 ((value64 a + value64 b : ℚ) : ℝ) (fpAdd q a b) ∧ Rounds64 ((value64 a - value64 b : ℚ) : ℝ) (fpSub q a b) ∧
    Rounds64 ((value64 a * value64 b : ℚ) : ℝ) (fpMul q a b)

/-- Quotients by a number that is not zero, square roots of numbers not below zero, and narrowings of finite numbers are the exact result rounded to nearest, ties to even,
subnormal results and overflow included (rules R220, R224, R226 (a) and (c), R227; decision D24). -/
def Obligations.QuotientsRootsAndNarrowingsRoundToNearestEven : Prop :=
  ∀ (q : NanRule) (a b : DWord), IsFinite64 a →
    (IsNonzero64 b → Rounds64 ((value64 a / value64 b : ℚ) : ℝ) (fpDiv q a b)) ∧
    (0 ≤ value64 a → Rounds64 (Real.sqrt (value64 a)) (fpSqrt q a)) ∧
    Rounds32 (value64 a) (fpNarrow q a)

/-- The conversions that lose nothing. The accumulator an integer is converted to holds that integer (zero as +0.0); a finite binary32 widened is the same number with the
same sign; and for every binary32 that is no NaN, narrowing what widening gave returns the same 32 bits (rules R216, R219, R226, R227;
decision D24). -/
def Obligations.ExactConversionsLoseNothing : Prop :=
  ∀ (q : NanRule) (w : Word),
    (IsFinite64 (fpOfInt w) ∧ value64 (fpOfInt w) = w.toInt ∧ (fpOfInt w).msb = w.msb) ∧
    (IsFinite32 w → IsFinite64 (fpWiden q w) ∧ value64 (fpWiden q w) = value32 w ∧ (fpWiden q w).msb = w.msb) ∧
    (¬ IsNan32 w → fpNarrow q (fpWiden q w) = w)

/-! ## Fetch, boundary, environment, Monitor -/

/-- `FetchHalf` (rule R55): a halfword of the buffered word where the buffer holds the word of the pc, whatever memory holds now (rule R57); else a bus read
refills the buffer, or faults; the advance leaves the buffer valid (decision D28). -/
def Obligations.FetchHalfUsesTheBuffer : Prop :=
  ∀ s : State,
    (s.prefetch.valid = true ∧ s.prefetch.addr = wordAddr s.pc →
      fetchHalf s = some (if s.pc.getLsbD 1 then s.prefetch.word.extractLsb' 16 16 else s.prefetch.word.extractLsb' 0 16,
        { s with pc := s.pc + 2 })) ∧
    (¬ (s.prefetch.valid = true ∧ s.prefetch.addr = wordAddr s.pc) →
      (busRead s s.pc = none → fetchHalf s = none) ∧
      ∀ w t, busRead s s.pc = some (w, t) →
        fetchHalf s = some (if s.pc.getLsbD 1 then w.extractLsb' 16 16 else w.extractLsb' 0 16,
          { t with prefetch := ⟨true, wordAddr s.pc, w⟩, pc := s.pc + 2 }))

/-- Rules R235 and R56: a fetch that needs a refill from the unmapped region takes BusFault, whatever else the prefetch buffer holds. On the first halfword
`TPC` and `TMA` both hold its address. On the second halfword of a 32-bit instruction that ends memory, `TPC` holds the instruction's address and `TMA`
that address plus 2: from a first halfword served by the buffer with no access counted, from one read from memory with the
one access of its refill (decisions D6, D8, D9). Nothing else changes. -/
def Obligations.FetchFaultsTakeTheBusVector : Prop :=
  ∀ s : State, configOk s.cfg = true → s.pc.getLsbD 0 = false →
    (¬ Buffered s → s.cfg.memSize ≤ s.pc.toNat → s.pc.toNat < s.cfg.ioBase → TakesException s (runInstruction s) 0x10 s.pc s.pc) ∧
    (s.pc.toNat + 2 = s.cfg.memSize → s.cfg.memSize < s.cfg.ioBase →
      (Buffered s → needsSecondHalf (s.prefetch.word.extractLsb' 16 16) = true →
        TakesException s (runInstruction s) 0x10 s.pc (s.pc + 2)) ∧
      (¬ Buffered s → needsSecondHalf (byteAt s (s.pc.toNat + 1) ++ byteAt s s.pc.toNat) = true →
        TakesException { s with cyc := s.cyc + 1, dbg := { s.dbg with budget := s.dbg.budget - 1 } } (runInstruction s) 0x10 s.pc (s.pc + 2)))

/-- After the entry of any trap or interrupt no line is admitted, so the handler's first instruction is not preempted (rules R20, R244). And rule R251:
at a boundary with no Monitor and no environment action, the lowest-numbered line that is requested and not above the level is entered: its vector, the pc of
the instruction not executed in `TPC`, the level shifted; `TMA` and the request lines stay as they are (decisions D6 to D9). -/
def Obligations.InterruptsEnterTheLowestAdmittedLine : Prop :=
  (∀ (s : State) (vector savedPc : Word) (addr : Option Word),
    engineTurn (trapEntry s vector savedPc addr) = runInstruction (trapEntry s vector savedPc addr)) ∧
  ∀ (s : State) (i : Nat), configOk s.cfg = true → s.cfg.monitor = false → s.env = [] → 1 ≤ i → i ≤ 7 →
    s.irq.getLsbD (i - 1) = true → i ≤ s.level.toNat → (∀ j, 1 ≤ j → j < i → s.irq.getLsbD (j - 1) = false) →
    ∃ t, step s = .next t ∧ WentTo t (BitVec.ofNat 32 (0x80 + 0x10 * i)) ∧ t.tpc = s.pc ∧ t.tma = s.tma ∧ t.olevel = s.level ∧
      t.level = 0 ∧ t.irq = s.irq ∧ RegsKept s t ∧ t.flags = s.flags ∧ t.fpu = s.fpu ∧ t.tsv = s.tsv ∧ t.costat = s.costat ∧ BusIdle s t

/-- The environment's turn touches only request lines, memory, the device history, the pause flag with its cycle-count snapshot, and the token's valid bit,
which it can only clear; it uses up one list of actions; the pause signal sets its flag and records `CYC` (rules R250 step 2, R273, R287). The list of
inputs, what the snapshot records, that `CYC` and `BUDGET` do not count these writes, and that a write outside memory does nothing are the model's own
(assumptions 7, 10, 14 and 20). -/
def Obligations.TheEnvironmentTouchesOnlyItsOwnState : Prop :=
  (∀ s : State, ∃ irq mem log paused snapshot valid,
    environmentTurn s = { s with irq := irq, mem := mem, devLog := log, dbg := { s.dbg with paused := paused, snapshot := snapshot },
                                 token := { s.token with valid := valid }, env := s.env.tail } ∧
    (valid = true → s.token.valid = true) ∧
    ∀ a, configOk s.cfg = true ∧ s.cfg.memSize ≤ a ∨ s.cfg.memSize + 3 ≤ a → memRead mem a = byteAt s a) ∧
  ∀ (s : State) (acts : List EnvAction) (rest : List (List EnvAction)), s.env = acts :: rest →
    (EnvAction.pause ∈ acts → (environmentTurn s).dbg.paused = true ∧ (environmentTurn s).dbg.snapshot = s.cyc) ∧
    (EnvAction.pause ∉ acts → (environmentTurn s).dbg = s.dbg)

/-- The engine never touches its inputs: no instruction changes a request line, the environment's or the Monitor's list, the breakpoint, the pause flag,
its snapshot or a parameter, and no step changes a parameter (rules R29, R33, R35, R255). -/
def Obligations.TheEngineNeverTouchesItsInputs : Prop :=
  (∀ (i : Instr) (s t : State), exec i s = .next t → t.irq = s.irq ∧ t.env = s.env ∧ t.cfg = s.cfg ∧
    t.dbg.script = s.dbg.script ∧ t.dbg.breakpoint = s.dbg.breakpoint ∧ t.dbg.paused = s.dbg.paused ∧
    t.dbg.snapshot = s.dbg.snapshot) ∧
  (∀ s t : State, step s = .next t → t.cfg = s.cfg)

/-- The Monitor acts at a boundary exactly where one is attached, a step has been executed since the last resume, and the budget is used up, the pc is at the
breakpoint or zero, or the pause flag is set (rule R268; decision D34). There it carries out the next session of its script, each action with its
effect, and resumes, or ends the run where the session says so; an empty script resumes at once (rule R272). The rest of the step starts from
what it leaves, and a step that ends with pc = 0 flushes the budget (rules R250, R270). What each action does says
`MonitorActions` (rules R213, R272, R273). The script, the session inside the step, the flush with no Monitor attached, writes outside memory, direct
calls of the unit and uncounted memory writes are the model's readings (assumptions 8, 9, 11, 14, 15, 20). -/
def Obligations.YieldsHappenExactlyOnTheirConditions : Prop :=
  (∀ s : State, ¬ YieldConditions s → monitorTurn s = some s) ∧
  (∀ s : State, YieldConditions s →
    let resumed (t : State) : State := { t with dbg := { t.dbg with armed := false } }
    (s.dbg.script = [] → monitorTurn s = some (resumed s)) ∧
    ∀ session rest, s.dbg.script = session :: rest →
      monitorTurn s = (monitorSession { s with dbg := { s.dbg with script := rest } } session).map resumed ∧
      (monitorTurn s = none ↔ MonitorAction.terminate ∈ session)) ∧
  (∀ s : State, monitorSession s [] = some s ∧ MonitorActions s ∧
    ∀ act acts, monitorSession s (act :: acts) = (monitorAct s act).bind fun t => monitorSession t acts) ∧
  (∀ s : State, configOk s.cfg = true → (monitorTurn s = none → step s = .fault .terminated) ∧
    ∀ t u, monitorTurn s = some t → engineTurn (environmentTurn t) = .next u → ∃ v, step s = .next v ∧ StepEnds u v) ∧
  (∀ s t : State, step s = .next t → t.dbg.armed = true ∧ (t.pc = 0 → t.dbg.budget = 0))

/-! ## The whole machine -/

/-- Every instruction completes in every state: nothing faults, nothing is refused; where the spec names an exception it is taken. So a machine with good
parameters and no Monitor always takes a step (rules R5, R236 to R239, R250). Refusing bad parameters is the model's form (assumption 13). -/
def Obligations.TheMachineNeverStops : Prop :=
  (∀ (i : Instr) (s : State), ∃ t, exec i s = .next t) ∧
  ∀ s : State, configOk s.cfg = true → s.cfg.monitor = false → ∃ t, step s = .next t

/-- The invariant is kept by every step, whatever the Monitor and the environment do: canonical memory inside `MEM_SIZE`, an even pc, word addresses
in the token and the prefetch buffer (rules R13, R14, R27, R28, R34). -/
def Obligations.EveryStepKeepsTheInvariant : Prop := ∀ s t : State, Inv s → step s = .next t → Inv t
end

