-- ==== Sys2Proof/Laws/Alu.lean ====
section
/-!
SUPPORT. What the shared arithmetic says: the add primitive, its carries and flags, the shift overflow test, word and even addresses, the PSW as a number.
-/

namespace Sys2Proof.Machine

/-- The carry into bit `i`: whether the low `i` bits of the operands and the carry in reach `2^i` (rule R100). -/
theorem carries33_bit (a b : Word) (c : Bool) (i : Nat) (hi : i < 33) :
    (carries33 a b c).getLsbD i = decide (2 ^ i ≤ a.toNat % 2 ^ i + b.toNat % 2 ^ i + carryNat c) := by
  unfold carries33 sum33
  rw [BitVec.getLsbD_xor, BitVec.getLsbD_xor, BitVec.zeroExtend_eq_setWidth, BitVec.zeroExtend_eq_setWidth, BitVec.zeroExtend_eq_setWidth, BitVec.getLsbD_add_add_bool hi]
  have : ∀ p q r : Bool, ((p ^^ q) ^^ (p ^^ (q ^^ r))) = r := by decide
  rw [this, BitVec.carry]
  have ha := a.isLt
  have hb := b.isLt
  rw [BitVec.toNat_setWidth, BitVec.toNat_setWidth, Nat.mod_eq_of_lt (a := a.toNat) (by omega), Nat.mod_eq_of_lt (a := b.toNat) (by omega)]
  cases c <;> simp [carryNat]

/-- The sum of the add primitive (rule R100). -/
theorem adder_sum (a b : Word) (c : Bool) : (adder a b c).sum = a + b + BitVec.ofNat 32 (carryNat c) := by
  show (sum33 a b c).extractLsb' 0 32 = _
  apply BitVec.eq_of_toNat_eq
  unfold sum33
  have ha := a.isLt
  have hb := b.isLt
  rw [BitVec.extractLsb'_toNat, BitVec.toNat_add, BitVec.toNat_add, BitVec.toNat_add, BitVec.toNat_add, BitVec.zeroExtend_eq_setWidth, BitVec.zeroExtend_eq_setWidth, BitVec.zeroExtend_eq_setWidth, BitVec.toNat_setWidth, BitVec.toNat_setWidth, BitVec.toNat_setWidth, BitVec.toNat_ofNat]
  cases c <;> simp [carryNat]

/-- Bit `k` of the capture is the carry into bit `4k + 4` (rule R100). -/
theorem nibbleCarries_bit (k : BitVec 33) (i : Nat) (h : i < 8) : (nibbleCarries k).getLsbD i = k.getLsbD (4 * (i + 1)) := by
  have : i = 0 ∨ i = 1 ∨ i = 2 ∨ i = 3 ∨ i = 4 ∨ i = 5 ∨ i = 6 ∨ i = 7 := by omega
  have e : nibbleCarries k = (BitVec.ofBool (k.getLsbD 32) ++ BitVec.ofBool (k.getLsbD 28) ++ BitVec.ofBool (k.getLsbD 24) ++
  BitVec.ofBool (k.getLsbD 20) ++ BitVec.ofBool (k.getLsbD 16) ++ BitVec.ofBool (k.getLsbD 12) ++
  BitVec.ofBool (k.getLsbD 8) ++ BitVec.ofBool (k.getLsbD 4) : BitVec (1+1+1+1+1+1+1+1)) := rfl
  rw [e]
  rcases this with rfl | rfl | rfl | rfl | rfl | rfl | rfl | rfl <;> simp only [BitVec.getLsbD_append, BitVec.getLsbD_ofBool] <;> simp

/-- Everything the flags of the add primitive say (rules R100, R101). -/
theorem adder_flags (a b : Word) (c : Bool) : IsAddFlags a b c (addFlags (adder a b c)) := by
  have hs := adder_sum a b c
  have ha := a.isLt
  have hb := b.isLt
  have c32 := carries33_bit a b c 32 (by omega)
  have c31 := carries33_bit a b c 31 (by omega)
  rw [Nat.mod_eq_of_lt ha, Nat.mod_eq_of_lt hb] at c32
  refine ⟨?_, ?_, ?_, ?_, ?_⟩
  · rw [← hs, BitVec.msb_eq_getLsbD_last]; rfl
  · rw [← hs]; rfl
  · show ((carries33 a b c).getLsbD 32 ^^ (carries33 a b c).getLsbD 31) = _
    rw [c32, c31, BitVec.toInt_eq_toNat_cond, BitVec.toInt_eq_toNat_cond]
    have hc : carryNat c ≤ 1 := by cases c <;> decide
    generalize carryNat c = n at *
    rw [Bool.eq_iff_iff]
    simp only [bne_iff_ne, ne_eq, decide_eq_true_eq, decide_eq_decide]
    split <;> split <;> omega
  · exact c32
  · intro k hk
    show (nibbleCarries (carries33 a b c)).getLsbD k = _
    rw [nibbleCarries_bit _ _ hk, carries33_bit _ _ _ _ (by omega)]
    have : (16:Nat) ^ (k+1) = 2 ^ (4 * (k+1)) := by rw [show (16:Nat) = 2^4 from rfl, ← Nat.pow_mul]
    rw [this]

/-- Adding the complement with a carry is subtracting with the complement of the carry (rule R102). -/
theorem add_not_eq_sub (a b : Word) (c : Bool) : a + ~~~b + BitVec.ofNat 32 (carryNat c) = a - b - BitVec.ofNat 32 (carryNat (!c)) := by
  apply BitVec.eq_of_toNat_eq
  have ha := a.isLt
  have hb := b.isLt
  simp only [BitVec.toNat_add, BitVec.toNat_sub, BitVec.toNat_not, BitVec.toNat_ofNat]
  cases c <;> simp only [carryNat] <;> simp <;> omega

/-- The low bits of a complement. -/
theorem not_toNat_mod (b : Word) (i : Nat) (hi : i ≤ 32) : (~~~b).toNat % 2^i = 2^i - 1 - b.toNat % 2^i := by
  have hb := b.isLt
  rw [BitVec.toNat_not]
  obtain ⟨k, hk⟩ : ∃ k, 2^32 = 2^i * k := ⟨2^(32-i), by rw [← Nat.pow_add]; congr 1; omega⟩
  have hp : 0 < 2^i := Nat.pos_of_ne_zero (by positivity)
  rw [hk]
  rw [hk] at hb
  have := Nat.sub_mul_mod (x := 2^i * k - 1 - b.toNat) (n := 2^i) (k := 0) (by omega)
  have e := Nat.div_add_mod b.toNat (2^i)
  have hm := Nat.mod_lt b.toNat hp
  have hq : b.toNat / 2^i < k := (Nat.div_lt_iff_lt_mul hp).2 (by rw [Nat.mul_comm]; exact hb)
  have : 2^i * k - 1 - b.toNat = (2^i - 1 - b.toNat % 2^i) + 2^i * (k - 1 - b.toNat / 2^i) := by
    rw [Nat.mul_sub, Nat.mul_sub]
    have : 2^i * (b.toNat / 2^i) + 2^i ≤ 2^i * k := by
      have := Nat.mul_le_mul_left (2^i) hq
      rw [Nat.mul_succ] at this; exact this
    omega
  rw [this, Nat.add_mul_mod_self_left, Nat.mod_eq_of_lt (by omega)]

/-- Everything the flags of the subtraction say (rules R101, R102). -/
theorem subtractor_flags (a b : Word) (c : Bool) : IsSubFlags a b (!c) (addFlags (subtractor a b c)) := by
  obtain ⟨h1, h2, h3, h4, h5⟩ := adder_flags a (~~~b) c
  have hb := b.isLt
  have ha := a.isLt
  rw [add_not_eq_sub] at h1 h2
  refine ⟨h1, h2, ?_, ?_, ?_⟩
  · rw [subtractor, h3]
    have hc : (carryNat (!c) : Int) = 1 - carryNat c := by cases c <;> rfl
    have hn : (~~~b).toInt = -1 - b.toInt := by
      rw [BitVec.toInt_not]; 
      rw [BitVec.toInt_eq_toNat_cond]
      rw [Int.bmod_def]; split <;> split <;> omega
    rw [hn, hc]
    congr 1
    simp only [eq_iff_iff]
    constructor <;> intro h <;> omega
  · rw [subtractor, h4]
    have hc : (carryNat (!c)) = 1 - carryNat c := by cases c <;> rfl
    have hc2 : carryNat c ≤ 1 := by cases c <;> decide
    rw [hc, BitVec.toNat_not]
    rw [decide_eq_decide]; omega
  · intro k hk
    rw [subtractor, h5 k hk]
    have hc : (carryNat (!c)) = 1 - carryNat c := by cases c <;> rfl
    have hc2 : carryNat c ≤ 1 := by cases c <;> decide
    have e : (16:Nat) ^ (k+1) = 2 ^ (4 * (k+1)) := by rw [show (16:Nat) = 2^4 from rfl, ← Nat.pow_mul]
    rw [hc, e, not_toNat_mod _ _ (by omega)]
    have h1 := Nat.mod_lt b.toNat (show 0 < 2^(4*(k+1)) from Nat.pos_of_ne_zero (by positivity))
    have h2 := Nat.mod_lt a.toNat (show 0 < 2^(4*(k+1)) from Nat.pos_of_ne_zero (by positivity))
    rw [decide_eq_decide]; omega

/-- `SHLV` says that the shifted value has left the signed range (rule R108). -/
theorem shiftOverflow_iff (v : Word) (n : Nat) (h1 : 1 ≤ n) (h : n ≤ 16) : shiftOverflow v n = true ↔ ShiftOverflows v n := by
  unfold shiftOverflow ShiftOverflows
  have e : (v.sshiftRight (31 - n)).toInt = v.toInt / 2^(31-n) := by
    rw [BitVec.toInt_sshiftRight, Int.shiftRight_eq_div_pow]; norm_cast
  have k0 : v.sshiftRight (31 - n) = 0 ↔ v.toInt / 2^(31-n) = 0 := by
    rw [← e, ← BitVec.toInt_inj]; simp
  have k1 : v.sshiftRight (31 - n) = BitVec.allOnes 32 ↔ v.toInt / 2^(31-n) = -1 := by
    rw [← e, ← BitVec.toInt_inj]; simp
  simp only [Bool.and_eq_true, bne_iff_ne, ne_eq, k0, k1]
  have hp : (0:Int) < 2^(31-n) := by positivity
  have hn : (0:Int) < 2^n := by positivity
  have e31 : (2:Int)^31 = 2^(31-n) * 2^n := by rw [← pow_add]; congr 1; omega
  rw [e31]
  have a1 : -(2^(31-n) * 2^n) ≤ v.toInt * 2^n ↔ -2^(31-n) ≤ v.toInt := by
    rw [← neg_mul]; exact mul_le_mul_iff_of_pos_right hn
  have a2 : v.toInt * 2^n < 2^(31-n) * 2^n ↔ v.toInt < 2^(31-n) := mul_lt_mul_iff_of_pos_right hn
  rw [a1, a2]
  generalize (2:Int)^(31-n) = P at *
  generalize v.toInt = x at *
  have q0 : x / P = 0 ↔ 0 ≤ x ∧ x < P := by
    constructor
    · intro h; have := Int.emod_nonneg x (ne_of_gt hp); have := Int.emod_lt_of_pos x hp; have := Int.mul_ediv_add_emod x P; rw [h] at this; constructor <;> linarith
    · rintro ⟨h1, h2⟩; exact Int.ediv_eq_zero_of_lt h1 h2
  have q1 : x / P = -1 ↔ -P ≤ x ∧ x < 0 := by
    have := Int.add_mul_ediv_right x 1 (ne_of_gt hp)
    constructor
    · intro h; have := Int.emod_nonneg x (ne_of_gt hp); have := Int.emod_lt_of_pos x hp; have := Int.mul_ediv_add_emod x P; rw [h] at this; constructor <;> linarith
    · rintro ⟨h1, h2⟩
      have h3 : (x + 1 * P) / P = 0 := Int.ediv_eq_zero_of_lt (by linarith) (by linarith)
      omega
  rw [q0, q1]; omega

/-- A left shift is a multiplication. -/
theorem shiftLeft_eq_mul (v : Word) (n : Nat) : v <<< n = BitVec.ofNat 32 (v.toNat * 2^n) := by
  apply BitVec.eq_of_toNat_eq; rw [BitVec.toNat_shiftLeft, BitVec.toNat_ofNat, Nat.shiftLeft_eq]

/-- What a non-adder operation leaves in the flags (rule R104). -/
theorem nzFlags_isNz (r : Word) : IsNzFlags r (nzFlags r) := by
  refine ⟨?_, ?_, rfl, rfl, rfl⟩
  · simp [nzFlags, BitVec.msb_eq_getLsbD_last]
  · show (r == 0) = decide (r = 0); rfl

/-- The mask of `n` low bits keeps the remainder modulo `2^n`. -/
theorem and_lowMask_toNat (v : Word) (n : Nat) (h : n ≤ 16) : (v &&& lowMask n).toNat = v.toNat % 2^n := by
  unfold lowMask
  rw [BitVec.toNat_and, BitVec.toNat_ofNat, Nat.mod_eq_of_lt, Nat.and_two_pow_sub_one_eq_mod]
  have : 2^n ≤ 2^16 := Nat.pow_le_pow_right (by omega) h
  omega

/-- A word address is the address rounded down to a multiple of 4 (rule R44). -/
theorem wordAddr_toNat (a : Word) : (wordAddr a).toNat = a.toNat / 4 * 4 := by
  have h : wordAddr a = (a >>> 2) <<< 2 := by
      unfold wordAddr
      apply BitVec.eq_of_getLsbD_eq
      intro i hi
      have m : ∀ i < 32, (0xFFFFFFFC : Word).getLsbD i = decide (2 ≤ i) := by decide
      rw [BitVec.getLsbD_and, m i hi, BitVec.getLsbD_shiftLeft, BitVec.getLsbD_ushiftRight]
      by_cases h2 : 2 ≤ i
      · have : 2 + (i - 2) = i := by omega
        simp [h2, hi, this]; intros; omega
      · simp [h2]; intros; omega
  rw [h, BitVec.toNat_shiftLeft, BitVec.toNat_ushiftRight, Nat.shiftRight_eq_div_pow, Nat.shiftLeft_eq]
  have := a.isLt; omega

/-- The PSW as a number (rule R19). -/
theorem pswValue_toNat (s : State) : (pswValue s).toNat = pswNumber s := by
  unfold pswValue pswNumber
  simp only [BitVec.toNat_append]
  have h1 := s.level.isLt
  have h2 := s.olevel.isLt
  have h3 := s.flags.cb.isLt
  have hb : ∀ (x : Nat) (b : Bool), x <<< 1 ||| (BitVec.ofBool b).toNat = x * 2 + b.toNat := by
    intro x b; rw [← Nat.shiftLeft_add_eq_or_of_lt (by cases b <;> decide), Nat.shiftLeft_eq]; cases b <;> rfl
  have h0 : ∀ (x n : Nat), x <<< n ||| (0#n).toNat = x * 2^n := by intro x n; simp [Nat.shiftLeft_eq]
  simp only [hb]
  rw [← Nat.shiftLeft_add_eq_or_of_lt h2, h0, ← Nat.shiftLeft_add_eq_or_of_lt h3, h0]
  simp only [Nat.shiftLeft_eq]
  omega

/-- Clearing bit 0 of an even address changes nothing (rule R14). -/
theorem evenAddr_of_even (p : Word) (h : p.getLsbD 0 = false) : evenAddr p = p := by
  apply BitVec.eq_of_getLsbD_eq
  intro i hi
  unfold evenAddr
  rw [BitVec.getLsbD_and]
  by_cases h0 : i = 0
  · subst h0; rw [h]; rfl
  · have : ∀ i < 32, i ≠ 0 → (0xFFFFFFFE : Word).getLsbD i = true := by decide
    rw [this i hi h0, Bool.and_true]

end Sys2Proof.Machine
end

