-- ==== Sys2Proof/Laws/Memory.lean ====
section
/-!
SUPPORT. Registers and memory: what a read gives after a write, and that every memory operation keeps the canonical form.
-/

namespace Sys2Proof.Machine

/-! ## Registers -/

@[simp] theorem regRead_zero (x : Vector Word 15) : regRead x 0 = 0 := dif_pos rfl

theorem regRead_regWrite (x : Vector Word 15) (d r : RegNo) (v : Word) :
    regRead (regWrite x d v) r = if r = 0 then 0 else if r = d then v else regRead x r := by
  by_cases hr : r = 0
  · rw [if_pos hr, hr, regRead_zero]
  · rw [if_neg hr]
    by_cases hd : d = 0
    · rw [regWrite, dif_pos hd, if_neg (fun e => hr (e.trans hd))]
    · have h1 : r.toNat ≠ 0 := fun e => hr (BitVec.eq_of_toNat_eq e)
      have h2 : d.toNat ≠ 0 := fun e => hd (BitVec.eq_of_toNat_eq e)
      rw [regRead, dif_neg hr, regRead, dif_neg hr, regWrite, dif_neg hd]
      by_cases e : r = d
      · subst e; simp
      · rw [if_neg e, Vector.getElem_set_ne]
        intro h; exact e (BitVec.eq_of_toNat_eq (by omega))

@[simp] theorem readReg_zero (s : State) : readReg s 0 = 0 := regRead_zero _

theorem readReg_writeReg (s : State) (d r : RegNo) (v : Word) :
    readReg (writeReg s d v) r = if r = 0 then 0 else if r = d then v else readReg s r :=
  regRead_regWrite _ _ _ _

/-! ## One byte -/

theorem memRead_of_lt {lo : Nat} {m : Memory} (h : memWfFrom lo m = true) {a : Nat} (ha : a < lo) :
    memRead m a = unlistedByte := by
  induction m generalizing lo with
  | nil => rfl
  | cons c m ih =>
    obtain ⟨k, b⟩ := c
    simp only [memWfFrom, Bool.and_eq_true, decide_eq_true_eq] at h
    have : k ≠ a := by omega
    simp only [memRead, this, if_false]
    exact ih h.2 (by omega)

theorem memWfFrom_mono {lo hi : Nat} {m : Memory} (h : memWfFrom hi m = true) (hl : lo ≤ hi) : memWfFrom lo m = true := by
  cases m with
  | nil => rfl
  | cons c m =>
    obtain ⟨k, b⟩ := c
    simp only [memWfFrom, Bool.and_eq_true, decide_eq_true_eq] at h ⊢
    exact ⟨⟨by omega, h.1.2⟩, h.2⟩

theorem memCons_wf {lo a : Nat} {b : Byte} {m : Memory} (h : memWfFrom (a + 1) m = true) (ha : lo ≤ a) :
    memWfFrom lo (memCons a b m) = true := by
  unfold memCons
  split
  · exact memWfFrom_mono h (by omega)
  · simp [memWfFrom, *]

theorem memWrite_wfFrom {lo : Nat} {m : Memory} (h : memWfFrom lo m = true) {a : Nat} (ha : lo ≤ a) (b : Byte) :
    memWfFrom lo (memWrite m a b) = true := by
  induction m generalizing lo with
  | nil => exact memCons_wf rfl ha
  | cons c m ih =>
    obtain ⟨k, d⟩ := c
    simp only [memWfFrom, Bool.and_eq_true, decide_eq_true_eq] at h
    unfold memWrite
    split
    · exact memCons_wf (by simp [memWfFrom, h.1.2, h.2]; omega) ha
    · split
      · subst_vars; exact memCons_wf h.2 ha
      · simp only [memWfFrom, Bool.and_eq_true, decide_eq_true_eq]
        exact ⟨h.1, ih h.2 (by omega)⟩

/-- A write keeps the canonical form. -/
theorem memWrite_wf {m : Memory} (h : m.wf = true) (a : Nat) (b : Byte) : Memory.wf (memWrite m a b) = true :=
  memWrite_wfFrom h (Nat.zero_le a) b

theorem memRead_memCons_ne {a b : Nat} (h : a ≠ b) (v : Byte) (m : Memory) :
    memRead (memCons a v m) b = memRead m b := by
  unfold memCons
  split
  · rfl
  · simp [memRead, h]

/-- A write leaves every other address alone, in any memory. -/
theorem memRead_memWrite_ne {a b : Nat} (h : a ≠ b) (m : Memory) (v : Byte) :
    memRead (memWrite m a v) b = memRead m b := by
  induction m with
  | nil => exact memRead_memCons_ne h v []
  | cons c m ih =>
    obtain ⟨k, d⟩ := c
    unfold memWrite
    split
    · exact memRead_memCons_ne h v _
    · split
      · subst_vars; rw [memRead_memCons_ne h]; simp [memRead, h]
      · simp only [memRead]; split
        · rfl
        · exact ih

theorem memRead_memCons_self {lo a : Nat} {m : Memory} (h : memWfFrom lo m = true) (ha : a < lo) (v : Byte) :
    memRead (memCons a v m) a = v := by
  unfold memCons
  split
  · rw [memRead_of_lt h ha]; exact Eq.symm ‹_›
  · simp [memRead]

theorem memRead_memWrite_self_from {lo : Nat} {m : Memory} (h : memWfFrom lo m = true) {a : Nat} (v : Byte) :
    memRead (memWrite m a v) a = v := by
  induction m generalizing lo with
  | nil => exact memRead_memCons_self (lo := a + 1) rfl (by omega) v
  | cons c m ih =>
    obtain ⟨k, d⟩ := c
    simp only [memWfFrom, Bool.and_eq_true, decide_eq_true_eq] at h
    unfold memWrite
    split
    · exact memRead_memCons_self (lo := k) (by simp [memWfFrom, h.1.2, h.2]) ‹_› v
    · split
      · subst_vars; exact memRead_memCons_self h.2 (by omega) v
      · rename_i h1 h2
        have : k ≠ a := fun e => h2 e.symm
        simp only [memRead, this, if_false]
        exact ih h.2

/-- A read after a write of the same address gives the byte written, in canonical memory. -/
theorem memRead_memWrite_self {m : Memory} (h : m.wf = true) (a : Nat) (v : Byte) : memRead (memWrite m a v) a = v :=
  memRead_memWrite_self_from h v

theorem memRead_memWrite {m : Memory} (h : m.wf = true) (a b : Nat) (v : Byte) :
    memRead (memWrite m a v) b = if a = b then v else memRead m b := by
  split
  · subst_vars; exact memRead_memWrite_self h _ v
  · exact memRead_memWrite_ne ‹_› m v

/-! ## Cells below a limit -/

theorem memCons_below {n a : Nat} {m : Memory} (h : memBelow n m = true) (ha : a < n) (b : Byte) :
    memBelow n (memCons a b m) = true := by
  unfold memCons
  split
  · exact h
  · simpa [memBelow, ha] using h

theorem memWrite_below {n a : Nat} {m : Memory} (h : memBelow n m = true) (ha : a < n) (b : Byte) :
    memBelow n (memWrite m a b) = true := by
  induction m with
  | nil => exact memCons_below rfl ha b
  | cons c m ih =>
    obtain ⟨k, d⟩ := c
    have h' : k < n ∧ memBelow n m = true := by simpa [memBelow] using h
    unfold memWrite
    split
    · exact memCons_below h ha b
    · split
      · exact memCons_below h'.2 ha b
      · simpa [memBelow, h'.1] using ih h'.2

/-! ## Words -/

/-- A word write keeps the canonical form. -/
theorem memWriteWord_wf {m : Memory} (h : m.wf = true) (a : Nat) (v : Word) : Memory.wf (memWriteWord m a v) = true :=
  memWrite_wf (memWrite_wf (memWrite_wf (memWrite_wf h _ _) _ _) _ _) _ _

theorem memWriteWord_below {n a : Nat} {m : Memory} (h : memBelow n m = true) (ha : a + 3 < n) (v : Word) :
    memBelow n (memWriteWord m a v) = true :=
  memWrite_below (memWrite_below (memWrite_below (memWrite_below h (by omega) _) (by omega) _) (by omega) _) ha _

/-- A word write leaves every byte outside the word alone. -/
theorem memRead_memWriteWord_ne {a b : Nat} (h : b < a ∨ a + 4 ≤ b) (m : Memory) (v : Word) :
    memRead (memWriteWord m a v) b = memRead m b := by
  unfold memWriteWord
  rw [memRead_memWrite_ne (by omega), memRead_memWrite_ne (by omega), memRead_memWrite_ne (by omega),
    memRead_memWrite_ne (by omega)]

/-- The four bytes of a word after the word was written (rule R41). -/
theorem memRead_memWriteWord_in {m : Memory} (h : m.wf = true) (a : Nat) (v : Word) :
    memRead (memWriteWord m a v) a = v.extractLsb' 0 8 ∧
    memRead (memWriteWord m a v) (a + 1) = v.extractLsb' 8 8 ∧
    memRead (memWriteWord m a v) (a + 2) = v.extractLsb' 16 8 ∧
    memRead (memWriteWord m a v) (a + 3) = v.extractLsb' 24 8 := by
  have w1 := memWrite_wf h a (v.extractLsb' 0 8)
  have w2 := memWrite_wf w1 (a + 1) (v.extractLsb' 8 8)
  have w3 := memWrite_wf w2 (a + 2) (v.extractLsb' 16 8)
  unfold memWriteWord
  refine ⟨?_, ?_, ?_, memRead_memWrite_self w3 _ _⟩
  · rw [memRead_memWrite_ne (by omega), memRead_memWrite_ne (by omega), memRead_memWrite_ne (by omega), memRead_memWrite_self h]
  · rw [memRead_memWrite_ne (by omega), memRead_memWrite_ne (by omega), memRead_memWrite_self w1]
  · rw [memRead_memWrite_ne (by omega), memRead_memWrite_self w2]

/-- A word read after the word was written gives the word. -/
theorem memReadWord_memWriteWord {m : Memory} (h : m.wf = true) (a : Nat) (v : Word) :
    memReadWord (memWriteWord m a v) a = v := by
  obtain ⟨h0, h1, h2, h3⟩ := memRead_memWriteWord_in h a v
  unfold memReadWord
  rw [h0, h1, h2, h3]
  ext i hi
  simp only [BitVec.getElem_append, BitVec.getElem_extractLsb']
  split
  · simp [BitVec.getLsbD_eq_getElem, *]
  · split
    · rename_i h1 h2
      have : 8 + (i - 8) = i := by omega
      simp [this, BitVec.getLsbD_eq_getElem, hi]
    · split
      · rename_i h1 h2 h3
        have : 16 + (i - 8 - 8) = i := by omega
        simp [this, BitVec.getLsbD_eq_getElem, hi]
      · have : 24 + (i - 8 - 8 - 8) = i := by omega
        simp [this, BitVec.getLsbD_eq_getElem, hi]

theorem memWriteBytes_wf {m : Memory} (h : m.wf = true) (a : Nat) (bs : List Byte) :
    Memory.wf (memWriteBytes m a bs) = true := by
  induction bs generalizing m a with
  | nil => exact h
  | cons b bs ih => exact ih (memWrite_wf h a b) (a + 1)

/-! ## Writes by other agents -/

theorem agentWriteByte_wf {s : State} (h : s.mem.wf = true) (a : Word) (b : Byte) :
    (agentWriteByte s a b).mem.wf = true := by
  unfold agentWriteByte
  split
  · exact memWrite_wf h _ _
  · exact h

theorem agentWriteWord_wf {s : State} (h : s.mem.wf = true) (a v : Word) : (agentWriteWord s a v).mem.wf = true := by
  unfold agentWriteWord
  split
  · exact memWriteWord_wf h _ _
  · exact h

theorem monitorWriteByte_wf {s : State} (h : s.mem.wf = true) (a : Word) (b : Byte) :
    (monitorWriteByte s a b).mem.wf = true := by
  unfold monitorWriteByte
  split
  · exact agentWriteByte_wf h a b
  · exact h

theorem monitorWriteWord_wf {s : State} (h : s.mem.wf = true) (a v : Word) : (monitorWriteWord s a v).mem.wf = true := by
  unfold monitorWriteWord
  split
  · exact agentWriteWord_wf h a v
  · exact h

/-- All that another agent's byte write can do: nothing outside memory, else the byte written and the token broken on a hit. -/
theorem agentWriteByte_cases (s : State) (a : Word) (b : Byte) :
    (s.cfg.memSize ≤ a.toNat ∧ agentWriteByte s a b = s) ∨
    (a.toNat < s.cfg.memSize ∧
      agentWriteByte s a b = { s with mem := memWrite s.mem a.toNat b, token := breakToken s.token (wordAddr a) }) := by
  unfold agentWriteByte
  split
  · exact .inr ⟨‹_›, rfl⟩
  · exact .inl ⟨Nat.le_of_not_lt ‹_›, rfl⟩

/-- All that another agent's word write can do: nothing outside memory, else the word written and the token broken on a hit. -/
theorem agentWriteWord_cases (s : State) (a v : Word) :
    (s.cfg.memSize ≤ (wordAddr a).toNat ∧ agentWriteWord s a v = s) ∨
    ((wordAddr a).toNat < s.cfg.memSize ∧
      agentWriteWord s a v = { s with mem := memWriteWord s.mem (wordAddr a).toNat v, token := breakToken s.token (wordAddr a) }) := by
  unfold agentWriteWord
  split
  · exact .inr ⟨‹_›, rfl⟩
  · exact .inl ⟨Nat.le_of_not_lt ‹_›, rfl⟩

/-- All that the Monitor's byte write can do: nothing outside memory, else an agent's write with the prefetch buffer emptied. -/
theorem monitorWriteByte_cases (s : State) (a : Word) (b : Byte) :
    (s.cfg.memSize ≤ a.toNat ∧ monitorWriteByte s a b = s) ∨
    (a.toNat < s.cfg.memSize ∧ monitorWriteByte s a b = dropPrefetch (agentWriteByte s a b)) := by
  unfold monitorWriteByte
  split
  · exact .inr ⟨‹_›, rfl⟩
  · exact .inl ⟨Nat.le_of_not_lt ‹_›, rfl⟩

/-- All that the Monitor's word write can do: nothing outside memory, else an agent's write with the prefetch buffer emptied. -/
theorem monitorWriteWord_cases (s : State) (a v : Word) :
    (s.cfg.memSize ≤ (wordAddr a).toNat ∧ monitorWriteWord s a v = s) ∨
    ((wordAddr a).toNat < s.cfg.memSize ∧ monitorWriteWord s a v = dropPrefetch (agentWriteWord s a v)) := by
  unfold monitorWriteWord
  split
  · exact .inr ⟨‹_›, rfl⟩
  · exact .inl ⟨Nat.le_of_not_lt ‹_›, rfl⟩

end Sys2Proof.Machine
end

