-- ==== Sys2Proof/Laws/State.lean ====
section
/-!
SUPPORT. What each update of the state leaves in each field: one lemma per field and update, true by unfolding, so that no proof
unfolds a record update.
-/

namespace Sys2Proof.Machine

/-! ## `writeReg` -/

@[simp] theorem writeReg_x (s : State) (r : RegNo) (v : Word) :
    (writeReg s r v).x = regWrite s.x r v := rfl
@[simp] theorem writeReg_pc (s : State) (r : RegNo) (v : Word) :
    (writeReg s r v).pc = s.pc := rfl
@[simp] theorem writeReg_flags (s : State) (r : RegNo) (v : Word) :
    (writeReg s r v).flags = s.flags := rfl
@[simp] theorem writeReg_level (s : State) (r : RegNo) (v : Word) :
    (writeReg s r v).level = s.level := rfl
@[simp] theorem writeReg_olevel (s : State) (r : RegNo) (v : Word) :
    (writeReg s r v).olevel = s.olevel := rfl
@[simp] theorem writeReg_tpc (s : State) (r : RegNo) (v : Word) :
    (writeReg s r v).tpc = s.tpc := rfl
@[simp] theorem writeReg_tma (s : State) (r : RegNo) (v : Word) :
    (writeReg s r v).tma = s.tma := rfl
@[simp] theorem writeReg_tsv (s : State) (r : RegNo) (v : Word) :
    (writeReg s r v).tsv = s.tsv := rfl
@[simp] theorem writeReg_cyc (s : State) (r : RegNo) (v : Word) :
    (writeReg s r v).cyc = s.cyc := rfl
@[simp] theorem writeReg_costat (s : State) (r : RegNo) (v : Word) :
    (writeReg s r v).costat = s.costat := rfl
@[simp] theorem writeReg_token (s : State) (r : RegNo) (v : Word) :
    (writeReg s r v).token = s.token := rfl
@[simp] theorem writeReg_prefetch (s : State) (r : RegNo) (v : Word) :
    (writeReg s r v).prefetch = s.prefetch := rfl
@[simp] theorem writeReg_irq (s : State) (r : RegNo) (v : Word) :
    (writeReg s r v).irq = s.irq := rfl
@[simp] theorem writeReg_fpu (s : State) (r : RegNo) (v : Word) :
    (writeReg s r v).fpu = s.fpu := rfl
@[simp] theorem writeReg_mem (s : State) (r : RegNo) (v : Word) :
    (writeReg s r v).mem = s.mem := rfl
@[simp] theorem writeReg_dbg (s : State) (r : RegNo) (v : Word) :
    (writeReg s r v).dbg = s.dbg := rfl
@[simp] theorem writeReg_env (s : State) (r : RegNo) (v : Word) :
    (writeReg s r v).env = s.env := rfl
@[simp] theorem writeReg_devLog (s : State) (r : RegNo) (v : Word) :
    (writeReg s r v).devLog = s.devLog := rfl
@[simp] theorem writeReg_cfg (s : State) (r : RegNo) (v : Word) :
    (writeReg s r v).cfg = s.cfg := rfl

/-! ## `writePc` -/

@[simp] theorem writePc_x (s : State) (a : Word) :
    (writePc s a).x = s.x := rfl
@[simp] theorem writePc_pc (s : State) (a : Word) :
    (writePc s a).pc = evenAddr a := rfl
@[simp] theorem writePc_flags (s : State) (a : Word) :
    (writePc s a).flags = s.flags := rfl
@[simp] theorem writePc_level (s : State) (a : Word) :
    (writePc s a).level = s.level := rfl
@[simp] theorem writePc_olevel (s : State) (a : Word) :
    (writePc s a).olevel = s.olevel := rfl
@[simp] theorem writePc_tpc (s : State) (a : Word) :
    (writePc s a).tpc = s.tpc := rfl
@[simp] theorem writePc_tma (s : State) (a : Word) :
    (writePc s a).tma = s.tma := rfl
@[simp] theorem writePc_tsv (s : State) (a : Word) :
    (writePc s a).tsv = s.tsv := rfl
@[simp] theorem writePc_cyc (s : State) (a : Word) :
    (writePc s a).cyc = s.cyc := rfl
@[simp] theorem writePc_costat (s : State) (a : Word) :
    (writePc s a).costat = s.costat := rfl
@[simp] theorem writePc_token (s : State) (a : Word) :
    (writePc s a).token = s.token := rfl
@[simp] theorem writePc_prefetch (s : State) (a : Word) :
    (writePc s a).prefetch = { s.prefetch with valid := false } := rfl
@[simp] theorem writePc_irq (s : State) (a : Word) :
    (writePc s a).irq = s.irq := rfl
@[simp] theorem writePc_fpu (s : State) (a : Word) :
    (writePc s a).fpu = s.fpu := rfl
@[simp] theorem writePc_mem (s : State) (a : Word) :
    (writePc s a).mem = s.mem := rfl
@[simp] theorem writePc_dbg (s : State) (a : Word) :
    (writePc s a).dbg = s.dbg := rfl
@[simp] theorem writePc_env (s : State) (a : Word) :
    (writePc s a).env = s.env := rfl
@[simp] theorem writePc_devLog (s : State) (a : Word) :
    (writePc s a).devLog = s.devLog := rfl
@[simp] theorem writePc_cfg (s : State) (a : Word) :
    (writePc s a).cfg = s.cfg := rfl

/-! ## `setFlags` -/

@[simp] theorem setFlags_x (s : State) (f : Flags) :
    (setFlags s f).x = s.x := rfl
@[simp] theorem setFlags_pc (s : State) (f : Flags) :
    (setFlags s f).pc = s.pc := rfl
@[simp] theorem setFlags_flags (s : State) (f : Flags) :
    (setFlags s f).flags = f := rfl
@[simp] theorem setFlags_level (s : State) (f : Flags) :
    (setFlags s f).level = s.level := rfl
@[simp] theorem setFlags_olevel (s : State) (f : Flags) :
    (setFlags s f).olevel = s.olevel := rfl
@[simp] theorem setFlags_tpc (s : State) (f : Flags) :
    (setFlags s f).tpc = s.tpc := rfl
@[simp] theorem setFlags_tma (s : State) (f : Flags) :
    (setFlags s f).tma = s.tma := rfl
@[simp] theorem setFlags_tsv (s : State) (f : Flags) :
    (setFlags s f).tsv = s.tsv := rfl
@[simp] theorem setFlags_cyc (s : State) (f : Flags) :
    (setFlags s f).cyc = s.cyc := rfl
@[simp] theorem setFlags_costat (s : State) (f : Flags) :
    (setFlags s f).costat = s.costat := rfl
@[simp] theorem setFlags_token (s : State) (f : Flags) :
    (setFlags s f).token = s.token := rfl
@[simp] theorem setFlags_prefetch (s : State) (f : Flags) :
    (setFlags s f).prefetch = s.prefetch := rfl
@[simp] theorem setFlags_irq (s : State) (f : Flags) :
    (setFlags s f).irq = s.irq := rfl
@[simp] theorem setFlags_fpu (s : State) (f : Flags) :
    (setFlags s f).fpu = s.fpu := rfl
@[simp] theorem setFlags_mem (s : State) (f : Flags) :
    (setFlags s f).mem = s.mem := rfl
@[simp] theorem setFlags_dbg (s : State) (f : Flags) :
    (setFlags s f).dbg = s.dbg := rfl
@[simp] theorem setFlags_env (s : State) (f : Flags) :
    (setFlags s f).env = s.env := rfl
@[simp] theorem setFlags_devLog (s : State) (f : Flags) :
    (setFlags s f).devLog = s.devLog := rfl
@[simp] theorem setFlags_cfg (s : State) (f : Flags) :
    (setFlags s f).cfg = s.cfg := rfl

/-! ## `setV` -/

@[simp] theorem setV_x (s : State) (b : Bool) :
    (setV s b).x = s.x := rfl
@[simp] theorem setV_pc (s : State) (b : Bool) :
    (setV s b).pc = s.pc := rfl
@[simp] theorem setV_flags (s : State) (b : Bool) :
    (setV s b).flags = { s.flags with v := b } := rfl
@[simp] theorem setV_level (s : State) (b : Bool) :
    (setV s b).level = s.level := rfl
@[simp] theorem setV_olevel (s : State) (b : Bool) :
    (setV s b).olevel = s.olevel := rfl
@[simp] theorem setV_tpc (s : State) (b : Bool) :
    (setV s b).tpc = s.tpc := rfl
@[simp] theorem setV_tma (s : State) (b : Bool) :
    (setV s b).tma = s.tma := rfl
@[simp] theorem setV_tsv (s : State) (b : Bool) :
    (setV s b).tsv = s.tsv := rfl
@[simp] theorem setV_cyc (s : State) (b : Bool) :
    (setV s b).cyc = s.cyc := rfl
@[simp] theorem setV_costat (s : State) (b : Bool) :
    (setV s b).costat = s.costat := rfl
@[simp] theorem setV_token (s : State) (b : Bool) :
    (setV s b).token = s.token := rfl
@[simp] theorem setV_prefetch (s : State) (b : Bool) :
    (setV s b).prefetch = s.prefetch := rfl
@[simp] theorem setV_irq (s : State) (b : Bool) :
    (setV s b).irq = s.irq := rfl
@[simp] theorem setV_fpu (s : State) (b : Bool) :
    (setV s b).fpu = s.fpu := rfl
@[simp] theorem setV_mem (s : State) (b : Bool) :
    (setV s b).mem = s.mem := rfl
@[simp] theorem setV_dbg (s : State) (b : Bool) :
    (setV s b).dbg = s.dbg := rfl
@[simp] theorem setV_env (s : State) (b : Bool) :
    (setV s b).env = s.env := rfl
@[simp] theorem setV_devLog (s : State) (b : Bool) :
    (setV s b).devLog = s.devLog := rfl
@[simp] theorem setV_cfg (s : State) (b : Bool) :
    (setV s b).cfg = s.cfg := rfl

/-! ## `writePsw` -/

@[simp] theorem writePsw_x (s : State) (w : Word) :
    (writePsw s w).x = s.x := rfl
@[simp] theorem writePsw_pc (s : State) (w : Word) :
    (writePsw s w).pc = s.pc := rfl
@[simp] theorem writePsw_flags (s : State) (w : Word) :
    (writePsw s w).flags = ⟨w.getLsbD 3, w.getLsbD 2, w.getLsbD 1, w.getLsbD 0, w.extractLsb' 8 8⟩ := rfl
@[simp] theorem writePsw_level (s : State) (w : Word) :
    (writePsw s w).level = w.extractLsb' 28 4 := rfl
@[simp] theorem writePsw_olevel (s : State) (w : Word) :
    (writePsw s w).olevel = w.extractLsb' 24 4 := rfl
@[simp] theorem writePsw_tpc (s : State) (w : Word) :
    (writePsw s w).tpc = s.tpc := rfl
@[simp] theorem writePsw_tma (s : State) (w : Word) :
    (writePsw s w).tma = s.tma := rfl
@[simp] theorem writePsw_tsv (s : State) (w : Word) :
    (writePsw s w).tsv = s.tsv := rfl
@[simp] theorem writePsw_cyc (s : State) (w : Word) :
    (writePsw s w).cyc = s.cyc := rfl
@[simp] theorem writePsw_costat (s : State) (w : Word) :
    (writePsw s w).costat = s.costat := rfl
@[simp] theorem writePsw_token (s : State) (w : Word) :
    (writePsw s w).token = s.token := rfl
@[simp] theorem writePsw_prefetch (s : State) (w : Word) :
    (writePsw s w).prefetch = s.prefetch := rfl
@[simp] theorem writePsw_irq (s : State) (w : Word) :
    (writePsw s w).irq = s.irq := rfl
@[simp] theorem writePsw_fpu (s : State) (w : Word) :
    (writePsw s w).fpu = s.fpu := rfl
@[simp] theorem writePsw_mem (s : State) (w : Word) :
    (writePsw s w).mem = s.mem := rfl
@[simp] theorem writePsw_dbg (s : State) (w : Word) :
    (writePsw s w).dbg = s.dbg := rfl
@[simp] theorem writePsw_env (s : State) (w : Word) :
    (writePsw s w).env = s.env := rfl
@[simp] theorem writePsw_devLog (s : State) (w : Word) :
    (writePsw s w).devLog = s.devLog := rfl
@[simp] theorem writePsw_cfg (s : State) (w : Word) :
    (writePsw s w).cfg = s.cfg := rfl

/-! ## `countAccess` -/

@[simp] theorem countAccess_x (s : State) :
    (countAccess s).x = s.x := rfl
@[simp] theorem countAccess_pc (s : State) :
    (countAccess s).pc = s.pc := rfl
@[simp] theorem countAccess_flags (s : State) :
    (countAccess s).flags = s.flags := rfl
@[simp] theorem countAccess_level (s : State) :
    (countAccess s).level = s.level := rfl
@[simp] theorem countAccess_olevel (s : State) :
    (countAccess s).olevel = s.olevel := rfl
@[simp] theorem countAccess_tpc (s : State) :
    (countAccess s).tpc = s.tpc := rfl
@[simp] theorem countAccess_tma (s : State) :
    (countAccess s).tma = s.tma := rfl
@[simp] theorem countAccess_tsv (s : State) :
    (countAccess s).tsv = s.tsv := rfl
@[simp] theorem countAccess_cyc (s : State) :
    (countAccess s).cyc = s.cyc + 1 := rfl
@[simp] theorem countAccess_costat (s : State) :
    (countAccess s).costat = s.costat := rfl
@[simp] theorem countAccess_token (s : State) :
    (countAccess s).token = s.token := rfl
@[simp] theorem countAccess_prefetch (s : State) :
    (countAccess s).prefetch = s.prefetch := rfl
@[simp] theorem countAccess_irq (s : State) :
    (countAccess s).irq = s.irq := rfl
@[simp] theorem countAccess_fpu (s : State) :
    (countAccess s).fpu = s.fpu := rfl
@[simp] theorem countAccess_mem (s : State) :
    (countAccess s).mem = s.mem := rfl
@[simp] theorem countAccess_dbg (s : State) :
    (countAccess s).dbg = { s.dbg with budget := s.dbg.budget - 1 } := rfl
@[simp] theorem countAccess_env (s : State) :
    (countAccess s).env = s.env := rfl
@[simp] theorem countAccess_devLog (s : State) :
    (countAccess s).devLog = s.devLog := rfl
@[simp] theorem countAccess_cfg (s : State) :
    (countAccess s).cfg = s.cfg := rfl

/-! ## `logDevice` -/

@[simp] theorem logDevice_x (s : State) (e : DevEvent) :
    (logDevice s e).x = s.x := rfl
@[simp] theorem logDevice_pc (s : State) (e : DevEvent) :
    (logDevice s e).pc = s.pc := rfl
@[simp] theorem logDevice_flags (s : State) (e : DevEvent) :
    (logDevice s e).flags = s.flags := rfl
@[simp] theorem logDevice_level (s : State) (e : DevEvent) :
    (logDevice s e).level = s.level := rfl
@[simp] theorem logDevice_olevel (s : State) (e : DevEvent) :
    (logDevice s e).olevel = s.olevel := rfl
@[simp] theorem logDevice_tpc (s : State) (e : DevEvent) :
    (logDevice s e).tpc = s.tpc := rfl
@[simp] theorem logDevice_tma (s : State) (e : DevEvent) :
    (logDevice s e).tma = s.tma := rfl
@[simp] theorem logDevice_tsv (s : State) (e : DevEvent) :
    (logDevice s e).tsv = s.tsv := rfl
@[simp] theorem logDevice_cyc (s : State) (e : DevEvent) :
    (logDevice s e).cyc = s.cyc := rfl
@[simp] theorem logDevice_costat (s : State) (e : DevEvent) :
    (logDevice s e).costat = s.costat := rfl
@[simp] theorem logDevice_token (s : State) (e : DevEvent) :
    (logDevice s e).token = s.token := rfl
@[simp] theorem logDevice_prefetch (s : State) (e : DevEvent) :
    (logDevice s e).prefetch = s.prefetch := rfl
@[simp] theorem logDevice_irq (s : State) (e : DevEvent) :
    (logDevice s e).irq = s.irq := rfl
@[simp] theorem logDevice_fpu (s : State) (e : DevEvent) :
    (logDevice s e).fpu = s.fpu := rfl
@[simp] theorem logDevice_mem (s : State) (e : DevEvent) :
    (logDevice s e).mem = s.mem := rfl
@[simp] theorem logDevice_dbg (s : State) (e : DevEvent) :
    (logDevice s e).dbg = s.dbg := rfl
@[simp] theorem logDevice_env (s : State) (e : DevEvent) :
    (logDevice s e).env = s.env := rfl
@[simp] theorem logDevice_devLog (s : State) (e : DevEvent) :
    (logDevice s e).devLog = e :: s.devLog := rfl
@[simp] theorem logDevice_cfg (s : State) (e : DevEvent) :
    (logDevice s e).cfg = s.cfg := rfl

/-! ## `consumeToken` -/

@[simp] theorem consumeToken_x (s : State) :
    (consumeToken s).x = s.x := rfl
@[simp] theorem consumeToken_pc (s : State) :
    (consumeToken s).pc = s.pc := rfl
@[simp] theorem consumeToken_flags (s : State) :
    (consumeToken s).flags = s.flags := rfl
@[simp] theorem consumeToken_level (s : State) :
    (consumeToken s).level = s.level := rfl
@[simp] theorem consumeToken_olevel (s : State) :
    (consumeToken s).olevel = s.olevel := rfl
@[simp] theorem consumeToken_tpc (s : State) :
    (consumeToken s).tpc = s.tpc := rfl
@[simp] theorem consumeToken_tma (s : State) :
    (consumeToken s).tma = s.tma := rfl
@[simp] theorem consumeToken_tsv (s : State) :
    (consumeToken s).tsv = s.tsv := rfl
@[simp] theorem consumeToken_cyc (s : State) :
    (consumeToken s).cyc = s.cyc := rfl
@[simp] theorem consumeToken_costat (s : State) :
    (consumeToken s).costat = s.costat := rfl
@[simp] theorem consumeToken_token (s : State) :
    (consumeToken s).token = { s.token with valid := false } := rfl
@[simp] theorem consumeToken_prefetch (s : State) :
    (consumeToken s).prefetch = s.prefetch := rfl
@[simp] theorem consumeToken_irq (s : State) :
    (consumeToken s).irq = s.irq := rfl
@[simp] theorem consumeToken_fpu (s : State) :
    (consumeToken s).fpu = s.fpu := rfl
@[simp] theorem consumeToken_mem (s : State) :
    (consumeToken s).mem = s.mem := rfl
@[simp] theorem consumeToken_dbg (s : State) :
    (consumeToken s).dbg = s.dbg := rfl
@[simp] theorem consumeToken_env (s : State) :
    (consumeToken s).env = s.env := rfl
@[simp] theorem consumeToken_devLog (s : State) :
    (consumeToken s).devLog = s.devLog := rfl
@[simp] theorem consumeToken_cfg (s : State) :
    (consumeToken s).cfg = s.cfg := rfl

/-! ## `advancePc` -/

@[simp] theorem advancePc_x (s : State) :
    (advancePc s).x = s.x := rfl
@[simp] theorem advancePc_pc (s : State) :
    (advancePc s).pc = s.pc + 2 := rfl
@[simp] theorem advancePc_flags (s : State) :
    (advancePc s).flags = s.flags := rfl
@[simp] theorem advancePc_level (s : State) :
    (advancePc s).level = s.level := rfl
@[simp] theorem advancePc_olevel (s : State) :
    (advancePc s).olevel = s.olevel := rfl
@[simp] theorem advancePc_tpc (s : State) :
    (advancePc s).tpc = s.tpc := rfl
@[simp] theorem advancePc_tma (s : State) :
    (advancePc s).tma = s.tma := rfl
@[simp] theorem advancePc_tsv (s : State) :
    (advancePc s).tsv = s.tsv := rfl
@[simp] theorem advancePc_cyc (s : State) :
    (advancePc s).cyc = s.cyc := rfl
@[simp] theorem advancePc_costat (s : State) :
    (advancePc s).costat = s.costat := rfl
@[simp] theorem advancePc_token (s : State) :
    (advancePc s).token = s.token := rfl
@[simp] theorem advancePc_prefetch (s : State) :
    (advancePc s).prefetch = s.prefetch := rfl
@[simp] theorem advancePc_irq (s : State) :
    (advancePc s).irq = s.irq := rfl
@[simp] theorem advancePc_fpu (s : State) :
    (advancePc s).fpu = s.fpu := rfl
@[simp] theorem advancePc_mem (s : State) :
    (advancePc s).mem = s.mem := rfl
@[simp] theorem advancePc_dbg (s : State) :
    (advancePc s).dbg = s.dbg := rfl
@[simp] theorem advancePc_env (s : State) :
    (advancePc s).env = s.env := rfl
@[simp] theorem advancePc_devLog (s : State) :
    (advancePc s).devLog = s.devLog := rfl
@[simp] theorem advancePc_cfg (s : State) :
    (advancePc s).cfg = s.cfg := rfl

/-! ## `trapEntry` -/

@[simp] theorem trapEntry_x (s : State) (v p : Word) (a : Option Word) :
    (trapEntry s v p a).x = s.x := rfl
@[simp] theorem trapEntry_pc (s : State) (v p : Word) (a : Option Word) :
    (trapEntry s v p a).pc = evenAddr v := rfl
@[simp] theorem trapEntry_flags (s : State) (v p : Word) (a : Option Word) :
    (trapEntry s v p a).flags = s.flags := rfl
@[simp] theorem trapEntry_level (s : State) (v p : Word) (a : Option Word) :
    (trapEntry s v p a).level = 0 := rfl
@[simp] theorem trapEntry_olevel (s : State) (v p : Word) (a : Option Word) :
    (trapEntry s v p a).olevel = s.level := rfl
@[simp] theorem trapEntry_tpc (s : State) (v p : Word) (a : Option Word) :
    (trapEntry s v p a).tpc = p := rfl
@[simp] theorem trapEntry_tma (s : State) (v p : Word) (a : Option Word) :
    (trapEntry s v p a).tma = a.getD s.tma := rfl
@[simp] theorem trapEntry_tsv (s : State) (v p : Word) (a : Option Word) :
    (trapEntry s v p a).tsv = s.tsv := rfl
@[simp] theorem trapEntry_cyc (s : State) (v p : Word) (a : Option Word) :
    (trapEntry s v p a).cyc = s.cyc := rfl
@[simp] theorem trapEntry_costat (s : State) (v p : Word) (a : Option Word) :
    (trapEntry s v p a).costat = s.costat := rfl
@[simp] theorem trapEntry_token (s : State) (v p : Word) (a : Option Word) :
    (trapEntry s v p a).token = s.token := rfl
@[simp] theorem trapEntry_prefetch (s : State) (v p : Word) (a : Option Word) :
    (trapEntry s v p a).prefetch = { s.prefetch with valid := false } := rfl
@[simp] theorem trapEntry_irq (s : State) (v p : Word) (a : Option Word) :
    (trapEntry s v p a).irq = s.irq := rfl
@[simp] theorem trapEntry_fpu (s : State) (v p : Word) (a : Option Word) :
    (trapEntry s v p a).fpu = s.fpu := rfl
@[simp] theorem trapEntry_mem (s : State) (v p : Word) (a : Option Word) :
    (trapEntry s v p a).mem = s.mem := rfl
@[simp] theorem trapEntry_dbg (s : State) (v p : Word) (a : Option Word) :
    (trapEntry s v p a).dbg = s.dbg := rfl
@[simp] theorem trapEntry_env (s : State) (v p : Word) (a : Option Word) :
    (trapEntry s v p a).env = s.env := rfl
@[simp] theorem trapEntry_devLog (s : State) (v p : Word) (a : Option Word) :
    (trapEntry s v p a).devLog = s.devLog := rfl
@[simp] theorem trapEntry_cfg (s : State) (v p : Word) (a : Option Word) :
    (trapEntry s v p a).cfg = s.cfg := rfl

/-! ## `returnFromTrap` -/

@[simp] theorem returnFromTrap_x (s : State) (v : Word) :
    (returnFromTrap s v).x = s.x := rfl
@[simp] theorem returnFromTrap_pc (s : State) (v : Word) :
    (returnFromTrap s v).pc = evenAddr v := rfl
@[simp] theorem returnFromTrap_flags (s : State) (v : Word) :
    (returnFromTrap s v).flags = s.flags := rfl
@[simp] theorem returnFromTrap_level (s : State) (v : Word) :
    (returnFromTrap s v).level = s.olevel := rfl
@[simp] theorem returnFromTrap_olevel (s : State) (v : Word) :
    (returnFromTrap s v).olevel = s.olevel := rfl
@[simp] theorem returnFromTrap_tpc (s : State) (v : Word) :
    (returnFromTrap s v).tpc = s.tpc := rfl
@[simp] theorem returnFromTrap_tma (s : State) (v : Word) :
    (returnFromTrap s v).tma = s.tma := rfl
@[simp] theorem returnFromTrap_tsv (s : State) (v : Word) :
    (returnFromTrap s v).tsv = s.tsv := rfl
@[simp] theorem returnFromTrap_cyc (s : State) (v : Word) :
    (returnFromTrap s v).cyc = s.cyc := rfl
@[simp] theorem returnFromTrap_costat (s : State) (v : Word) :
    (returnFromTrap s v).costat = s.costat := rfl
@[simp] theorem returnFromTrap_token (s : State) (v : Word) :
    (returnFromTrap s v).token = s.token := rfl
@[simp] theorem returnFromTrap_prefetch (s : State) (v : Word) :
    (returnFromTrap s v).prefetch = { s.prefetch with valid := false } := rfl
@[simp] theorem returnFromTrap_irq (s : State) (v : Word) :
    (returnFromTrap s v).irq = s.irq := rfl
@[simp] theorem returnFromTrap_fpu (s : State) (v : Word) :
    (returnFromTrap s v).fpu = s.fpu := rfl
@[simp] theorem returnFromTrap_mem (s : State) (v : Word) :
    (returnFromTrap s v).mem = s.mem := rfl
@[simp] theorem returnFromTrap_dbg (s : State) (v : Word) :
    (returnFromTrap s v).dbg = s.dbg := rfl
@[simp] theorem returnFromTrap_env (s : State) (v : Word) :
    (returnFromTrap s v).env = s.env := rfl
@[simp] theorem returnFromTrap_devLog (s : State) (v : Word) :
    (returnFromTrap s v).devLog = s.devLog := rfl
@[simp] theorem returnFromTrap_cfg (s : State) (v : Word) :
    (returnFromTrap s v).cfg = s.cfg := rfl

/-! ## `dropPrefetch` -/

@[simp] theorem dropPrefetch_x (s : State) :
    (dropPrefetch s).x = s.x := rfl
@[simp] theorem dropPrefetch_pc (s : State) :
    (dropPrefetch s).pc = s.pc := rfl
@[simp] theorem dropPrefetch_flags (s : State) :
    (dropPrefetch s).flags = s.flags := rfl
@[simp] theorem dropPrefetch_level (s : State) :
    (dropPrefetch s).level = s.level := rfl
@[simp] theorem dropPrefetch_olevel (s : State) :
    (dropPrefetch s).olevel = s.olevel := rfl
@[simp] theorem dropPrefetch_tpc (s : State) :
    (dropPrefetch s).tpc = s.tpc := rfl
@[simp] theorem dropPrefetch_tma (s : State) :
    (dropPrefetch s).tma = s.tma := rfl
@[simp] theorem dropPrefetch_tsv (s : State) :
    (dropPrefetch s).tsv = s.tsv := rfl
@[simp] theorem dropPrefetch_cyc (s : State) :
    (dropPrefetch s).cyc = s.cyc := rfl
@[simp] theorem dropPrefetch_costat (s : State) :
    (dropPrefetch s).costat = s.costat := rfl
@[simp] theorem dropPrefetch_token (s : State) :
    (dropPrefetch s).token = s.token := rfl
@[simp] theorem dropPrefetch_prefetch (s : State) :
    (dropPrefetch s).prefetch = { s.prefetch with valid := false } := rfl
@[simp] theorem dropPrefetch_irq (s : State) :
    (dropPrefetch s).irq = s.irq := rfl
@[simp] theorem dropPrefetch_fpu (s : State) :
    (dropPrefetch s).fpu = s.fpu := rfl
@[simp] theorem dropPrefetch_mem (s : State) :
    (dropPrefetch s).mem = s.mem := rfl
@[simp] theorem dropPrefetch_dbg (s : State) :
    (dropPrefetch s).dbg = s.dbg := rfl
@[simp] theorem dropPrefetch_env (s : State) :
    (dropPrefetch s).env = s.env := rfl
@[simp] theorem dropPrefetch_devLog (s : State) :
    (dropPrefetch s).devLog = s.devLog := rfl
@[simp] theorem dropPrefetch_cfg (s : State) :
    (dropPrefetch s).cfg = s.cfg := rfl

/-! ## `resume` -/

@[simp] theorem resume_x (s : State) :
    (resume s).x = s.x := rfl
@[simp] theorem resume_pc (s : State) :
    (resume s).pc = s.pc := rfl
@[simp] theorem resume_flags (s : State) :
    (resume s).flags = s.flags := rfl
@[simp] theorem resume_level (s : State) :
    (resume s).level = s.level := rfl
@[simp] theorem resume_olevel (s : State) :
    (resume s).olevel = s.olevel := rfl
@[simp] theorem resume_tpc (s : State) :
    (resume s).tpc = s.tpc := rfl
@[simp] theorem resume_tma (s : State) :
    (resume s).tma = s.tma := rfl
@[simp] theorem resume_tsv (s : State) :
    (resume s).tsv = s.tsv := rfl
@[simp] theorem resume_cyc (s : State) :
    (resume s).cyc = s.cyc := rfl
@[simp] theorem resume_costat (s : State) :
    (resume s).costat = s.costat := rfl
@[simp] theorem resume_token (s : State) :
    (resume s).token = s.token := rfl
@[simp] theorem resume_prefetch (s : State) :
    (resume s).prefetch = s.prefetch := rfl
@[simp] theorem resume_irq (s : State) :
    (resume s).irq = s.irq := rfl
@[simp] theorem resume_fpu (s : State) :
    (resume s).fpu = s.fpu := rfl
@[simp] theorem resume_mem (s : State) :
    (resume s).mem = s.mem := rfl
@[simp] theorem resume_dbg (s : State) :
    (resume s).dbg = { s.dbg with armed := false } := rfl
@[simp] theorem resume_env (s : State) :
    (resume s).env = s.env := rfl
@[simp] theorem resume_devLog (s : State) :
    (resume s).devLog = s.devLog := rfl
@[simp] theorem resume_cfg (s : State) :
    (resume s).cfg = s.cfg := rfl

/-! ## `endStep` -/

@[simp] theorem endStep_x (s : State) :
    (endStep s).x = s.x := rfl
@[simp] theorem endStep_pc (s : State) :
    (endStep s).pc = s.pc := rfl
@[simp] theorem endStep_flags (s : State) :
    (endStep s).flags = s.flags := rfl
@[simp] theorem endStep_level (s : State) :
    (endStep s).level = s.level := rfl
@[simp] theorem endStep_olevel (s : State) :
    (endStep s).olevel = s.olevel := rfl
@[simp] theorem endStep_tpc (s : State) :
    (endStep s).tpc = s.tpc := rfl
@[simp] theorem endStep_tma (s : State) :
    (endStep s).tma = s.tma := rfl
@[simp] theorem endStep_tsv (s : State) :
    (endStep s).tsv = s.tsv := rfl
@[simp] theorem endStep_cyc (s : State) :
    (endStep s).cyc = s.cyc := rfl
@[simp] theorem endStep_costat (s : State) :
    (endStep s).costat = s.costat := rfl
@[simp] theorem endStep_token (s : State) :
    (endStep s).token = s.token := rfl
@[simp] theorem endStep_prefetch (s : State) :
    (endStep s).prefetch = s.prefetch := rfl
@[simp] theorem endStep_irq (s : State) :
    (endStep s).irq = s.irq := rfl
@[simp] theorem endStep_fpu (s : State) :
    (endStep s).fpu = s.fpu := rfl
@[simp] theorem endStep_mem (s : State) :
    (endStep s).mem = s.mem := rfl
@[simp] theorem endStep_dbg (s : State) :
    (endStep s).dbg = { s.dbg with armed := true, budget := if s.pc = 0 then 0 else s.dbg.budget } := rfl
@[simp] theorem endStep_env (s : State) :
    (endStep s).env = s.env := rfl
@[simp] theorem endStep_devLog (s : State) :
    (endStep s).devLog = s.devLog := rfl
@[simp] theorem endStep_cfg (s : State) :
    (endStep s).cfg = s.cfg := rfl

/-! ## `pauseSignal` -/

@[simp] theorem pauseSignal_x (s : State) :
    (pauseSignal s).x = s.x := rfl
@[simp] theorem pauseSignal_pc (s : State) :
    (pauseSignal s).pc = s.pc := rfl
@[simp] theorem pauseSignal_flags (s : State) :
    (pauseSignal s).flags = s.flags := rfl
@[simp] theorem pauseSignal_level (s : State) :
    (pauseSignal s).level = s.level := rfl
@[simp] theorem pauseSignal_olevel (s : State) :
    (pauseSignal s).olevel = s.olevel := rfl
@[simp] theorem pauseSignal_tpc (s : State) :
    (pauseSignal s).tpc = s.tpc := rfl
@[simp] theorem pauseSignal_tma (s : State) :
    (pauseSignal s).tma = s.tma := rfl
@[simp] theorem pauseSignal_tsv (s : State) :
    (pauseSignal s).tsv = s.tsv := rfl
@[simp] theorem pauseSignal_cyc (s : State) :
    (pauseSignal s).cyc = s.cyc := rfl
@[simp] theorem pauseSignal_costat (s : State) :
    (pauseSignal s).costat = s.costat := rfl
@[simp] theorem pauseSignal_token (s : State) :
    (pauseSignal s).token = s.token := rfl
@[simp] theorem pauseSignal_prefetch (s : State) :
    (pauseSignal s).prefetch = s.prefetch := rfl
@[simp] theorem pauseSignal_irq (s : State) :
    (pauseSignal s).irq = s.irq := rfl
@[simp] theorem pauseSignal_fpu (s : State) :
    (pauseSignal s).fpu = s.fpu := rfl
@[simp] theorem pauseSignal_mem (s : State) :
    (pauseSignal s).mem = s.mem := rfl
@[simp] theorem pauseSignal_dbg (s : State) :
    (pauseSignal s).dbg = { s.dbg with paused := true, snapshot := s.cyc } := rfl
@[simp] theorem pauseSignal_env (s : State) :
    (pauseSignal s).env = s.env := rfl
@[simp] theorem pauseSignal_devLog (s : State) :
    (pauseSignal s).devLog = s.devLog := rfl
@[simp] theorem pauseSignal_cfg (s : State) :
    (pauseSignal s).cfg = s.cfg := rfl

end Sys2Proof.Machine
end

