-- ==== Sys2Proof/Laws/Ops.lean ====
section
/-!
SUPPORT. For each shared operation one lemma that says everything it can do; the provers cite it instead of unfolding the operation.
-/

namespace Sys2Proof.Machine

/-! ## Results that reach a register and the flags -/

theorem regWritten_writeReg (s : State) (d : RegNo) (v : Word) : RegWritten s (writeReg s d v) d v :=
  fun r => readReg_writeReg s d r v

/-- A result written to a register computes, leaving the flags alone. -/
theorem finishReg_computes (s : State) (d : RegNo) (v : Word) :
    Computes s (finishReg s d v) d v (fun f => f = s.flags) :=
  ⟨_, rfl, regWritten_writeReg s d v, rfl, rfl, ⟨rfl, rfl, rfl, rfl, rfl, rfl, rfl, rfl, rfl, rfl, rfl, rfl, rfl, rfl⟩,
    ⟨fun _ => rfl, rfl, rfl, rfl, rfl⟩, ⟨rfl, rfl⟩⟩

/-- A result written to a register with new flags computes. -/
theorem setFlags_computes (s : State) (d : RegNo) (v : Word) (f : Flags) :
    Computes s (.next (setFlags (writeReg s d v) f)) d v (fun g => g = f) :=
  ⟨_, rfl, regWritten_writeReg s d v, rfl, rfl, ⟨rfl, rfl, rfl, rfl, rfl, rfl, rfl, rfl, rfl, rfl, rfl, rfl, rfl, rfl⟩,
    ⟨fun _ => rfl, rfl, rfl, rfl, rfl⟩, ⟨rfl, rfl⟩⟩

theorem finishAdd_computes (s : State) (d : RegNo) (t : AddResult) :
    Computes s (finishAdd s d t) d t.sum (fun f => f = addFlags t) := setFlags_computes s d t.sum _

theorem finishNz_computes (s : State) (d : RegNo) (r : Word) :
    Computes s (finishNz s d r) d r (fun f => f = nzFlags r) := setFlags_computes s d r _

/-- What is computed can be said in weaker or equal terms. -/
theorem Computes.mono {s : State} {o : Result} {d : RegNo} {v w : Word} {P Q : Flags → Prop} (h : Computes s o d v P)
    (hv : v = w) (hf : ∀ f, P f → Q f) : Computes s o d w Q := by
  obtain ⟨t, h0, h1, h2, h3⟩ := h
  exact ⟨t, h0, hv ▸ h1, hf _ h2, h3⟩

/-! ## Control transfers -/

theorem writePc_wentTo (s : State) (a : Word) : WentTo (writePc s a) a := ⟨rfl, rfl⟩

theorem writePc_jumps (s : State) (a : Word) : Jumps s (.next (writePc s a)) a :=
  ⟨_, rfl, fun _ => rfl, rfl, rfl, ⟨rfl, rfl, rfl, rfl, rfl, rfl, rfl, rfl, rfl, rfl, rfl, rfl, rfl, rfl⟩,
    ⟨fun _ => rfl, rfl, rfl, rfl, rfl⟩, writePc_wentTo s a⟩

/-! ## The bus -/

/-- The only read that faults is one of an unmapped word. -/
theorem busRead_none_iff (s : State) (ea : Word) : busRead s ea = none ↔ ¬ readable s.cfg ea := by
  unfold busRead readable
  dsimp only
  split <;> simp_all

/-- The only writes that fault are those of an unmapped or read-only word. -/
theorem busWrite_none_iff (s : State) (ea v : Word) : busWrite s ea v = none ↔ ¬ writable s.cfg ea := by
  unfold busWrite writable
  dsimp only
  split <;> simp_all

/-- Everything a successful read can do. -/
theorem busRead_cases {s t : State} {ea v : Word} (h : busRead s ea = some (v, t)) :
    ((region s.cfg (wordAddr ea).toNat = .rom ∨ region s.cfg (wordAddr ea).toNat = .ram) ∧
      v = memReadWord s.mem (wordAddr ea).toNat ∧ t = countAccess s) ∨
    (∃ dev off, region s.cfg (wordAddr ea).toNat = .device dev off ∧
      v = Config.deviceAnswer s.devLog dev off ∧ t = countAccess (logDevice s (.read dev off))) ∨
    (region s.cfg (wordAddr ea).toNat = .openBus ∧ v = s.cfg.openBusValue ∧ t = countAccess s) := by
  unfold busRead at h
  dsimp only at h
  split at h
  · injection h with h; injection h with h1 h2; exact .inl ⟨.inl ‹_›, h1.symm, h2.symm⟩
  · injection h with h; injection h with h1 h2; exact .inl ⟨.inr ‹_›, h1.symm, h2.symm⟩
  · cases h
  · injection h with h; injection h with h1 h2; exact .inr (.inl ⟨_, _, ‹_›, h1.symm, h2.symm⟩)
  · injection h with h; injection h with h1 h2; exact .inr (.inr ⟨‹_›, h1.symm, h2.symm⟩)

/-- Everything a successful write can do. -/
theorem busWrite_cases {s t : State} {ea v : Word} (h : busWrite s ea v = some t) :
    (region s.cfg (wordAddr ea).toNat = .ram ∧ t = countAccess { s with
      mem := memWriteWord s.mem (wordAddr ea).toNat v, token := breakToken s.token (wordAddr ea) }) ∨
    (∃ dev off, region s.cfg (wordAddr ea).toNat = .device dev off ∧
      t = countAccess { logDevice s (.write dev off v) with token := breakToken s.token (wordAddr ea) }) ∨
    (region s.cfg (wordAddr ea).toNat = .openBus ∧
      t = countAccess { s with token := breakToken s.token (wordAddr ea) }) := by
  unfold busWrite at h
  dsimp only at h
  split at h
  · cases h
  · exact .inl ⟨‹_›, (Option.some.inj h).symm⟩
  · cases h
  · exact .inr (.inl ⟨_, _, ‹_›, (Option.some.inj h).symm⟩)
  · exact .inr (.inr ⟨‹_›, (Option.some.inj h).symm⟩)

theorem breakToken_addr (t : Token) (a : Word) : (breakToken t a).addr = t.addr := by
  unfold breakToken; split <;> rfl

/-- A successful read changes nothing but the counters and the device history. -/
theorem busRead_frame {s t : State} {ea v : Word} (h : busRead s ea = some (v, t)) :
    ∃ log, t = { countAccess s with devLog := log } := by
  obtain ⟨-, -, rfl⟩ | ⟨_, _, -, -, rfl⟩ | ⟨-, -, rfl⟩ := busRead_cases h
  · exact ⟨_, rfl⟩
  · exact ⟨_, rfl⟩
  · exact ⟨_, rfl⟩

/-- A successful write changes nothing but memory, the token, the counters and the device history. -/
theorem busWrite_frame {s t : State} {ea v : Word} (h : busWrite s ea v = some t) :
    ∃ m log, t = { countAccess s with mem := m, token := breakToken s.token (wordAddr ea), devLog := log } := by
  obtain ⟨-, rfl⟩ | ⟨_, _, -, rfl⟩ | ⟨-, rfl⟩ := busWrite_cases h
  · exact ⟨_, _, rfl⟩
  · exact ⟨_, _, rfl⟩
  · exact ⟨_, _, rfl⟩

/-! ## Exceptions -/

/-- The entry of an exception, whatever the instruction. -/
theorem takeException_entry (s : State) (e : Exc) (p : Word) :
    TakesException s (.next (takeException s e p)) (excVector e) p ((excAddress e).getD s.tma) :=
  ⟨_, rfl, rfl, rfl, rfl, rfl, ⟨rfl, rfl⟩, fun _ => rfl, rfl, rfl, ⟨fun _ => rfl, rfl, rfl, rfl, rfl⟩, rfl, rfl, rfl, rfl, rfl, rfl⟩

/-! ## Fetch -/

/-- Everything the fetch of a halfword can do. -/
theorem fetchHalf_cases {s t : State} {h : Half} (hf : fetchHalf s = some (h, t)) :
    (s.prefetch.valid = true ∧ s.prefetch.addr = wordAddr s.pc ∧ h = pickHalf s.prefetch.word s.pc ∧ t = advancePc s) ∨
    (∃ w u, busRead s s.pc = some (w, u) ∧ h = pickHalf w s.pc ∧
      t = advancePc { u with prefetch := ⟨true, wordAddr s.pc, w⟩ }) := by
  unfold fetchHalf at hf
  split at hf
  · rename_i hb
    simp only [Bool.and_eq_true, beq_iff_eq] at hb
    injection hf with hf; injection hf with h1 h2
    exact .inl ⟨hb.1, hb.2, h1.symm, h2.symm⟩
  · split at hf
    · cases hf
    · injection hf with hf; injection hf with h1 h2
      exact .inr ⟨_, _, ‹_›, h1.symm, h2.symm⟩

/-- Everything a step can do. -/
theorem step_cases {s : State} {u : State} (h : step s = .next u) :
    configOk s.cfg = true ∧ ∃ t w, monitorTurn s = some t ∧ engineTurn (environmentTurn t) = .next w ∧ u = endStep w := by
  unfold step at h
  split at h
  · refine ⟨‹_›, ?_⟩
    split at h
    · cases h
    · rename_i t ht
      split at h
      · rename_i w hw
        injection h with h
        exact ⟨t, w, ht, hw, h.symm⟩
      · cases h
      · cases h
  · cases h

/-- Everything the engine's turn can do: an interrupt entry, a fetch fault, or one instruction. -/
theorem engineTurn_cases {s u : State} (h : engineTurn s = .next u) :
    (∃ i, pendingLine s = some i ∧ u = interruptEntry s i) ∨
    (pendingLine s = none ∧ ∃ t a, fetchInstr s = .fault t a ∧ u = takeException t (.busFault a) s.pc) ∨
    (pendingLine s = none ∧ ∃ i t, fetchInstr s = .instr i t ∧ exec i t = .next u) := by
  unfold engineTurn at h
  split at h
  · injection h with h; exact .inl ⟨_, ‹_›, h.symm⟩
  · unfold runInstruction at h
    split at h
    · exact .inr (.inr ⟨‹_›, _, _, ‹_›, h⟩)
    · injection h with h; exact .inr (.inl ⟨‹_›, _, _, ‹_›, h.symm⟩)

end Sys2Proof.Machine
end

