-- ==== Sys2Proof/Laws/Exec.lean ====
section
/-!
SUPPORT. What the meanings that split into cases can do, and the inversion of `exec`: every proof about all instructions goes through it.
-/

namespace Sys2Proof.Machine

/-- STOREC under the token, at a writable word. -/
theorem storec_success (s : State) (r x : RegNo) (h1 : s.token.valid = true) (h2 : s.token.addr = wordAddr (eaShort s x)) (t : State) (h : busWrite s (eaShort s x) (readReg s r) = some t) :
   execStorec r x s = .next (consumeToken (setV t false)) := by
  unfold execStorec; simp only [h1, h2]; simp [h]

/-- STOREC without the token. -/
theorem storec_failure (s : State) (r x : RegNo) (h : ¬ (s.token.valid = true ∧ s.token.addr = wordAddr (eaShort s x))) :
   execStorec r x s = .next (consumeToken (setV s true)) := by
  unfold execStorec
  have : (s.token.valid && s.token.addr == wordAddr (eaShort s x)) = false := by
    rw [Bool.eq_false_iff]; intro e; apply h; simpa using e
  simp only [this]; rfl

/-- A load of a 16-bit instruction reads, or takes BusFault. -/
theorem load16_cases {s t : State} {ea : Word} {fin} (h : load16 s ea fin = .next t) :
   (∃ v u, busRead s ea = some (v, u) ∧ fin u v = .next t) ∨ (busRead s ea = none ∧ t = takeException s (.busFault ea) (pcInst16 s)) := by
  unfold load16 at h; split at h
  · exact .inl ⟨_, _, ‹_›, h⟩
  · injection h with h; exact .inr ⟨‹_›, h.symm⟩

/-- A load of a 32-bit instruction reads, or takes BusFault. -/
theorem load32_cases {s t : State} {ea : Word} {fin} (h : load32 s ea fin = .next t) :
   (∃ v u, busRead s ea = some (v, u) ∧ fin u v = .next t) ∨ (busRead s ea = none ∧ t = takeException s (.busFault ea) (pcInst32 s)) := by
  unfold load32 at h; split at h
  · exact .inl ⟨_, _, ‹_›, h⟩
  · injection h with h; exact .inr ⟨‹_›, h.symm⟩

/-- STORE writes, or takes BusFault. -/
theorem store_cases {s t : State} {r x : RegNo} {d} (h : execStore r x d s = .next t) :
   (busWrite s (eaLong s x d) (readReg s r) = some t) ∨ (busWrite s (eaLong s x d) (readReg s r) = none ∧ t = takeException s (.busFault (eaLong s x d)) (pcInst32 s)) := by
  unfold execStore at h; split at h
  · injection h with h; subst h; exact .inl ‹_›
  · injection h with h; exact .inr ⟨‹_›, h.symm⟩

/-- STORES writes, or takes BusFault. -/
theorem stores_cases {s t : State} {r x : RegNo} (h : execStores r x s = .next t) :
   (busWrite s (eaShort s x) (readReg s r) = some t) ∨ (busWrite s (eaShort s x) (readReg s r) = none ∧ t = takeException s (.busFault (eaShort s x)) (pcInst16 s)) := by
  unfold execStores at h; split at h
  · injection h with h; subst h; exact .inl ‹_›
  · injection h with h; exact .inr ⟨‹_›, h.symm⟩

/-- STOREC under the token writes or takes BusFault; without it, it fails. -/
theorem storec_cases {s t : State} {r x : RegNo} (h : execStorec r x s = .next t) :
   ((s.token.valid = true ∧ s.token.addr = wordAddr (eaShort s x)) ∧ ((∃ u, busWrite s (eaShort s x) (readReg s r) = some u ∧ t = consumeToken (setV u false)) ∨ (busWrite s (eaShort s x) (readReg s r) = none ∧ t = takeException s (.busFault (eaShort s x)) (pcInst16 s)))) ∨
   (¬(s.token.valid = true ∧ s.token.addr = wordAddr (eaShort s x)) ∧ t = consumeToken (setV s true)) := by
  by_cases c : s.token.valid = true ∧ s.token.addr = wordAddr (eaShort s x)
  · left; refine ⟨c, ?_⟩
    unfold execStorec at h; simp only [c.1, c.2] at h
    simp only [beq_self_eq_true, Bool.and_true, if_true] at h
    split at h
    · injection h with h; exact .inl ⟨_, ‹_›, h.symm⟩
    · injection h with h; exact .inr ⟨‹_›, h.symm⟩
  · right; refine ⟨c, ?_⟩
    rw [storec_failure s r x c] at h
    injection h with h; exact h.symm

/-- CPUGET traps, returns, or writes its register. -/
theorem cpuget_cases {s t : State} {d : RegNo} {k} (h : execCpuget d k s = .next t) :
   (t = takeException s .illegalInstruction (pcInst16 s)) ∨ (unprivileged s = true ∧ t = takeException s .privilegeViolation (pcInst16 s)) ∨
   (∃ v, t = returnFromTrap s v ∧ unprivileged s = false) ∨ (∃ v, t = writeReg s d v) := by
  unfold execCpuget at h
  split at h
  · injection h with h; exact .inl h.symm
  · split at h
    · injection h with h; rename_i hh; rw [Bool.and_eq_true] at hh; exact .inr (.inl ⟨hh.1, h.symm⟩)
    · split at h
      · injection h with h; rename_i v _ hh hd; subst hd; refine .inr (.inr (.inl ⟨v, h.symm, ?_⟩)); simpa using hh
      · injection h with h; exact .inr (.inr (.inr ⟨_, h.symm⟩))

/-- CPUSET traps, or writes its special register. -/
theorem cpuset_cases {s t : State} {r : RegNo} {k} (h : execCpuset r k s = .next t) :
   (t = takeException s .illegalInstruction (pcInst16 s)) ∨ (unprivileged s = true ∧ t = takeException s .privilegeViolation (pcInst16 s)) ∨
   (unprivileged s = false ∧ writeSpecial s k (readReg s r) = some t) := by
  unfold execCpuset at h
  split at h
  · injection h with h; exact .inl h.symm
  · split at h
    · injection h with h; exact .inr (.inl ⟨‹_›, h.symm⟩)
    · injection h with h; subst h; refine .inr (.inr ⟨?_, ‹_›⟩); exact Bool.eq_false_iff.2 ‹_›

/-- COGET reads COSTAT, reads the unit, or traps. -/
theorem coget_cases {s t : State} {d : RegNo} {k} (h : execCoget d k s = .next t) :
   (∃ v, t = writeReg s d v) ∨ (∃ v f g, t = setFlags { writeReg s d v with fpu := g } f) ∨ t = takeException s .missingCoprocessor (pcInst16 s) := by
  unfold execCoget at h
  split at h
  · injection h with h; exact .inl ⟨_, h.symm⟩
  · split at h
    · injection h with h; exact .inr (.inl ⟨_, _, _, h.symm⟩)
    · injection h with h; exact .inr (.inr h.symm)

/-- COSET writes COSTAT, writes the unit, or traps. -/
theorem coset_cases {s t : State} {d : RegNo} {k} (h : execCoset d k s = .next t) :
   (unprivileged s = false ∧ ∃ v, t = { s with costat := v }) ∨ (∃ g, t = { s with fpu := g }) ∨ t = takeException s .missingCoprocessor (pcInst16 s) ∨ (unprivileged s = true ∧ t = takeException s .privilegeViolation (pcInst16 s)) := by
  unfold execCoset at h
  split at h
  · split at h
    · injection h with h; exact .inr (.inr (.inr ⟨‹_›, h.symm⟩))
    · injection h with h; refine .inl ⟨?_, _, h.symm⟩; exact Bool.eq_false_iff.2 ‹_›
  · split at h
    · injection h with h; exact .inr (.inl ⟨_, h.symm⟩)
    · injection h with h; exact .inr (.inr (.inl h.symm))

/-- A branch changes nothing or writes the pc. -/
theorem branch_cases {s t : State} {c d} (h : branchOn c d s = .next t) : t = s ∨ ∃ a, t = writePc s a := by
  unfold branchOn at h
  split at h <;> injection h with h
  · exact .inr ⟨_, h.symm⟩
  · exact .inl h.symm

/-- Everything an instruction can do: one case for each way an outcome is put together from the shared operations. -/
inductive InstrEffect (i : Instr) (s : State) : State → Prop
  | same : InstrEffect i s s
  | jump a : InstrEffect i s (writePc s a)
  | reg d v : InstrEffect i s (writeReg s d v)
  | regFlags d v f : InstrEffect i s (setFlags (writeReg s d v) f)
  | link d v a : InstrEffect i s (writePc (writeReg s d v) a)
  | exc16 e : InstrEffect i s (takeException s e (pcInst16 s))
  | exc32 e : InstrEffect i s (takeException s e (pcInst32 s))
  | read ea d v u f : readAddress i s = some ea → busRead s ea = some (v, u) → InstrEffect i s (setFlags (writeReg u d v) f)
  | readl ea d v u : readAddress i s = some ea → busRead s ea = some (v, u) → InstrEffect i s { writeReg u d v with token := ⟨true, wordAddr ea⟩ }
  | write ea v u : storeAddress i s = some ea → busWrite s ea v = some u → InstrEffect i s u
  | writec ea v u b : storeAddress i s = some ea → busWrite s ea v = some u → InstrEffect i s (consumeToken (setV u b))
  | failc b : storeAddress i s = none → InstrEffect i s (consumeToken (setV s b))
  | ret v : unprivileged s = false → InstrEffect i s (returnFromTrap s v)
  | special r k t : i = .cpuset r k → unprivileged s = false → writeSpecial s k (readReg s r) = some t → InstrEffect i s t
  | cop d v f g : InstrEffect i s (setFlags { writeReg s d v with fpu := g } f)
  | cow g : InstrEffect i s { s with fpu := g }
  | costat v : unprivileged s = false → InstrEffect i s { s with costat := v }
/-- The inversion of `exec`: a next state of any instruction is one of the effects. -/
theorem exec_effect (i : Instr) (s t : State) (h : exec i s = .next t) : InstrEffect i s t := by
  cases i
  case br d =>
    obtain rfl | ⟨a, rfl⟩ := branch_cases (c := 0) (d := d) h
    · exact .same
    · exact .jump a
  case nop d =>
    obtain rfl | ⟨a, rfl⟩ := branch_cases (c := 8) (d := d) h
    · exact .same
    · exact .jump a
  case bns | bzs | bvs | bcs | blt | ble | bleu | bnr | bzr | bvr | bcr | bge | bgt | bgtu =>
    obtain rfl | ⟨a, rfl⟩ := branch_cases h
    · exact .same
    · exact .jump a
  case cpuset r k =>
    obtain rfl | ⟨-, rfl⟩ | ⟨hu, h⟩ := cpuset_cases h
    · exact .exc16 _
    · exact .exc16 _
    · exact .special r k t rfl hu h
  case cpuget r k =>
    obtain rfl | ⟨-, rfl⟩ | ⟨v, rfl, hu⟩ | ⟨v, rfl⟩ := cpuget_cases h
    · exact .exc16 _
    · exact .exc16 _
    · exact .ret v hu
    · exact .reg _ v
  case coget =>
    obtain ⟨v, rfl⟩ | ⟨v, f, g, rfl⟩ | rfl := coget_cases h
    · exact .reg _ v
    · exact .cop _ _ _ _
    · exact .exc16 _
  case coset =>
    obtain ⟨hu, v, rfl⟩ | ⟨g, rfl⟩ | rfl | ⟨-, rfl⟩ := coset_cases h
    · exact .costat _ hu
    · exact .cow _
    · exact .exc16 _
    · exact .exc16 _
  case plus | adjust | stuffh | stuffb | oris | lis | lil | lea | move => injection h with h; subst h; exact .reg _ _
  case subb | addc | equ | or | and | addsi | sxt | trunc | sub | add | exth | extb | addsru | addsr | movesl | addsl | leacc | movecc => injection h with h; subst h; exact .regFlags _ _ _
  case illegal18 | illegalF0 | illegalF1 => injection h with h; subst h; exact .exc16 _
  case btrunc => injection h with h; subst h; exact .jump _
  case jsr | jsrs => injection h with h; subst h; exact .link _ _ _
  case load d x k =>
    obtain ⟨v, u, hb, h⟩ | ⟨-, rfl⟩ := load32_cases h
    · injection h with h; subst h; exact .read (eaLong s x k) d v u u.flags rfl hb
    · exact .exc32 _
  case loadcc d x k =>
    obtain ⟨v, u, hb, h⟩ | ⟨-, rfl⟩ := load32_cases h
    · injection h with h; subst h; exact .read (eaLong s x k) d v u _ rfl hb
    · exact .exc32 _
  case loads d x =>
    obtain ⟨v, u, hb, h⟩ | ⟨-, rfl⟩ := load16_cases h
    · injection h with h; subst h; exact .read (eaShort s x) d v u u.flags rfl hb
    · exact .exc16 _
  case loadscc d x =>
    obtain ⟨v, u, hb, h⟩ | ⟨-, rfl⟩ := load16_cases h
    · injection h with h; subst h; exact .read (eaShort s x) d v u _ rfl hb
    · exact .exc16 _
  case loadl d x =>
    obtain ⟨v, u, hb, h⟩ | ⟨-, rfl⟩ := load16_cases h
    · injection h with h; subst h; exact .readl (eaShort s x) d v u rfl hb
    · exact .exc16 _
  case store r x k =>
    obtain h | ⟨-, rfl⟩ := store_cases h
    · exact .write _ _ _ rfl h
    · exact .exc32 _
  case stores r x =>
    obtain h | ⟨-, rfl⟩ := stores_cases h
    · exact .write _ _ _ rfl h
    · exact .exc16 _
  case storec r x =>
    obtain ⟨c, ⟨u, hb, rfl⟩ | ⟨-, rfl⟩⟩ | ⟨c, rfl⟩ := storec_cases h
    · exact .writec (eaShort s x) _ u _ (by show (if _ then _ else _) = _; rw [if_pos c]) hb
    · exact .exc16 _
    · exact .failc _ (by show (if _ then _ else _) = _; rw [if_neg c])

end Sys2Proof.Machine
end

