-- ==== Sys2Proof/Laws/Fields.lean ====
section
/-!
SUPPORT. The fields of a packed halfword, and the packing of a halfword's fields (rule R71).
-/

namespace Sys2Proof

/-- Bit `i` of a packed halfword. -/
theorem packHalf_bit (s1 s2 op dst : BitVec 4) (i : Nat) :
    (packHalf s1 s2 op dst).getLsbD i =
      if i < 4 then dst.getLsbD i else if i < 8 then op.getLsbD (i - 4)
      else if i < 12 then s2.getLsbD (i - 8) else s1.getLsbD (i - 12) := by
  have h : (packHalf s1 s2 op dst).getLsbD i = (s1 ++ s2 ++ op ++ dst : BitVec (4 + 4 + 4 + 4)).getLsbD i := rfl
  rw [h]
  simp only [BitVec.getLsbD_append]
  by_cases h1 : i < 4
  · simp [h1]
  · by_cases h2 : i < 8
    · have : i - 4 < 4 := by omega
      simp [h1, h2, this]
    · by_cases h3 : i < 12
      · have e1 : ¬ i - 4 < 4 := by omega
        have e3 : i - 4 - 4 = i - 8 := by omega
        simp only [h1, h2, h3, e1, e3, if_true, if_false]
        simp [show i - 8 < 4 by omega]
      · have e1 : ¬ i - 4 < 4 := by omega
        have e2 : ¬ i - 4 - 4 < 4 := by omega
        have e3 : i - 4 - 4 - 4 = i - 12 := by omega
        simp only [h1, h2, h3, e1, e2, e3, if_false]

/-- Bit `i` of a halfword packed with an 8-bit constant. -/
theorem packHalf8_bit (k : BitVec 8) (op dst : BitVec 4) (i : Nat) :
    (packHalf8 k op dst).getLsbD i =
      if i < 4 then dst.getLsbD i else if i < 8 then op.getLsbD (i - 4) else k.getLsbD (i - 8) := by
  have h : (packHalf8 k op dst).getLsbD i = (k ++ op ++ dst : BitVec (8 + 4 + 4)).getLsbD i := rfl
  rw [h]
  simp only [BitVec.getLsbD_append]
  by_cases h1 : i < 4
  · simp [h1]
  · by_cases h2 : i < 8
    · have : i - 4 < 4 := by omega
      simp [h1, h2, this]
    · have e1 : ¬ i - 4 < 4 := by omega
      have e3 : i - 4 - 4 = i - 8 := by omega
      simp only [h1, h2, e1, e3, if_false]

/-- A field equals `f` when each of its bits is the bit of `f`. -/
theorem field_eq {w n b : Nat} {h : BitVec n} {f : BitVec w} (e : ∀ i < w, h.getLsbD (b + i) = f.getLsbD i) :
    h.extractLsb' b w = f := by
  ext i hi
  rw [BitVec.getElem_extractLsb', e i hi, BitVec.getLsbD_eq_getElem]

theorem fieldDst_packHalf (s1 s2 op dst : BitVec 4) : fieldDst (packHalf s1 s2 op dst) = dst :=
  field_eq fun i hi => by rw [packHalf_bit, if_pos (by omega)]; congr 1; omega

theorem fieldOp_packHalf (s1 s2 op dst : BitVec 4) : fieldOp (packHalf s1 s2 op dst) = op :=
  field_eq fun i hi => by rw [packHalf_bit, if_neg (by omega), if_pos (by omega)]; congr 1; omega

theorem fieldS2_packHalf (s1 s2 op dst : BitVec 4) : fieldS2 (packHalf s1 s2 op dst) = s2 :=
  field_eq fun i hi => by rw [packHalf_bit, if_neg (by omega), if_neg (by omega), if_pos (by omega)]; congr 1; omega

theorem fieldS1_packHalf (s1 s2 op dst : BitVec 4) : fieldS1 (packHalf s1 s2 op dst) = s1 :=
  field_eq fun i hi => by
    rw [packHalf_bit, if_neg (by omega), if_neg (by omega), if_neg (by omega)]; congr 1; omega

theorem fieldDst_packHalf8 (k : BitVec 8) (op dst : BitVec 4) : fieldDst (packHalf8 k op dst) = dst :=
  field_eq fun i hi => by rw [packHalf8_bit, if_pos (by omega)]; congr 1; omega

theorem fieldOp_packHalf8 (k : BitVec 8) (op dst : BitVec 4) : fieldOp (packHalf8 k op dst) = op :=
  field_eq fun i hi => by rw [packHalf8_bit, if_neg (by omega), if_pos (by omega)]; congr 1; omega

theorem fieldK8_packHalf8 (k : BitVec 8) (op dst : BitVec 4) : fieldK8 (packHalf8 k op dst) = k :=
  field_eq fun i hi => by rw [packHalf8_bit, if_neg (by omega), if_neg (by omega)]; congr 1; omega

/-- A halfword is its four fields packed. -/
theorem packHalf_fields (h : Half) : packHalf (fieldS1 h) (fieldS2 h) (fieldOp h) (fieldDst h) = h := by
  apply BitVec.eq_of_getLsbD_eq
  intro i hi
  rw [packHalf_bit]
  unfold fieldS1 fieldS2 fieldOp fieldDst
  simp only [BitVec.getLsbD_extractLsb']
  split
  · simp [*]
  · split
    · simp [show i - 4 < 4 by omega, show 4 + (i - 4) = i by omega]
    · split
      · simp [show i - 8 < 4 by omega, show 8 + (i - 8) = i by omega]
      · simp [show i - 12 < 4 by omega, show 12 + (i - 12) = i by omega]

/-- A halfword is its 8-bit constant, opcode and destination packed. -/
theorem packHalf8_fields (h : Half) : packHalf8 (fieldK8 h) (fieldOp h) (fieldDst h) = h := by
  apply BitVec.eq_of_getLsbD_eq
  intro i hi
  rw [packHalf8_bit]
  unfold fieldK8 fieldOp fieldDst
  simp only [BitVec.getLsbD_extractLsb']
  split
  · simp [*]
  · split
    · simp [show i - 4 < 4 by omega, show 4 + (i - 4) = i by omega]
    · simp [show i - 8 < 8 by omega, show 8 + (i - 8) = i by omega]

end Sys2Proof
end

