-- ==== Sys2Proof/Laws/Float.lean ====
section
/-!
SUPPORT. What the rounding of the arithmetic record says (rule R226): the magnitude bits that `roundMag` gives are those of the nearest number of the
format, ties to even; what a finite pattern unpacks to; and that the sticky quotient and root round as the exact ones.
-/

namespace Sys2Proof.Machine

/-! ## Rounding to an integer -/

/-- `n` is the integer nearest to `X`, the even one where two are as near. -/
def NearestInt (X : ℝ) (n : Nat) : Prop := |X - n| ≤ 1 / 2 ∧ (|X - n| = 1 / 2 → n % 2 = 0)

/-- `m * 2^e` stands for `x` in a rounding: it is `x`, or `m` is odd and `x` lies strictly between its neighbours. -/
def StandsFor (m : Nat) (e : Int) (x : ℝ) : Prop :=
  x = m * (2:ℝ) ^ e ∨ (m % 2 = 1 ∧ ((m:ℝ) - 1) * 2 ^ e < x ∧ x < ((m:ℝ) + 1) * 2 ^ e)

/-- `roundShift` rounds an exact quotient to the nearest integer. -/
theorem roundShift_exact (m d : Nat) : NearestInt ((m:ℝ) / 2 ^ d) (roundShift m d) := by
  have hP : (0:ℝ) < 2 ^ d := by positivity
  have hm : (m:ℝ) / 2 ^ d = (m / 2 ^ d : Nat) + ((m % 2 ^ d : Nat) : ℝ) / 2 ^ d := by
    have : (m:ℝ) = 2 ^ d * (m / 2 ^ d : Nat) + (m % 2 ^ d : Nat) := by exact_mod_cast (Nat.div_add_mod m (2 ^ d)).symm
    field_simp; linarith
  have hr : m % 2 ^ d < 2 ^ d := Nat.mod_lt _ (by positivity)
  rw [hm]
  unfold roundShift
  generalize m / 2 ^ d = q at *
  generalize m % 2 ^ d = r at *
  have hrP : (r:ℝ) / 2 ^ d < 1 := by rw [div_lt_one hP]; exact_mod_cast hr
  have h0 : 0 ≤ (r:ℝ) / 2 ^ d := by positivity
  have hlt : 2 ^ d < 2 * r ↔ 1 / 2 < (r:ℝ) / 2 ^ d := by
    rw [div_lt_div_iff₀ (by norm_num) hP, one_mul]
    rw [show (r:ℝ) * 2 = ((2 * r : Nat) : ℝ) by push_cast; ring, show ((2:ℝ) ^ d) = ((2 ^ d : Nat) : ℝ) by push_cast; rfl, Nat.cast_lt]
  have heq : 2 * r = 2 ^ d ↔ (r:ℝ) / 2 ^ d = 1 / 2 := by
    rw [div_eq_div_iff (ne_of_gt hP) (by norm_num), one_mul]
    rw [show (r:ℝ) * 2 = ((2 * r : Nat) : ℝ) by push_cast; ring, show ((2:ℝ) ^ d) = ((2 ^ d : Nat) : ℝ) by push_cast; rfl, Nat.cast_inj]
  generalize (r:ℝ) / 2 ^ d = f at *
  dsimp only
  unfold NearestInt
  split
  · rename_i h
    rw [hlt, heq] at h
    have e : (q:ℝ) + f - ((q + 1 : Nat) : ℝ) = f - 1 := by push_cast; ring
    rw [e, abs_of_neg (by linarith)]
    rcases h with h | ⟨h, ho⟩
    · exact ⟨by linarith, fun hh => by linarith⟩
    · exact ⟨by linarith, fun _ => by omega⟩
  · rename_i h
    have e : (q:ℝ) + f - (q : ℝ) = f := by ring
    rw [e, abs_of_nonneg h0]
    rw [hlt, heq] at h
    push Not at h
    exact ⟨h.1, fun hh => by have := h.2 hh; omega⟩

/-- `roundShift` rounds what an odd number stands for as it rounds the number. -/
theorem roundShift_sticky (m d : Nat) (hd : 2 ≤ d) (ho : m % 2 = 1) (X : ℝ) (h1 : ((m:ℝ) - 1) / 2 ^ d < X) (h2 : X < ((m:ℝ) + 1) / 2 ^ d) :
    NearestInt X (roundShift m d) := by
  have hP : (0:ℝ) < 2 ^ d := by positivity
  obtain ⟨c, hc⟩ : ∃ c, 2 ^ d = 4 * c := ⟨2 ^ (d - 2), by rw [show (4:Nat) = 2 ^ 2 from rfl, ← pow_add]; congr 1; omega⟩
  have hcP : (0:ℝ) < c := by
    have : (0:Nat) < 2 ^ d := by positivity
    have : 0 < c := by omega
    exact_mod_cast this
  have hP4 : (2:ℝ) ^ d = 4 * c := by exact_mod_cast hc
  have hm := Nat.div_add_mod m (2 ^ d)
  have hr : m % 2 ^ d < 2 ^ d := Nat.mod_lt _ (by positivity)
  have hmr : (m:ℝ) = 4 * c * (m / 2 ^ d : Nat) + (m % 2 ^ d : Nat) := by rw [← hP4]; exact_mod_cast hm.symm
  have hro : (m % 2 ^ d) % 2 = 1 := by rw [hc] at hm ⊢; rw [Nat.mul_assoc] at hm; omega
  unfold roundShift
  rw [hP4, div_lt_iff₀ (by positivity)] at h1
  rw [hP4, lt_div_iff₀ (by positivity)] at h2
  generalize m / 2 ^ d = q at *
  generalize m % 2 ^ d = r at *
  dsimp only
  unfold NearestInt
  split
  · rename_i h
    have hr2 : 2 * c + 1 ≤ r := by omega
    have hr3 : r + 1 ≤ 4 * c := by omega
    have hr2' : (2 * c + 1 : ℝ) ≤ r := by exact_mod_cast hr2
    have hr3' : (r + 1 : ℝ) ≤ 4 * c := by exact_mod_cast hr3
    have l : (q:ℝ) + 1 / 2 < X := by
      by_contra hh; push Not at hh
      have := mul_le_mul_of_nonneg_right hh (show (0:ℝ) ≤ 4 * c by positivity)
      nlinarith
    have u : X < (q:ℝ) + 1 := by
      by_contra hh; push Not at hh
      have := mul_le_mul_of_nonneg_right hh (show (0:ℝ) ≤ 4 * c by positivity)
      nlinarith
    push_cast
    rw [abs_of_neg (by linarith)]
    exact ⟨by linarith, fun hh => by linarith⟩
  · rename_i h
    have hr2 : r + 1 ≤ 2 * c := by omega
    have hr3 : 1 ≤ r := by omega
    have hr2' : (r + 1 : ℝ) ≤ 2 * c := by exact_mod_cast hr2
    have hr3' : (1 : ℝ) ≤ r := by exact_mod_cast hr3
    have u : X < (q:ℝ) + 1 / 2 := by
      by_contra hh; push Not at hh
      have := mul_le_mul_of_nonneg_right hh (show (0:ℝ) ≤ 4 * c by positivity)
      nlinarith
    have l : (q:ℝ) < X := by
      by_contra hh; push Not at hh
      have := mul_le_mul_of_nonneg_right hh (show (0:ℝ) ≤ 4 * c by positivity)
      nlinarith
    rw [abs_of_pos (by linarith)]
    exact ⟨by linarith, fun hh => by linarith⟩

/-- No integer is nearer than the nearest one. -/
theorem NearestInt.le {X : ℝ} {n : Nat} (h : NearestInt X n) (y : Int) :
    |X - n| ≤ |X - y| ∧ (|X - n| = |X - y| → (y = n ∨ n % 2 = 0)) := by
  by_cases e : y = n
  · subst e; simp
  · have h1 : (1:ℝ) ≤ |(y:ℝ) - n| := by
      have : (1:Int) ≤ |y - n| := Int.one_le_abs (sub_ne_zero.2 e)
      exact_mod_cast this
    have h2 : |(y:ℝ) - n| ≤ |X - y| + |X - n| := by
      have : (y:ℝ) - n = -(X - y) + (X - n) := by ring
      rw [this]; exact (abs_add_le _ _).trans (by rw [abs_neg])
    have h3 := h.1
    exact ⟨by linarith, fun hh => .inr (h.2 (by linarith))⟩

/-! ## Rounding to a format -/

/-- The number that magnitude bits below the infinity's stand for. -/
noncomputable def magVal (f : FpFormat) (mag : Nat) : ℝ :=
  if mag / 2 ^ (f.prec - 1) = 0 then mag * 2 ^ f.qmin
  else ((2 ^ (f.prec - 1) + mag % 2 ^ (f.prec - 1) : Nat) : ℝ) * 2 ^ (f.qmin + ((mag / 2 ^ (f.prec - 1) : Nat) : Int) - 1)

/-- The magnitude bits of a significand on the grid `k` stand for that significand times the unit of the grid. -/
theorem magVal_pack (f : FpFormat) (hp : 1 ≤ f.prec) (k n : Nat) (hn : n ≤ 2 ^ f.prec) (hk : k = 0 ∨ 2 ^ (f.prec - 1) ≤ n) :
    magVal f (k * 2 ^ (f.prec - 1) + n) = n * 2 ^ (f.qmin + k) := by
  have hpp : 2 ^ f.prec = 2 * 2 ^ (f.prec - 1) := by rw [← pow_succ']; congr 1; omega
  have hP : 0 < 2 ^ (f.prec - 1) := by positivity
  unfold magVal
  generalize hQ : 2 ^ (f.prec - 1) = P at *
  by_cases h1 : n < P
  · have hk0 : k = 0 := by omega
    subst hk0
    rw [Nat.zero_mul, Nat.zero_add, if_pos (Nat.div_eq_of_lt h1)]; simp
  · by_cases h2 : n < 2 * P
    · have e : k * P + n = (n - P) + P * (k + 1) := by rw [Nat.mul_succ, Nat.mul_comm]; omega
      have hdiv : (k * P + n) / P = k + 1 := by rw [e, Nat.add_mul_div_left _ _ hP, Nat.div_eq_of_lt (by omega), Nat.zero_add]
      have hmod : (k * P + n) % P = n - P := by rw [e, Nat.add_mul_mod_self_left, Nat.mod_eq_of_lt (by omega)]
      rw [hdiv, hmod, if_neg (by omega), show P + (n - P) = n by omega]
      congr 2; push_cast; ring
    · have hn2 : n = 2 * P := by omega
      subst hn2
      have e : k * P + 2 * P = 0 + P * (k + 2) := by ring
      have hdiv : (k * P + 2 * P) / P = k + 2 := by rw [e, Nat.add_mul_div_left _ _ hP, Nat.zero_div, Nat.zero_add]
      have hmod : (k * P + 2 * P) % P = 0 := by rw [e, Nat.add_mul_mod_self_left, Nat.zero_mod]
      rw [hdiv, hmod, if_neg (by omega), Nat.add_zero]
      have : f.qmin + ((k + 2 : Nat) : Int) - 1 = (f.qmin + k) + 1 := by push_cast; ring
      rw [this, zpow_add_one₀ (by norm_num)]
      push_cast; ring

/-- Every magnitude is a significand below `2^prec` on a grid. -/
theorem mag_split (f : FpFormat) (hp : 1 ≤ f.prec) (y : Nat) :
    ∃ k n : Nat, y = k * 2 ^ (f.prec - 1) + n ∧ n < 2 ^ f.prec ∧ (k = 0 ∨ 2 ^ (f.prec - 1) ≤ n) := by
  have hpp : 2 ^ f.prec = 2 * 2 ^ (f.prec - 1) := by rw [← pow_succ']; congr 1; omega
  have hP : 0 < 2 ^ (f.prec - 1) := by positivity
  generalize hQ : 2 ^ (f.prec - 1) = P at *
  have e := Nat.div_add_mod y P
  have hm := Nat.mod_lt y hP
  by_cases h : y / P = 0
  · exact ⟨0, y, by omega, by rw [h] at e; omega, .inl rfl⟩
  · refine ⟨y / P - 1, P + y % P, ?_, by omega, .inr (by omega)⟩
    obtain ⟨j, hj⟩ := Nat.exists_eq_succ_of_ne_zero h
    rw [hj] at e ⊢
    rw [Nat.mul_succ] at e
    rw [Nat.succ_sub_one, Nat.mul_comm]; omega

/-- The grid and the significand that `roundMag` chooses: the number, in units of the grid, lies below `2^prec` and is rounded to the nearest integer. -/
theorem roundMag_split (f : FpFormat) (hp : 2 ≤ f.prec) (m : Nat) (e : Int) (x : ℝ) (hm : m ≠ 0) (hx : StandsFor m e x)
    (hs : x = m * (2:ℝ) ^ e ∨ 2 ^ (f.prec + 1) ≤ m) :
    ∃ k n : Nat, roundMag f m e = min (k * 2 ^ (f.prec - 1) + n) (infMag f) ∧ NearestInt (x / 2 ^ (f.qmin + k)) n ∧
      n ≤ 2 ^ f.prec ∧ (k = 0 ∨ 2 ^ (f.prec - 1) ≤ n) ∧ (k = 0 ∨ (2:ℝ) ^ (f.prec - 1) ≤ x / 2 ^ (f.qmin + k)) ∧
      x / 2 ^ (f.qmin + k) < 2 ^ f.prec ∧ 0 < x := by
  obtain ⟨L, hL⟩ : ∃ L, L = Nat.log2 m + 1 := ⟨_, rfl⟩
  have hlo : 2 ^ (L - 1) ≤ m := by rw [hL, Nat.add_sub_cancel]; exact Nat.log2_self_le hm
  have hhi : m < 2 ^ L := by rw [hL]; exact Nat.lt_log2_self
  obtain ⟨k, hk⟩ : ∃ k, k = (e + (L : Int) - f.prec - f.qmin).toNat := ⟨_, rfl⟩
  have he : (0:ℝ) < 2 ^ e := by positivity
  have hxlo : (2:ℝ) ^ (L - 1) * 2 ^ e ≤ x := by
    rcases hx with hx | ⟨ho, h1, -⟩
    · rw [hx]; exact mul_le_mul_of_nonneg_right (by exact_mod_cast hlo) he.le
    · by_cases h1' : L = 1
      · subst h1'; have : m = 1 := by omega
        subst this
        rcases hs with hs | hs
        · rw [hs]; simp
        · have : 2 ^ 1 ≤ 2 ^ (f.prec + 1) := Nat.pow_le_pow_right (by omega) (by omega)
          omega
      · have : 2 ^ (L - 1) ≤ m - 1 := by
          have : 2 ^ (L - 1) % 2 = 0 := by
            obtain ⟨j, hj⟩ : ∃ j, L - 1 = j + 1 := ⟨L - 2, by omega⟩
            rw [hj, pow_succ]; omega
          omega
        have h3 : (2:ℝ) ^ (L - 1) ≤ (m:ℝ) - 1 := by
          have : (2 ^ (L - 1) + 1 : ℕ) ≤ m := by omega
          have : ((2 ^ (L - 1) + 1 : ℕ) : ℝ) ≤ m := by exact_mod_cast this
          push_cast at this; linarith
        exact (mul_le_mul_of_nonneg_right h3 he.le).trans h1.le
  have hxhi : x < (2:ℝ) ^ L * 2 ^ e := by
    rcases hx with hx | ⟨-, -, h2⟩
    · rw [hx]; exact mul_lt_mul_of_pos_right (by exact_mod_cast hhi) he
    · refine h2.trans_le (mul_le_mul_of_nonneg_right ?_ he.le)
      have : (m + 1 : ℕ) ≤ 2 ^ L := hhi
      have : ((m + 1 : ℕ) : ℝ) ≤ ((2 ^ L : ℕ) : ℝ) := by exact_mod_cast this
      push_cast at this; exact this
  have hx0 : 0 < x := lt_of_lt_of_le (by positivity) hxlo
  have hu : (0:ℝ) < 2 ^ (f.qmin + (k:Int)) := by positivity
  have e2 : ∀ j : Nat, (2:ℝ) ^ j * 2 ^ e / 2 ^ (f.qmin + (k:Int)) = 2 ^ ((j:Int) + e - f.qmin - k) := by
    intro j
    rw [div_eq_iff (ne_of_gt hu), ← zpow_natCast, ← zpow_add₀ (by norm_num), ← zpow_add₀ (by norm_num)]; congr 1; ring
  have hXhi : x / 2 ^ (f.qmin + (k:Int)) < 2 ^ f.prec := by
    have h1 : x / 2 ^ (f.qmin + (k:Int)) < (2:ℝ) ^ L * 2 ^ e / 2 ^ (f.qmin + (k:Int)) := div_lt_div_of_pos_right hxhi hu
    rw [e2] at h1
    refine h1.trans_le ?_
    rw [← zpow_natCast]
    exact zpow_le_zpow_right₀ (by norm_num) (by omega)
  have hXlo : k = 0 ∨ (2:ℝ) ^ (f.prec - 1) ≤ x / 2 ^ (f.qmin + (k:Int)) := by
    by_cases h : k = 0
    · exact .inl h
    · right
      have h1 := div_le_div_of_nonneg_right hxlo hu.le
      rw [e2] at h1
      refine le_trans ?_ h1
      rw [← zpow_natCast]
      exact zpow_le_zpow_right₀ (by norm_num) (by omega)
  obtain ⟨d, hd⟩ : ∃ d : Int, d = f.qmin + k - e := ⟨_, rfl⟩
  obtain ⟨n, hn⟩ : ∃ n, n = if d ≤ 0 then m * 2 ^ (-d).toNat else roundShift m d.toNat := ⟨_, rfl⟩
  have hr : roundMag f m e = min (k * 2 ^ (f.prec - 1) + n) (infMag f) := by
    unfold roundMag infMag
    rw [if_neg hm, hn, hd, hk, hL]
  have hscale : ∀ y : ℝ, y * 2 ^ e / 2 ^ (f.qmin + (k:Int)) = y / 2 ^ d := by
    intro y
    rw [hd, zpow_sub₀ (by norm_num)]; field_simp
  have hnear : NearestInt (x / 2 ^ (f.qmin + (k:Int))) n := by
    rw [hn]
    by_cases hd0 : d ≤ 0
    · rw [if_pos hd0]
      have hxe : x = m * (2:ℝ) ^ e := by
        rcases hs with hs | hs
        · exact hs
        · exfalso
          have : 2 ^ (f.prec + 1) < 2 ^ L := lt_of_le_of_lt hs hhi
          have := (Nat.pow_lt_pow_iff_right (by omega : 1 < 2)).1 this
          omega
      rw [hxe, hscale]
      have : (m:ℝ) / 2 ^ d = ((m * 2 ^ (-d).toNat : Nat) : ℝ) := by
        push_cast
        rw [div_eq_mul_inv, ← zpow_neg, ← zpow_natCast, Int.toNat_of_nonneg (by omega)]
      rw [this]; unfold NearestInt; simp
    · rw [if_neg hd0]
      have hdn : (2:ℝ) ^ d = 2 ^ d.toNat := by rw [← zpow_natCast, Int.toNat_of_nonneg (by omega)]
      rcases hx with hx | ⟨ho, h1, h2⟩
      · rw [hx, hscale, hdn]; exact roundShift_exact m d.toNat
      · rcases hs with hs | hs
        · rw [hs, hscale, hdn]; exact roundShift_exact m d.toNat
        · have : 2 ^ (f.prec + 1) < 2 ^ L := lt_of_le_of_lt hs hhi
          have := (Nat.pow_lt_pow_iff_right (by omega : 1 < 2)).1 this
          refine roundShift_sticky m d.toNat (by omega) ho _ ?_ ?_
          · rw [← hdn, ← hscale]; exact div_lt_div_of_pos_right h1 hu
          · rw [← hdn, ← hscale]; exact div_lt_div_of_pos_right h2 hu
  obtain ⟨hn1, hn2⟩ := abs_le.1 hnear.1
  refine ⟨k, n, hr, hnear, ?_, ?_, hXlo, hXhi, hx0⟩
  · have : (n:ℝ) < ((2 ^ f.prec + 1 : Nat) : ℝ) := by push_cast; linarith
    have : n < 2 ^ f.prec + 1 := by exact_mod_cast this
    omega
  · rcases hXlo with h | h
    · exact .inl h
    · right
      have : ((2 ^ (f.prec - 1) : Nat) : ℝ) < ((n + 1 : Nat) : ℝ) := by push_cast; linarith
      have : 2 ^ (f.prec - 1) < n + 1 := by exact_mod_cast this
      omega

/-- `mag` is the positive number `x` rounded to nearest in format `f`, ties to the even pattern. -/
def NearestMag (f : FpFormat) (x : ℝ) (mag : Nat) : Prop :=
  ((2 ^ f.prec - 1 / 2) * 2 ^ (f.qmin + f.expMax - 2) ≤ x → mag = infMag f) ∧
  (x < (2 ^ f.prec - 1 / 2) * 2 ^ (f.qmin + f.expMax - 2) → mag < infMag f ∧
    ∀ (s : Bool) (y : Nat), y < infMag f →
      |x - magVal f mag| ≤ |x - (if s then -1 else 1) * magVal f y| ∧
      (|x - magVal f mag| = |x - (if s then -1 else 1) * magVal f y| →
        (if s then -1 else 1) * magVal f y = magVal f mag ∨ mag % 2 = 0))

/-- Magnitudes are not below zero. -/
theorem magVal_nonneg (f : FpFormat) (y : Nat) : 0 ≤ magVal f y := by unfold magVal; split <;> positivity

/-- No number of the format is nearer than the chosen significand: on a coarser or equal grid it is a whole number of units, on a finer one it lies below the
least significand. -/
theorem NearestInt.le_grid {f : FpFormat} (hp : 2 ≤ f.prec) {x : ℝ} {k n : Nat} (hn : NearestInt (x / 2 ^ (f.qmin + (k:Int))) n)
    (hk : k = 0 ∨ (2:ℝ) ^ (f.prec - 1) ≤ x / 2 ^ (f.qmin + (k:Int))) (j i : Nat) (hi : i < 2 ^ f.prec) :
    |x / 2 ^ (f.qmin + (k:Int)) - n| ≤ |x / 2 ^ (f.qmin + (k:Int)) - i * 2 ^ (f.qmin + (j:Int)) / 2 ^ (f.qmin + (k:Int))| ∧
    (|x / 2 ^ (f.qmin + (k:Int)) - n| = |x / 2 ^ (f.qmin + (k:Int)) - i * 2 ^ (f.qmin + (j:Int)) / 2 ^ (f.qmin + (k:Int))| →
      (i * (2:ℝ) ^ (f.qmin + (j:Int)) / 2 ^ (f.qmin + (k:Int)) = n ∨ n % 2 = 0)) := by
  have e : (i:ℝ) * 2 ^ (f.qmin + (j:Int)) / 2 ^ (f.qmin + (k:Int)) = i * 2 ^ ((j:Int) - k) := by
    rw [mul_div_assoc, ← zpow_sub₀ (by norm_num)]; congr 2; ring
  rw [e]
  by_cases h : k ≤ j
  · have e2 : (i:ℝ) * 2 ^ ((j:Int) - k) = (((i * 2 ^ (j - k) : Nat) : Int) : ℝ) := by
      push_cast; rw [← zpow_natCast, Nat.cast_sub h]
    rw [e2]
    obtain ⟨a, b⟩ := hn.le ((i * 2 ^ (j - k) : Nat) : Int)
    exact ⟨a, fun hh => (b hh).imp (fun h => by rw [h]; norm_cast) id⟩
  · have hk' : (2:ℝ) ^ (f.prec - 1) ≤ x / 2 ^ (f.qmin + (k:Int)) := hk.resolve_left (by omega)
    have hsmall : (i:ℝ) * 2 ^ ((j:Int) - k) < 2 ^ (f.prec - 1) := by
      have h1 : (i:ℝ) < 2 ^ f.prec := by exact_mod_cast hi
      have h2 : (2:ℝ) ^ ((j:Int) - k) ≤ 2 ^ (-1 : Int) := zpow_le_zpow_right₀ (by norm_num) (by omega)
      calc (i:ℝ) * 2 ^ ((j:Int) - k) ≤ i * 2 ^ (-1 : Int) := mul_le_mul_of_nonneg_left h2 (by positivity)
        _ < 2 ^ f.prec * 2 ^ (-1 : Int) := mul_lt_mul_of_pos_right h1 (by positivity)
        _ = 2 ^ (f.prec - 1) := by
          rw [← zpow_natCast, ← zpow_natCast, ← zpow_add₀ (by norm_num)]; congr 1; omega
    have h3 := (hn.le ((2 ^ (f.prec - 1) : Nat) : Int)).1
    push_cast at h3
    rw [abs_of_nonneg (sub_nonneg.2 hk')] at h3
    have h4 : |x / 2 ^ (f.qmin + (k:Int)) - n| < |x / 2 ^ (f.qmin + (k:Int)) - i * 2 ^ ((j:Int) - k)| := by
      rw [abs_of_pos (by linarith : 0 < x / 2 ^ (f.qmin + (k:Int)) - i * 2 ^ ((j:Int) - k))]
      linarith
    exact ⟨h4.le, fun hh => absurd hh (ne_of_lt h4)⟩

/-- Everything `roundMag` does (rule R226 (a), (c)): the number that `m * 2^e` stands for is rounded to nearest, ties to even, with gradual underflow, and to
the infinity from half a unit above the largest finite number on. -/
theorem roundMag_nearest (f : FpFormat) (hp : 2 ≤ f.prec) (hE : 2 ≤ f.expMax) (m : Nat) (e : Int) (x : ℝ) (hm : m ≠ 0)
    (hx : StandsFor m e x) (hs : x = m * (2:ℝ) ^ e ∨ 2 ^ (f.prec + 1) ≤ m) : NearestMag f x (roundMag f m e) := by
  obtain ⟨k, n, hr, hn, hnle, hnk, hXlo, hXhi, hx0⟩ := roundMag_split f hp m e x hm hx hs
  have hu : (0:ℝ) < 2 ^ (f.qmin + (k:Int)) := by positivity
  have hpp : 2 ^ f.prec = 2 * 2 ^ (f.prec - 1) := by rw [← pow_succ']; congr 1; omega
  have hP : 0 < 2 ^ (f.prec - 1) := by positivity
  have hppR : (2:ℝ) ^ f.prec = 2 * 2 ^ (f.prec - 1) := by exact_mod_cast hpp
  have hPR : (2:ℝ) ≤ 2 ^ (f.prec - 1) := by
    have : (2:ℝ) ^ 1 ≤ 2 ^ (f.prec - 1) := pow_le_pow_right₀ (by norm_num) (by omega)
    simpa using this
  obtain ⟨hn1, hn2⟩ := abs_le.1 hn.1
  have hinf : infMag f = f.expMax * 2 ^ (f.prec - 1) := rfl
  have hT : ∀ a : ℝ, a * 2 ^ (f.qmin + f.expMax - 2) = (a * 2 ^ ((f.expMax:Int) - 2 - k)) * 2 ^ (f.qmin + (k:Int)) := by
    intro a
    rw [mul_assoc, ← zpow_add₀ (by norm_num)]; congr 2; ring
  have hiff : (2 ^ f.prec - 1 / 2) * 2 ^ (f.qmin + f.expMax - 2) ≤ x ↔ infMag f ≤ k * 2 ^ (f.prec - 1) + n := by
    rw [hT, ← le_div_iff₀ hu, hinf]
    generalize x / 2 ^ (f.qmin + (k:Int)) = X at *
    by_cases h1 : f.expMax ≤ k + 1
    · have hk1 : k ≠ 0 := by omega
      have hXlo := hXlo.resolve_left hk1
      have hnk := hnk.resolve_left hk1
      have hz : (2:ℝ) ^ ((f.expMax:Int) - 2 - k) ≤ 2 ^ (-1 : Int) := zpow_le_zpow_right₀ (by norm_num) (by omega)
      constructor
      · intro _
        calc f.expMax * 2 ^ (f.prec - 1) ≤ (k + 1) * 2 ^ (f.prec - 1) := Nat.mul_le_mul_right _ h1
          _ = k * 2 ^ (f.prec - 1) + 2 ^ (f.prec - 1) := by ring
          _ ≤ _ := by omega
      · intro _
        refine le_trans (mul_le_mul_of_nonneg_left hz (by linarith)) ?_
        rw [zpow_neg_one, hppR]; linarith
    · by_cases h2 : f.expMax = k + 2
      · have hz : ((f.expMax:Int) - 2 - k) = 0 := by omega
        rw [hz, zpow_zero, mul_one, h2]
        have : (k + 2) * 2 ^ (f.prec - 1) ≤ k * 2 ^ (f.prec - 1) + n ↔ 2 ^ f.prec ≤ n := by
          rw [hpp, Nat.add_mul]; omega
        rw [this]
        constructor
        · intro h
          by_contra hc
          have : n + 1 ≤ 2 ^ f.prec := by omega
          have : ((n + 1 : Nat) : ℝ) ≤ ((2 ^ f.prec : Nat) : ℝ) := by exact_mod_cast this
          push_cast at this
          have hXe : X - n = 1 / 2 := by linarith
          have hev := hn.2 (by rw [hXe]; norm_num)
          have hne : (n:ℝ) + 1 = 2 ^ f.prec := by linarith
          have : n + 1 = 2 ^ f.prec := by exact_mod_cast hne
          omega
        · intro h
          have : ((2 ^ f.prec : Nat) : ℝ) ≤ n := by exact_mod_cast h
          push_cast at this; linarith
      · have h3 : k + 3 ≤ f.expMax := by omega
        constructor
        · intro h
          exfalso
          have hz : (2:ℝ) ^ (1 : Int) ≤ 2 ^ ((f.expMax:Int) - 2 - k) := zpow_le_zpow_right₀ (by norm_num) (by omega)
          have := mul_le_mul_of_nonneg_left hz (show (0:ℝ) ≤ 2 ^ f.prec - 1 / 2 by linarith)
          rw [zpow_one] at this
          linarith
        · intro h
          exfalso
          have : (k + 3) * 2 ^ (f.prec - 1) ≤ f.expMax * 2 ^ (f.prec - 1) := Nat.mul_le_mul_right _ h3
          rw [Nat.add_mul] at this; omega
  refine ⟨fun h => by rw [hr, Nat.min_eq_right (hiff.1 h)], fun h => ?_⟩
  have hlt : k * 2 ^ (f.prec - 1) + n < infMag f := by
    by_contra hc; exact absurd (hiff.2 (by omega)) (not_le.2 h)
  have hr' : roundMag f m e = k * 2 ^ (f.prec - 1) + n := by rw [hr, Nat.min_eq_left hlt.le]
  rw [hr']
  refine ⟨hlt, fun s y _ => ?_⟩
  rw [magVal_pack f (by omega) k n hnle hnk]
  have heven : n % 2 = 0 → (k * 2 ^ (f.prec - 1) + n) % 2 = 0 := by
    intro h
    obtain ⟨c, hc⟩ : ∃ c, f.prec - 1 = c + 1 := ⟨f.prec - 2, by omega⟩
    rw [hc, pow_succ, ← Nat.mul_assoc]; omega
  obtain ⟨j, i, hy, hi, hji⟩ := mag_split f (by omega) y
  rw [hy, magVal_pack f (by omega) j i hi.le hji]
  have hsc : ∀ v : ℝ, |x - v| = |x / 2 ^ (f.qmin + (k:Int)) - v / 2 ^ (f.qmin + (k:Int))| * 2 ^ (f.qmin + (k:Int)) := by
    intro v
    rw [← sub_div, abs_div, abs_of_pos hu, div_mul_cancel₀ _ (ne_of_gt hu)]
  have hself : (n:ℝ) * 2 ^ (f.qmin + (k:Int)) / 2 ^ (f.qmin + (k:Int)) = n := mul_div_cancel_right₀ _ (ne_of_gt hu)
  have pos : ∀ (j i : Nat), i < 2 ^ f.prec →
      |x - n * 2 ^ (f.qmin + (k:Int))| ≤ |x - i * 2 ^ (f.qmin + (j:Int))| ∧
      (|x - n * 2 ^ (f.qmin + (k:Int))| = |x - i * 2 ^ (f.qmin + (j:Int))| →
        (i:ℝ) * 2 ^ (f.qmin + (j:Int)) = n * 2 ^ (f.qmin + (k:Int)) ∨ (k * 2 ^ (f.prec - 1) + n) % 2 = 0) := by
    intro j i hi
    obtain ⟨a, b⟩ := NearestInt.le_grid hp hn hXlo j i hi
    rw [hsc, hsc (i * _), hself]
    refine ⟨mul_le_mul_of_nonneg_right a hu.le, fun hh => ?_⟩
    refine (b (mul_right_cancel₀ (ne_of_gt hu) hh)).imp (fun h => ?_) heven
    rw [div_eq_iff (ne_of_gt hu)] at h; exact h
  cases s
  · simpa using pos j i hi
  · obtain ⟨a, b⟩ := pos 0 0 (by positivity)
    have hv : 0 ≤ (i:ℝ) * 2 ^ (f.qmin + (j:Int)) := by positivity
    simp only [Nat.cast_zero, zero_mul, sub_zero, if_true, neg_mul, one_mul, sub_neg_eq_add] at a b ⊢
    rw [abs_of_pos hx0] at a b
    rw [abs_of_nonneg (a := x + _) (by linarith)]
    refine ⟨by linarith, fun hh => ?_⟩
    have hv0 : (i:ℝ) * 2 ^ (f.qmin + (j:Int)) = 0 := by linarith
    rw [hv0] at hh ⊢
    simpa using b (by linarith)

/-! ## Signs -/

/-- The sign as a factor. -/
def signFactor (z : Bool) : ℝ := if z then -1 else 1

/-- A sign squared. -/
theorem signFactor_sq (z : Bool) : signFactor z * signFactor z = 1 := by cases z <;> norm_num [signFactor]
/-- The size of a sign. -/
theorem signFactor_abs (z : Bool) : |signFactor z| = 1 := by cases z <;> norm_num [signFactor]

/-- The product of two signs. -/
theorem signFactor_mul (y z : Bool) : signFactor y * signFactor z = signFactor (y ^^ z) := by cases y <;> cases z <;> norm_num [signFactor]

/-- A number is its sign times its size. -/
theorem signFactor_mul_abs (x : ℝ) : signFactor (decide (x < 0)) * |x| = x := by
  by_cases hn : x < 0
  · simp [signFactor, hn, abs_of_neg]
  · simp [signFactor, hn, abs_of_nonneg (not_lt.1 hn)]

/-- A nearest magnitude, with the sign of the number, is nearest among the numbers of either sign. -/
theorem NearestMag.signed {f : FpFormat} {x : ℝ} {mag : Nat} (h : NearestMag f |x| mag)
    (hx : |x| < (2 ^ f.prec - 1 / 2) * 2 ^ (f.qmin + f.expMax - 2)) (s : Bool) {y : Nat} (hy : y < infMag f) :
    |x - signFactor (decide (x < 0)) * magVal f mag| ≤ |x - signFactor s * magVal f y| ∧
    (|x - signFactor (decide (x < 0)) * magVal f mag| = |x - signFactor s * magVal f y| →
      signFactor s * magVal f y = signFactor (decide (x < 0)) * magVal f mag ∨ mag % 2 = 0) := by
  have fold : ∀ v : ℝ, |x - v| = abs (|x| - signFactor (decide (x < 0)) * v) := by
    intro v
    conv_lhs => rw [← signFactor_mul_abs x]
    rw [show signFactor (decide (x < 0)) * |x| - v = signFactor (decide (x < 0)) * (|x| - signFactor (decide (x < 0)) * v) by
      rw [mul_sub, ← mul_assoc, signFactor_sq, one_mul], abs_mul, signFactor_abs, one_mul]
  have hr : signFactor (decide (x < 0)) * (signFactor (decide (x < 0)) * magVal f mag) = magVal f mag := by
    rw [← mul_assoc, signFactor_sq, one_mul]
  have hys : signFactor (decide (x < 0)) * (signFactor s * magVal f y) = signFactor (decide (x < 0) ^^ s) * magVal f y := by
    rw [← mul_assoc, signFactor_mul]
  obtain ⟨a, b⟩ := (h.2 hx).2 (decide (x < 0) ^^ s) y hy
  rw [fold (_ * magVal f mag), fold (signFactor s * _), hr, hys]
  refine ⟨a, fun hh => (b hh).imp (fun h => ?_) id⟩
  have h' : signFactor (decide (x < 0) ^^ s) * magVal f y = magVal f mag := h
  rw [← h', ← hys, ← mul_assoc, signFactor_sq, one_mul]

/-- A nonzero number given by sign and size. -/
theorem signed_facts (z : Bool) {y : ℝ} (hy : 0 < y) :
    signFactor z * y ≠ 0 ∧ |signFactor z * y| = y ∧ decide (signFactor z * y < 0) = z := by
  refine ⟨?_, by rw [abs_mul, signFactor_abs, one_mul, abs_of_pos hy], ?_⟩
  · cases z <;> simp [signFactor] <;> linarith
  · cases z
    · simp [signFactor]; linarith
    · simp [signFactor]; exact hy

/-- A power of two as a product. -/
theorem two_pow_split (a b c : Nat) (h : a = b + c) : (2:ℝ) ^ a = 2 ^ b * 2 ^ c := by rw [h]; exact pow_add 2 b c

/-! ## Patterns of binary64 -/

/-- The number of a pattern, by its sign and magnitude bits. -/
theorem value64_eq (d : DWord) : (value64 d : ℝ) = signFactor d.msb * magVal binary64 (d.toNat % 2 ^ 63) := by
  unfold value64 magVal signFactor
  have e1 : d.toNat % 2 ^ 63 / 2 ^ 52 = d.toNat / 2 ^ 52 % 2 ^ 11 := by omega
  have e2 : d.toNat % 2 ^ 63 % 2 ^ 52 = d.toNat % 2 ^ 52 := by omega
  show _ = _ * if d.toNat % 2 ^ 63 / 2 ^ 52 = 0 then ((d.toNat % 2 ^ 63 : Nat) : ℝ) * 2 ^ (-1074 : Int)
    else ((2 ^ 52 + d.toNat % 2 ^ 63 % 2 ^ 52 : Nat) : ℝ) * 2 ^ ((-1074 : Int) + ((d.toNat % 2 ^ 63 / 2 ^ 52 : Nat) : Int) - 1)
  rw [e1, e2]
  by_cases h : d.toNat / 2 ^ 52 % 2 ^ 11 = 0
  · have e3 : d.toNat % 2 ^ 63 = d.toNat % 2 ^ 52 := by omega
    rw [if_pos h, if_pos h, e3]; push_cast; congr 1; split <;> simp
  · rw [if_neg h, if_neg h]
    have e4 : (-1074 : Int) + ((d.toNat / 2 ^ 52 % 2 ^ 11 : Nat) : Int) - 1 = ((d.toNat / 2 ^ 52 % 2 ^ 11 : Nat) : Int) - 1075 := by ring
    rw [e4]; push_cast; congr 1; split <;> simp

/-- A pattern is finite when its magnitude bits lie below those of the infinity. -/
theorem isFinite64_iff (d : DWord) : IsFinite64 d ↔ d.toNat % 2 ^ 63 < infMag binary64 := by
  unfold IsFinite64
  rw [ne_eq, ← BitVec.toNat_inj, BitVec.extractLsb'_toNat, Nat.shiftRight_eq_div_pow]
  show ¬ d.toNat / 2 ^ 52 % 2 ^ 11 = 2047 ↔ d.toNat % 2 ^ 63 < 2047 * 2 ^ 52
  have := d.isLt; omega

/-- The bits of a packed pattern. -/
theorem pack64_toNat (z : Bool) (mag : Nat) (h : mag < 2 ^ 63) : (pack64 z mag).toNat = z.toNat * 2 ^ 63 + mag := by
  show (BitVec.ofBool z ++ BitVec.ofNat 63 mag : BitVec (1 + 63)).toNat = _
  rw [BitVec.toNat_append, BitVec.toNat_ofNat, Nat.mod_eq_of_lt h, ← Nat.shiftLeft_add_eq_or_of_lt h, Nat.shiftLeft_eq]
  cases z <;> simp

/-- The sign of a packed pattern. -/
theorem pack64_msb (z : Bool) (mag : Nat) (h : mag < 2 ^ 63) : (pack64 z mag).msb = z := by
  rw [BitVec.msb_eq_decide, pack64_toNat z mag h]
  cases z <;> simp
  omega

/-- The magnitude bits of a packed pattern. -/
theorem pack64_mag (z : Bool) (mag : Nat) (h : mag < 2 ^ 63) : (pack64 z mag).toNat % 2 ^ 63 = mag := by
  rw [pack64_toNat z mag h]; cases z <;> simp <;> omega

/-- Half a unit above the largest finite number. -/
theorem threshold64 : ((2:ℝ) ^ binary64.prec - 1 / 2) * 2 ^ (binary64.qmin + binary64.expMax - 2) = 2 ^ 1024 - 2 ^ 970 := by
  have e1 : binary64.prec = 53 := rfl
  have e2 : binary64.qmin + binary64.expMax - 2 = (971 : Nat) := by decide
  rw [e1, e2, zpow_natCast, two_pow_split 1024 53 971 (by norm_num), sub_mul, two_pow_split 971 1 970 (by norm_num), pow_one]
  generalize (2:ℝ) ^ 970 = c
  ring

/-- A packed nearest magnitude is the number rounded (rule R226). -/
theorem rounds64_pack {x : ℝ} {mag : Nat} (h : NearestMag binary64 |x| mag) : Rounds64 x (pack64 (decide (x < 0)) mag) := by
  have hle : mag ≤ infMag binary64 := by
    rcases le_or_gt ((2 ^ binary64.prec - 1 / 2) * 2 ^ (binary64.qmin + binary64.expMax - 2)) |x| with hh | hh
    · rw [h.1 hh]
    · exact (h.2 hh).1.le
  have hlt : mag < 2 ^ 63 := by
    have : infMag binary64 = 0x7FF0000000000000 := rfl
    omega
  refine ⟨fun hn => by rw [pack64_msb _ _ hlt]; simpa using hn, fun hn => by rw [pack64_msb _ _ hlt]; simpa using hn.le, fun hh => ?_, fun hh => ?_⟩
  · apply BitVec.eq_of_toNat_eq
    rw [BitVec.extractLsb'_toNat, Nat.shiftRight_zero, pack64_mag _ _ hlt, h.1 (by rwa [threshold64])]; rfl
  · rw [← threshold64] at hh
    refine ⟨(isFinite64_iff _).2 (by rw [pack64_mag _ _ hlt]; exact (h.2 hh).1), fun y hy => ?_⟩
    obtain ⟨a, b⟩ := h.signed hh y.msb ((isFinite64_iff y).1 hy)
    have hr : ((value64 (pack64 (decide (x < 0)) mag) : ℚ) : ℝ) = signFactor (decide (x < 0)) * magVal binary64 mag := by
      rw [value64_eq, pack64_msb _ _ hlt, pack64_mag _ _ hlt]
    rw [← hr, ← value64_eq] at a b
    refine ⟨a, fun hh => (b hh).imp (fun h => by exact_mod_cast h) (fun h => ?_)⟩
    have : (pack64 (decide (x < 0)) mag).getLsbD 0 = (pack64 (decide (x < 0)) mag).toNat.testBit 0 := rfl
    rw [this, Nat.testBit_zero, pack64_toNat _ _ hlt]
    simp; omega

/-- A number given by sign and size rounds as its size does. -/
theorem rounds64_signed (z : Bool) {y : ℝ} (hy : 0 < y) {mag : Nat} (h : NearestMag binary64 y mag) :
    Rounds64 (signFactor z * y) (pack64 z mag) := by
  obtain ⟨-, ha, hz⟩ := signed_facts z hy
  have := rounds64_pack (x := signFactor z * y) (by rw [ha]; exact h)
  rwa [hz] at this

/-- Either zero is the number zero rounded. -/
theorem rounds64_zero (z : Bool) : Rounds64 0 (pack64 z 0) := by
  refine ⟨fun h => absurd h (lt_irrefl _), fun h => absurd h (lt_irrefl _), fun h => ?_, fun _ => ⟨?_, fun y _ => ?_⟩⟩
  · exact absurd h (by rw [abs_zero]; exact not_le.2 (sub_pos.2 (pow_lt_pow_right₀ (by norm_num) (by norm_num))))
  · rw [isFinite64_iff, pack64_mag _ _ (by norm_num)]; decide
  · have : ((value64 (pack64 z 0) : ℚ) : ℝ) = 0 := by
      rw [value64_eq, pack64_mag _ _ (by norm_num)]; simp [magVal]
    rw [this, sub_zero, abs_zero]
    refine ⟨abs_nonneg _, fun h => .inl ?_⟩
    have h0 : (0:ℝ) - value64 y = 0 := abs_eq_zero.1 h.symm
    have : ((value64 y : ℚ) : ℝ) = ((value64 (pack64 z 0) : ℚ) : ℝ) := by rw [this]; linarith
    exact_mod_cast this

/-- A finite pattern unpacks to its sign and number. -/
theorem unpack64_finite (a : DWord) (h : IsFinite64 a) :
    ∃ m e, unpack64 a = .fin a.msb m e ∧ (value64 a : ℝ) = signFactor a.msb * (m * 2 ^ e) ∧ m < 2 ^ 53 ∧
      (m = 0 ↔ a.toNat % 2 ^ 63 = 0) := by
  have hm : (a.extractLsb' 0 63).toNat = a.toNat % 2 ^ 63 := by rw [BitVec.extractLsb'_toNat, Nat.shiftRight_zero]
  have hs : a.getLsbD 63 = a.msb := (BitVec.msb_eq_getLsbD_last a).symm
  have hlt := (isFinite64_iff a).1 h
  have hi : infMag binary64 = 0x7FF0000000000000 := rfl
  rw [hi] at hlt
  have hb : binary64 = ⟨53, 2047, -1074⟩ := rfl
  unfold unpack64
  rw [hm, hs, value64_eq]
  unfold fpUnpack magVal
  rw [hb]
  dsimp only
  generalize a.toNat % 2 ^ 63 = mag at *
  rw [if_neg (by omega)]
  by_cases h0 : mag / 2 ^ (53 - 1) = 0
  · rw [if_pos h0, if_pos h0]
    have : mag % 2 ^ (53 - 1) = mag := by omega
    rw [this]
    exact ⟨_, _, rfl, rfl, by omega, Iff.rfl⟩
  · rw [if_neg h0, if_neg h0]
    refine ⟨_, _, rfl, ?_, by omega, by omega⟩
    congr 2
    · push_cast; ring
    · congr 1; omega

/-- `roundMag` in binary64, for an exact number or one with a sticky bit. -/
theorem roundMag64_nearest (m : Nat) (e : Int) (x : ℝ) (hm : m ≠ 0) (hx : StandsFor m e x) (hs : x = m * (2:ℝ) ^ e ∨ 2 ^ 54 ≤ m) :
    NearestMag binary64 x (roundMag binary64 m e) := roundMag_nearest binary64 (by decide) (by decide) m e x hm hx hs

/-! ## Patterns of binary32 -/

/-- The number of a pattern, by its sign and magnitude bits. -/
theorem value32_eq (d : Word) : (value32 d : ℝ) = signFactor d.msb * magVal binary32 (d.toNat % 2 ^ 31) := by
  unfold value32 magVal signFactor
  have e1 : d.toNat % 2 ^ 31 / 2 ^ 23 = d.toNat / 2 ^ 23 % 2 ^ 8 := by omega
  have e2 : d.toNat % 2 ^ 31 % 2 ^ 23 = d.toNat % 2 ^ 23 := by omega
  show _ = _ * if d.toNat % 2 ^ 31 / 2 ^ 23 = 0 then ((d.toNat % 2 ^ 31 : Nat) : ℝ) * 2 ^ (-149 : Int)
    else ((2 ^ 23 + d.toNat % 2 ^ 31 % 2 ^ 23 : Nat) : ℝ) * 2 ^ ((-149 : Int) + ((d.toNat % 2 ^ 31 / 2 ^ 23 : Nat) : Int) - 1)
  rw [e1, e2]
  by_cases h : d.toNat / 2 ^ 23 % 2 ^ 8 = 0
  · have e3 : d.toNat % 2 ^ 31 = d.toNat % 2 ^ 23 := by omega
    rw [if_pos h, if_pos h, e3]; push_cast; congr 1; split <;> norm_num
  · rw [if_neg h, if_neg h]
    have e4 : (-149 : Int) + ((d.toNat / 2 ^ 23 % 2 ^ 8 : Nat) : Int) - 1 = ((d.toNat / 2 ^ 23 % 2 ^ 8 : Nat) : Int) - 150 := by ring
    rw [e4]; push_cast; congr 1; split <;> norm_num

/-- A pattern is finite when its magnitude bits lie below those of the infinity. -/
theorem isFinite32_iff (d : Word) : IsFinite32 d ↔ d.toNat % 2 ^ 31 < infMag binary32 := by
  unfold IsFinite32
  rw [ne_eq, ← BitVec.toNat_inj, BitVec.extractLsb'_toNat, Nat.shiftRight_eq_div_pow]
  show ¬ d.toNat / 2 ^ 23 % 2 ^ 8 = 255 ↔ d.toNat % 2 ^ 31 < 255 * 2 ^ 23
  have := d.isLt; omega

/-- The bits of a packed pattern. -/
theorem pack32_toNat (z : Bool) (mag : Nat) (h : mag < 2 ^ 31) : (pack32 z mag).toNat = z.toNat * 2 ^ 31 + mag := by
  show (BitVec.ofBool z ++ BitVec.ofNat 31 mag : BitVec (1 + 31)).toNat = _
  rw [BitVec.toNat_append, BitVec.toNat_ofNat, Nat.mod_eq_of_lt h, ← Nat.shiftLeft_add_eq_or_of_lt h, Nat.shiftLeft_eq]
  cases z <;> simp

/-- The sign of a packed pattern. -/
theorem pack32_msb (z : Bool) (mag : Nat) (h : mag < 2 ^ 31) : (pack32 z mag).msb = z := by
  rw [BitVec.msb_eq_decide, pack32_toNat z mag h]
  cases z <;> simp
  omega

/-- The magnitude bits of a packed pattern. -/
theorem pack32_mag (z : Bool) (mag : Nat) (h : mag < 2 ^ 31) : (pack32 z mag).toNat % 2 ^ 31 = mag := by
  rw [pack32_toNat z mag h]; cases z <;> simp <;> omega

/-- Half a unit above the largest finite number. -/
theorem threshold32 : ((2:ℝ) ^ binary32.prec - 1 / 2) * 2 ^ (binary32.qmin + binary32.expMax - 2) = 2 ^ 128 - 2 ^ 103 := by
  have e1 : binary32.prec = 24 := rfl
  have e2 : binary32.qmin + binary32.expMax - 2 = (104 : Nat) := by decide
  rw [e1, e2, zpow_natCast, two_pow_split 128 24 104 (by norm_num), sub_mul, two_pow_split 104 1 103 (by norm_num), pow_one]
  generalize (2:ℝ) ^ 103 = c
  ring

/-- A packed nearest magnitude is the number rounded (rule R226). -/
theorem rounds32_pack {x : ℝ} {mag : Nat} (h : NearestMag binary32 |x| mag) : Rounds32 x (pack32 (decide (x < 0)) mag) := by
  have hle : mag ≤ infMag binary32 := by
    rcases le_or_gt ((2 ^ binary32.prec - 1 / 2) * 2 ^ (binary32.qmin + binary32.expMax - 2)) |x| with hh | hh
    · rw [h.1 hh]
    · exact (h.2 hh).1.le
  have hlt : mag < 2 ^ 31 := by
    have : infMag binary32 = 0x7F800000 := rfl
    omega
  refine ⟨fun hn => by rw [pack32_msb _ _ hlt]; simpa using hn, fun hn => by rw [pack32_msb _ _ hlt]; simpa using hn.le, fun hh => ?_, fun hh => ?_⟩
  · apply BitVec.eq_of_toNat_eq
    rw [BitVec.extractLsb'_toNat, Nat.shiftRight_zero, pack32_mag _ _ hlt, h.1 (by rwa [threshold32])]; rfl
  · rw [← threshold32] at hh
    refine ⟨(isFinite32_iff _).2 (by rw [pack32_mag _ _ hlt]; exact (h.2 hh).1), fun y hy => ?_⟩
    obtain ⟨a, b⟩ := h.signed hh y.msb ((isFinite32_iff y).1 hy)
    have hr : ((value32 (pack32 (decide (x < 0)) mag) : ℚ) : ℝ) = signFactor (decide (x < 0)) * magVal binary32 mag := by
      rw [value32_eq, pack32_msb _ _ hlt, pack32_mag _ _ hlt]
    rw [← hr, ← value32_eq] at a b
    refine ⟨a, fun hh => (b hh).imp (fun h => by exact_mod_cast h) (fun h => ?_)⟩
    have : (pack32 (decide (x < 0)) mag).getLsbD 0 = (pack32 (decide (x < 0)) mag).toNat.testBit 0 := rfl
    rw [this, Nat.testBit_zero, pack32_toNat _ _ hlt]
    simp; omega

/-- A number given by sign and size rounds as its size does. -/
theorem rounds32_signed (z : Bool) {y : ℝ} (hy : 0 < y) {mag : Nat} (h : NearestMag binary32 y mag) :
    Rounds32 (signFactor z * y) (pack32 z mag) := by
  obtain ⟨-, ha, hz⟩ := signed_facts z hy
  have := rounds32_pack (x := signFactor z * y) (by rw [ha]; exact h)
  rwa [hz] at this

/-- Either zero is the number zero rounded. -/
theorem rounds32_zero (z : Bool) : Rounds32 0 (pack32 z 0) := by
  refine ⟨fun h => absurd h (lt_irrefl _), fun h => absurd h (lt_irrefl _), fun h => ?_, fun _ => ⟨?_, fun y _ => ?_⟩⟩
  · exact absurd h (by rw [abs_zero]; exact not_le.2 (sub_pos.2 (pow_lt_pow_right₀ (by norm_num) (by norm_num))))
  · rw [isFinite32_iff, pack32_mag _ _ (by norm_num)]; decide
  · have : ((value32 (pack32 z 0) : ℚ) : ℝ) = 0 := by
      rw [value32_eq, pack32_mag _ _ (by norm_num)]; simp [magVal]
    rw [this, sub_zero, abs_zero]
    refine ⟨abs_nonneg _, fun h => .inl ?_⟩
    have h0 : (0:ℝ) - value32 y = 0 := abs_eq_zero.1 h.symm
    have : ((value32 y : ℚ) : ℝ) = ((value32 (pack32 z 0) : ℚ) : ℝ) := by rw [this]; linarith
    exact_mod_cast this

/-! ## Sticky bits -/

/-- The quotient with its sticky bit stands for the exact quotient. -/
theorem stickyQuotient_stands (m1 m2 : Nat) (h1 : m1 ≠ 0) (h2 : m2 ≠ 0) (h3 : m2 < 2 ^ 53) :
    StandsFor (stickyQuotient m1 m2) (-111) ((m1:ℝ) / m2) ∧ 2 ^ 54 ≤ stickyQuotient m1 m2 := by
  have hm2 : (0:ℝ) < m2 := by exact_mod_cast Nat.pos_of_ne_zero h2
  unfold stickyQuotient
  dsimp only
  have e := Nat.div_add_mod (m1 * 2 ^ 110) m2
  have hl := Nat.mod_lt (m1 * 2 ^ 110) (Nat.pos_of_ne_zero h2)
  have hq : 2 ^ 57 ≤ m1 * 2 ^ 110 / m2 := by
    rw [Nat.le_div_iff_mul_le (Nat.pos_of_ne_zero h2)]
    calc 2 ^ 57 * m2 ≤ 2 ^ 57 * 2 ^ 53 := Nat.mul_le_mul_left _ h3.le
      _ = 2 ^ 110 := by norm_num
      _ ≤ m1 * 2 ^ 110 := Nat.le_mul_of_pos_left _ (Nat.pos_of_ne_zero h1)
  generalize m1 * 2 ^ 110 / m2 = p at *
  generalize hr : m1 * 2 ^ 110 % m2 = r at *
  have eR : (m2:ℝ) * p + r = m1 * 2 ^ 110 := by exact_mod_cast e
  have hz : (2:ℝ) ^ (-111 : Int) = 1 / (2 * 2 ^ 110) := by norm_num
  have hx : (m1:ℝ) / m2 = (2 * p + 2 * (r / m2)) * 2 ^ (-111 : Int) := by
    rw [hz]; field_simp; linarith
  refine ⟨?_, by split <;> omega⟩
  have hp : (0:ℝ) < 2 ^ (-111 : Int) := by positivity
  split
  · rename_i h; left
    rw [hx, h]; push_cast; simp
  · rename_i h; right
    have f0 : 0 < (r:ℝ) / m2 := by have : 0 < r := by omega
                                   have : (0:ℝ) < r := by exact_mod_cast this
                                   positivity
    have f1 : (r:ℝ) / m2 < 1 := by rw [div_lt_one hm2]; exact_mod_cast hl
    refine ⟨by omega, ?_, ?_⟩ <;> rw [hx] <;> apply mul_lt_mul_of_pos_right _ hp <;> push_cast <;> linarith

/-- The root found bit by bit is the integer square root. -/
theorem isqrtFrom_spec (i n acc : Nat) (h1 : acc * acc ≤ n) (h2 : n < (acc + 2 ^ i) * (acc + 2 ^ i)) :
    isqrtFrom i n acc * isqrtFrom i n acc ≤ n ∧ n < (isqrtFrom i n acc + 1) * (isqrtFrom i n acc + 1) := by
  induction i generalizing acc with
  | zero => exact ⟨h1, by simpa [isqrtFrom] using h2⟩
  | succ i ih =>
    unfold isqrtFrom
    dsimp only
    split
    · rename_i h; exact ih _ h (by rwa [Nat.add_assoc, ← Nat.two_mul, ← pow_succ'])
    · rename_i h; exact ih _ h1 (by omega)

/-- The root with its sticky bit stands for the exact root. -/
theorem stickyRoot_stands (n : Nat) (h : n < 2 ^ 168) (hn : 2 ^ 112 ≤ n) :
    StandsFor (stickyRoot n) (-1) (Real.sqrt n) ∧ 2 ^ 54 ≤ stickyRoot n := by
  obtain ⟨h1, h2⟩ := isqrtFrom_spec 84 n 0 (by omega) (by rw [Nat.zero_add, ← pow_add]; exact h)
  unfold stickyRoot
  dsimp only
  generalize isqrtFrom 84 n 0 = q at *
  have hq : 2 ^ 56 ≤ q := by
    by_contra hc
    have : (q + 1) * (q + 1) ≤ 2 ^ 56 * 2 ^ 56 := Nat.mul_le_mul (by omega) (by omega)
    rw [← pow_add] at this; omega
  have h1R : (q:ℝ) * q ≤ n := by exact_mod_cast h1
  have h2R : (n:ℝ) < (q + 1) * (q + 1) := by exact_mod_cast h2
  refine ⟨?_, by split <;> omega⟩
  rw [StandsFor, zpow_neg_one]
  split
  · rename_i he; left
    rw [← he]; push_cast; rw [Real.sqrt_mul_self (by positivity)]; ring
  · rename_i he; right
    have hne : (q:ℝ) * q < n := lt_of_le_of_ne h1R (by exact_mod_cast he)
    have l : (q:ℝ) < Real.sqrt n := Real.lt_sqrt_of_sq_lt (by rw [sq]; exact hne)
    have u : Real.sqrt n < q + 1 := by rw [Real.sqrt_lt' (by positivity), sq]; exact h2R
    refine ⟨by omega, ?_, ?_⟩ <;> push_cast <;> linarith

/-- Scaling by a power of two. -/
theorem StandsFor.scale {m : Nat} {e : Int} {x : ℝ} (h : StandsFor m e x) (j : Int) : StandsFor m (e + j) (x * 2 ^ j) := by
  have hp : (0:ℝ) < 2 ^ j := by positivity
  have ee : (2:ℝ) ^ (e + j) = 2 ^ e * 2 ^ j := zpow_add₀ (by norm_num) _ _
  rcases h with h | ⟨ho, h1, h2⟩
  · left; rw [h, ee]; ring
  · right; refine ⟨ho, ?_, ?_⟩
    · rw [ee, ← mul_assoc]; exact mul_lt_mul_of_pos_right h1 hp
    · rw [ee, ← mul_assoc]; exact mul_lt_mul_of_pos_right h2 hp

end Sys2Proof.Machine
end

