-- ==== Sys2Proof/Laws/PerInstr.lean ====
section
/-!
SUPPORT. The families of statements made per instruction (LAWS.json): one lemma for each constructor of `Instr`.
-/

namespace Sys2Proof.Laws.EncodedLength

/-- The first halfword of the encoding says how long the encoding is (rule R70): a second halfword is there exactly where the first asks for it. -/
def Statement (i : Instr) : Prop :=
  ∃ h rest, encode i = h :: rest ∧ needsSecondHalf h = i.isLong ∧ rest.length = (if i.isLong then 1 else 0)

theorem br (disp8 : BitVec 8) : Statement (.br disp8) :=
  ⟨_, _, rfl, by rw [needsSecondHalf, fieldOp_packHalf8]; rfl, rfl⟩
theorem bns (disp8 : BitVec 8) : Statement (.bns disp8) :=
  ⟨_, _, rfl, by rw [needsSecondHalf, fieldOp_packHalf8]; rfl, rfl⟩
theorem bzs (disp8 : BitVec 8) : Statement (.bzs disp8) :=
  ⟨_, _, rfl, by rw [needsSecondHalf, fieldOp_packHalf8]; rfl, rfl⟩
theorem bvs (disp8 : BitVec 8) : Statement (.bvs disp8) :=
  ⟨_, _, rfl, by rw [needsSecondHalf, fieldOp_packHalf8]; rfl, rfl⟩
theorem bcs (disp8 : BitVec 8) : Statement (.bcs disp8) :=
  ⟨_, _, rfl, by rw [needsSecondHalf, fieldOp_packHalf8]; rfl, rfl⟩
theorem blt (disp8 : BitVec 8) : Statement (.blt disp8) :=
  ⟨_, _, rfl, by rw [needsSecondHalf, fieldOp_packHalf8]; rfl, rfl⟩
theorem ble (disp8 : BitVec 8) : Statement (.ble disp8) :=
  ⟨_, _, rfl, by rw [needsSecondHalf, fieldOp_packHalf8]; rfl, rfl⟩
theorem bleu (disp8 : BitVec 8) : Statement (.bleu disp8) :=
  ⟨_, _, rfl, by rw [needsSecondHalf, fieldOp_packHalf8]; rfl, rfl⟩
theorem nop (disp8 : BitVec 8) : Statement (.nop disp8) :=
  ⟨_, _, rfl, by rw [needsSecondHalf, fieldOp_packHalf8]; rfl, rfl⟩
theorem bnr (disp8 : BitVec 8) : Statement (.bnr disp8) :=
  ⟨_, _, rfl, by rw [needsSecondHalf, fieldOp_packHalf8]; rfl, rfl⟩
theorem bzr (disp8 : BitVec 8) : Statement (.bzr disp8) :=
  ⟨_, _, rfl, by rw [needsSecondHalf, fieldOp_packHalf8]; rfl, rfl⟩
theorem bvr (disp8 : BitVec 8) : Statement (.bvr disp8) :=
  ⟨_, _, rfl, by rw [needsSecondHalf, fieldOp_packHalf8]; rfl, rfl⟩
theorem bcr (disp8 : BitVec 8) : Statement (.bcr disp8) :=
  ⟨_, _, rfl, by rw [needsSecondHalf, fieldOp_packHalf8]; rfl, rfl⟩
theorem bge (disp8 : BitVec 8) : Statement (.bge disp8) :=
  ⟨_, _, rfl, by rw [needsSecondHalf, fieldOp_packHalf8]; rfl, rfl⟩
theorem bgt (disp8 : BitVec 8) : Statement (.bgt disp8) :=
  ⟨_, _, rfl, by rw [needsSecondHalf, fieldOp_packHalf8]; rfl, rfl⟩
theorem bgtu (disp8 : BitVec 8) : Statement (.bgtu disp8) :=
  ⟨_, _, rfl, by rw [needsSecondHalf, fieldOp_packHalf8]; rfl, rfl⟩
theorem cpuset (src : RegNo) (k : BitVec 4) : Statement (.cpuset src k) :=
  ⟨_, _, rfl, by rw [needsSecondHalf, fieldOp_packHalf]; rfl, rfl⟩
theorem cpuget (dst : RegNo) (k : BitVec 4) : Statement (.cpuget dst k) :=
  ⟨_, _, rfl, by rw [needsSecondHalf, fieldOp_packHalf]; rfl, rfl⟩
theorem coset (src : RegNo) (k : BitVec 4) : Statement (.coset src k) :=
  ⟨_, _, rfl, by rw [needsSecondHalf, fieldOp_packHalf]; rfl, rfl⟩
theorem coget (dst : RegNo) (k : BitVec 4) : Statement (.coget dst k) :=
  ⟨_, _, rfl, by rw [needsSecondHalf, fieldOp_packHalf]; rfl, rfl⟩
theorem plus (dst src : RegNo) : Statement (.plus dst src) :=
  ⟨_, _, rfl, by rw [needsSecondHalf, fieldOp_packHalf]; rfl, rfl⟩
theorem adjust (dst : RegNo) (sel : BitVec 4) : Statement (.adjust dst sel) :=
  ⟨_, _, rfl, by rw [needsSecondHalf, fieldOp_packHalf]; rfl, rfl⟩
theorem subb (dst src : RegNo) : Statement (.subb dst src) :=
  ⟨_, _, rfl, by rw [needsSecondHalf, fieldOp_packHalf]; rfl, rfl⟩
theorem addc (dst src : RegNo) : Statement (.addc dst src) :=
  ⟨_, _, rfl, by rw [needsSecondHalf, fieldOp_packHalf]; rfl, rfl⟩
theorem illegal18 (dst s2 : BitVec 4) : Statement (.illegal18 dst s2) :=
  ⟨_, _, rfl, by rw [needsSecondHalf, fieldOp_packHalf]; rfl, rfl⟩
theorem equ (dst src : RegNo) : Statement (.equ dst src) :=
  ⟨_, _, rfl, by rw [needsSecondHalf, fieldOp_packHalf]; rfl, rfl⟩
theorem or (dst src : RegNo) : Statement (.or dst src) :=
  ⟨_, _, rfl, by rw [needsSecondHalf, fieldOp_packHalf]; rfl, rfl⟩
theorem and (dst src : RegNo) : Statement (.and dst src) :=
  ⟨_, _, rfl, by rw [needsSecondHalf, fieldOp_packHalf]; rfl, rfl⟩
theorem addsi (dst : RegNo) (c : Int) : Statement (.addsi dst c) :=
  ⟨_, _, rfl, by rw [needsSecondHalf, fieldOp_packHalf]; rfl, rfl⟩
theorem btrunc (dst : RegNo) (n : Nat) : Statement (.btrunc dst n) :=
  ⟨_, _, rfl, by rw [needsSecondHalf, fieldOp_packHalf]; rfl, rfl⟩
theorem sxt (dst : RegNo) (n : Nat) : Statement (.sxt dst n) :=
  ⟨_, _, rfl, by rw [needsSecondHalf, fieldOp_packHalf]; rfl, rfl⟩
theorem trunc (dst : RegNo) (n : Nat) : Statement (.trunc dst n) :=
  ⟨_, _, rfl, by rw [needsSecondHalf, fieldOp_packHalf]; rfl, rfl⟩
theorem sub (dst s1 s2 : RegNo) : Statement (.sub dst s1 s2) :=
  ⟨_, _, rfl, by rw [needsSecondHalf, fieldOp_packHalf]; rfl, rfl⟩
theorem add (dst s1 s2 : RegNo) : Statement (.add dst s1 s2) :=
  ⟨_, _, rfl, by rw [needsSecondHalf, fieldOp_packHalf]; rfl, rfl⟩
theorem exth (dst s1 s2 : RegNo) : Statement (.exth dst s1 s2) :=
  ⟨_, _, rfl, by rw [needsSecondHalf, fieldOp_packHalf]; rfl, rfl⟩
theorem extb (dst s1 s2 : RegNo) : Statement (.extb dst s1 s2) :=
  ⟨_, _, rfl, by rw [needsSecondHalf, fieldOp_packHalf]; rfl, rfl⟩
theorem stuffh (dst s1 s2 : RegNo) : Statement (.stuffh dst s1 s2) :=
  ⟨_, _, rfl, by rw [needsSecondHalf, fieldOp_packHalf]; rfl, rfl⟩
theorem stuffb (dst s1 s2 : RegNo) : Statement (.stuffb dst s1 s2) :=
  ⟨_, _, rfl, by rw [needsSecondHalf, fieldOp_packHalf]; rfl, rfl⟩
theorem addsru (dst s1 : RegNo) (n : Nat) : Statement (.addsru dst s1 n) :=
  ⟨_, _, rfl, by rw [needsSecondHalf, fieldOp_packHalf]; rfl, rfl⟩
theorem addsr (dst s1 : RegNo) (n : Nat) : Statement (.addsr dst s1 n) :=
  ⟨_, _, rfl, by rw [needsSecondHalf, fieldOp_packHalf]; rfl, rfl⟩
theorem movesl (dst s1 : RegNo) (n : Nat) : Statement (.movesl dst s1 n) :=
  ⟨_, _, rfl, by rw [needsSecondHalf, fieldOp_packHalf]; rfl, rfl⟩
theorem addsl (dst s1 : RegNo) (n : Nat) : Statement (.addsl dst s1 n) :=
  ⟨_, _, rfl, by rw [needsSecondHalf, fieldOp_packHalf]; rfl, rfl⟩
theorem oris (dst : RegNo) (const8 : BitVec 8) : Statement (.oris dst const8) :=
  ⟨_, _, rfl, by rw [needsSecondHalf, fieldOp_packHalf8]; rfl, rfl⟩
theorem lis (dst : RegNo) (const8 : BitVec 8) : Statement (.lis dst const8) :=
  ⟨_, _, rfl, by rw [needsSecondHalf, fieldOp_packHalf8]; rfl, rfl⟩
theorem lil (dst : RegNo) (const24 : BitVec 24) : Statement (.lil dst const24) :=
  ⟨_, _, rfl, by rw [needsSecondHalf, fieldOp_packHalf8]; rfl, rfl⟩
theorem illegalF0 (dst s2 : BitVec 4) : Statement (.illegalF0 dst s2) :=
  ⟨_, _, rfl, by rw [needsSecondHalf, fieldOp_packHalf, fieldS1_packHalf]; rfl, rfl⟩
theorem illegalF1 (dst s2 : BitVec 4) : Statement (.illegalF1 dst s2) :=
  ⟨_, _, rfl, by rw [needsSecondHalf, fieldOp_packHalf, fieldS1_packHalf]; rfl, rfl⟩
theorem store (src x : RegNo) (disp16 : BitVec 16) : Statement (.store src x disp16) :=
  ⟨_, _, rfl, by rw [needsSecondHalf, fieldOp_packHalf, fieldS1_packHalf]; rfl, rfl⟩
theorem jsr (dst x : RegNo) (disp16 : BitVec 16) : Statement (.jsr dst x disp16) :=
  ⟨_, _, rfl, by rw [needsSecondHalf, fieldOp_packHalf, fieldS1_packHalf]; rfl, rfl⟩
theorem loadcc (dst x : RegNo) (disp16 : BitVec 16) : Statement (.loadcc dst x disp16) :=
  ⟨_, _, rfl, by rw [needsSecondHalf, fieldOp_packHalf, fieldS1_packHalf]; rfl, rfl⟩
theorem load (dst x : RegNo) (disp16 : BitVec 16) : Statement (.load dst x disp16) :=
  ⟨_, _, rfl, by rw [needsSecondHalf, fieldOp_packHalf, fieldS1_packHalf]; rfl, rfl⟩
theorem leacc (dst x : RegNo) (disp16 : BitVec 16) : Statement (.leacc dst x disp16) :=
  ⟨_, _, rfl, by rw [needsSecondHalf, fieldOp_packHalf, fieldS1_packHalf]; rfl, rfl⟩
theorem lea (dst x : RegNo) (disp16 : BitVec 16) : Statement (.lea dst x disp16) :=
  ⟨_, _, rfl, by rw [needsSecondHalf, fieldOp_packHalf, fieldS1_packHalf]; rfl, rfl⟩
theorem storec (src x : RegNo) : Statement (.storec src x) :=
  ⟨_, _, rfl, by rw [needsSecondHalf, fieldOp_packHalf, fieldS1_packHalf]; rfl, rfl⟩
theorem loadl (dst x : RegNo) : Statement (.loadl dst x) :=
  ⟨_, _, rfl, by rw [needsSecondHalf, fieldOp_packHalf, fieldS1_packHalf]; rfl, rfl⟩
theorem stores (src x : RegNo) : Statement (.stores src x) :=
  ⟨_, _, rfl, by rw [needsSecondHalf, fieldOp_packHalf, fieldS1_packHalf]; rfl, rfl⟩
theorem jsrs (dst x : RegNo) : Statement (.jsrs dst x) :=
  ⟨_, _, rfl, by rw [needsSecondHalf, fieldOp_packHalf, fieldS1_packHalf]; rfl, rfl⟩
theorem loadscc (dst x : RegNo) : Statement (.loadscc dst x) :=
  ⟨_, _, rfl, by rw [needsSecondHalf, fieldOp_packHalf, fieldS1_packHalf]; rfl, rfl⟩
theorem loads (dst x : RegNo) : Statement (.loads dst x) :=
  ⟨_, _, rfl, by rw [needsSecondHalf, fieldOp_packHalf, fieldS1_packHalf]; rfl, rfl⟩
theorem movecc (dst x : RegNo) : Statement (.movecc dst x) :=
  ⟨_, _, rfl, by rw [needsSecondHalf, fieldOp_packHalf, fieldS1_packHalf]; rfl, rfl⟩
theorem move (dst x : RegNo) : Statement (.move dst x) :=
  ⟨_, _, rfl, by rw [needsSecondHalf, fieldOp_packHalf, fieldS1_packHalf]; rfl, rfl⟩

end Sys2Proof.Laws.EncodedLength
end

