-- ==== Sys2Proof/Machine/Pseudo.lean ====
section
/-!
DEFINITION. The pseudo-instructions (rule R91), each exactly one instruction, and the symbolic operand numbers (rule R92).
-/

namespace Sys2Proof.Machine

/-! ## Pseudo-instructions (rule R91) -/

/-- `NOP`. -/
def pseudoNop : Instr := .nop 0
/-- `BEQ`. -/
def pseudoBeq (disp8 : BitVec 8) : Instr := .bzs disp8
/-- `BNE`. -/
def pseudoBne (disp8 : BitVec 8) : Instr := .bzr disp8
/-- `BGEU`. -/
def pseudoBgeu (disp8 : BitVec 8) : Instr := .bcs disp8
/-- `BLTU`. -/
def pseudoBltu (disp8 : BitVec 8) : Instr := .bcr disp8
/-- `JUMP x,disp16`. -/
def pseudoJump (x : RegNo) (disp16 : BitVec 16) : Instr := .jsr 0 x disp16
/-- `JUMPS x`. -/
def pseudoJumps (x : RegNo) : Instr := .jsrs 0 x
/-- `CMP s1,s2`. -/
def pseudoCmp (s1 s2 : RegNo) : Instr := .sub 0 s1 s2
/-- `CMPI s,c`. -/
def pseudoCmpi (s : RegNo) (c : BitVec 16) : Instr := .leacc 0 s (-c)
/-- `ADDI dst,s,c`. -/
def pseudoAddi (dst s : RegNo) (c : BitVec 16) : Instr := .leacc dst s c
/-- `TESTR s`. -/
def pseudoTestr (s : RegNo) : Instr := .movecc 0 s
/-- `NEG dst,s`. -/
def pseudoNeg (dst s : RegNo) : Instr := .sub dst 0 s
/-- `NOT dst`. -/
def pseudoNot (dst : RegNo) : Instr := .equ dst 0
/-- `CLR dst`. -/
def pseudoClr (dst : RegNo) : Instr := .lis dst 0
/-- `SL dst,n`. -/
def pseudoSl (dst : RegNo) (n : Nat) : Instr := .movesl dst dst n
/-- `SR dst,n`. -/
def pseudoSr (dst : RegNo) (n : Nat) : Instr := .addsr dst 0 n
/-- `SRU dst,n`. -/
def pseudoSru (dst : RegNo) (n : Nat) : Instr := .addsru dst 0 n

/-! ## Symbolic operand numbers (rule R92) -/

/-- Special register numbers. -/
def specPsw : BitVec 4 := 0
def specTpc : BitVec 4 := 1
def specTma : BitVec 4 := 2
def specTsv : BitVec 4 := 3
def specCyc : BitVec 4 := 8

/-- Coprocessor register numbers; an operation offset is added to `FPA0` or `FPA1`. -/
def coprCostat : BitVec 4 := 0
def coprFplow : BitVec 4 := 1
def coprFpa0 : BitVec 4 := 2
def coprFpa1 : BitVec 4 := 3
def offsetFpint : BitVec 4 := 2
def offsetFpsqrt : BitVec 4 := 4
def offsetFpadd : BitVec 4 := 6
def offsetFpsub : BitVec 4 := 8
def offsetFpmul : BitVec 4 := 10
def offsetFpdiv : BitVec 4 := 12

/-- COSTAT values. -/
def costatFpenab : Word := 0x0200
def costatFpsel : Word := 0x0010
def costatFplong : Word := 0x0001

/-- ADJUST selectors. -/
def adjustBcd : BitVec 4 := 2
def adjustEx3 : BitVec 4 := 3
def adjustSsq : BitVec 4 := 5
/-- `PLUS1` to `PLUS128`: selector `8 + j` adds `2^j`. -/
def adjustPlus (j : Fin 8) : BitVec 4 := 8 + BitVec.ofNat 4 j

end Sys2Proof.Machine
end

