-- ==== Sys2Proof/Tests/Slice0.lean ====
section
/-!
SUPPORT. Tests: the checks of `Instr.wf`, the decoding of written-out words, one-step examples from the spec, and for every statement
of the certificates that has hypotheses a state and operands that meet them.
-/

namespace Sys2Proof.Machine

/-! ## WellFormed refuses what no encoding spells (rule R74) -/

theorem test_wf_count_zero : (Instr.trunc 3 0).wf = false := by decide
theorem test_wf_count_seventeen : (Instr.addsl 3 3 17).wf = false := by decide
theorem test_wf_count_sixteen : (Instr.btrunc 3 16).wf = true := by decide
theorem test_wf_constant_zero : (Instr.addsi 3 0).wf = false := by decide
theorem test_wf_constant_nine : (Instr.addsi 3 9).wf = false := by decide
theorem test_wf_constant_minus_nine : (Instr.addsi 3 (-9)).wf = false := by decide
theorem test_wf_constant_minus_eight : (Instr.addsi 3 (-8)).wf = true := by decide

/-! ## Words written out from the encoding tables and the examples of the rules (rules R71 to R78) -/

/-- Rules R149 to R164: the first byte is the condition, the second `disp8`. -/
theorem test_decode_branches :
    decodeTableWord 16 0xFE00 = some (.br 0xFE) ∧
    decodeTableWord 16 0x0501 = some (.bns 5) ∧
    decodeTableWord 16 0x0502 = some (.bzs 5) ∧
    decodeTableWord 16 0x0503 = some (.bvs 5) ∧
    decodeTableWord 16 0x0504 = some (.bcs 5) ∧
    decodeTableWord 16 0x0505 = some (.blt 5) ∧
    decodeTableWord 16 0x0506 = some (.ble 5) ∧
    decodeTableWord 16 0x0507 = some (.bleu 5) ∧
    decodeTableWord 16 0x0508 = some (.nop 5) ∧
    decodeTableWord 16 0x0509 = some (.bnr 5) ∧
    decodeTableWord 16 0x050A = some (.bzr 5) ∧
    decodeTableWord 16 0x050B = some (.bvr 5) ∧
    decodeTableWord 16 0x050C = some (.bcr 5) ∧
    decodeTableWord 16 0x050D = some (.bge 5) ∧
    decodeTableWord 16 0x050E = some (.bgt 5) ∧
    decodeTableWord 16 0x050F = some (.bgtu 5) := by
  decide

/-- Examples of rules R196, R197, R204, R208, R217. -/
theorem test_decode_special :
    decodeTableWord 16 0x0013 = some (.cpuset 3 0) ∧
    decodeTableWord 16 0x0113 = some (.cpuset 3 1) ∧
    decodeTableWord 16 0x1013 = some (.cpuget 3 0) ∧
    decodeTableWord 16 0x1814 = some (.cpuget 4 8) ∧
    decodeTableWord 16 0x2013 = some (.coset 3 0) ∧
    decodeTableWord 16 0x2114 = some (.coset 4 1) ∧
    decodeTableWord 16 0x3213 = some (.coget 3 2) ∧
    decodeTableWord 16 0x3114 = some (.coget 4 1) := by
  decide

/-- Examples of rules R184 to R195, and rule R78. -/
theorem test_decode_two_register :
    decodeTableWord 16 0x4413 = some (.plus 3 4) ∧
    decodeTableWord 16 0x5213 = some (.adjust 3 2) ∧
    decodeTableWord 16 0x5F13 = some (.adjust 3 15) ∧
    decodeTableWord 16 0x6413 = some (.subb 3 4) ∧
    decodeTableWord 16 0x7413 = some (.addc 3 4) ∧
    decodeTableWord 16 0x8A13 = some (.illegal18 3 10) ∧
    decodeTableWord 16 0x9413 = some (.equ 3 4) ∧
    decodeTableWord 16 0xA413 = some (.or 3 4) ∧
    decodeTableWord 16 0xB413 = some (.and 3 4) := by
  decide

/-- Examples of rules R180 to R183. -/
theorem test_decode_register_constant :
    decodeTableWord 16 0xCF13 = some (.addsi 3 (-1)) ∧
    decodeTableWord 16 0xC013 = some (.addsi 3 8) ∧
    decodeTableWord 16 0xD213 = some (.btrunc 3 2) ∧
    decodeTableWord 16 0xE813 = some (.sxt 3 8) ∧
    decodeTableWord 16 0xE013 = some (.sxt 3 16) ∧
    decodeTableWord 16 0xF813 = some (.trunc 3 8) := by
  decide

/-- Examples of rules R172 to R177. -/
theorem test_decode_three_register :
    decodeTableWord 16 0x4523 = some (.sub 3 4 5) ∧
    decodeTableWord 16 0x4533 = some (.add 3 4 5) ∧
    decodeTableWord 16 0x4344 = some (.exth 4 4 3) ∧
    decodeTableWord 16 0x4354 = some (.extb 4 4 3) ∧
    decodeTableWord 16 0x4365 = some (.stuffh 5 4 3) ∧
    decodeTableWord 16 0x4375 = some (.stuffb 5 4 3) := by
  decide

/-- Examples of rules R167 to R170. -/
theorem test_decode_shift_constant :
    decodeTableWord 16 0x0483 = some (.addsru 3 0 4) ∧
    decodeTableWord 16 0x0193 = some (.addsr 3 0 1) ∧
    decodeTableWord 16 0x44A3 = some (.movesl 3 4 4) ∧
    decodeTableWord 16 0x40A3 = some (.movesl 3 4 16) ∧
    decodeTableWord 16 0x32B3 = some (.addsl 3 3 2) := by
  decide

/-- Examples of rules R140 to R142. -/
theorem test_decode_immediate_load :
    decodeTableWord 16 0x78C3 = some (.oris 3 0x78) ∧
    decodeTableWord 16 0x05D3 = some (.lis 3 5) ∧
    decodeTableWord 32 0x012345E3 = some (.lil 3 0x012345) ∧
    decodeTableWord 32 0xFFFFFEE3 = some (.lil 3 0xFFFFFE) := by
  decide

/-- Examples of rules R123 to R128. -/
theorem test_decode_memory_long :
    decodeTableWord 32 0x000824F3 = some (.store 3 4 8) ∧
    decodeTableWord 32 0x010030F1 = some (.jsr 1 0 0x100) ∧
    decodeTableWord 32 0x000044F0 = some (.loadcc 0 4 0) ∧
    decodeTableWord 32 0x001054F3 = some (.load 3 4 0x10) ∧
    decodeTableWord 32 0xFFFB63F0 = some (.leacc 0 3 0xFFFB) ∧
    decodeTableWord 32 0xFFFC74F3 = some (.lea 3 4 0xFFFC) := by
  decide

/-- Examples of rules R129 to R139. -/
theorem test_decode_memory_short :
    decodeTableWord 16 0x85F3 = some (.storec 3 5) ∧
    decodeTableWord 16 0x95F3 = some (.loadl 3 5) ∧
    decodeTableWord 16 0xA4F3 = some (.stores 3 4) ∧
    decodeTableWord 16 0xB1F0 = some (.jsrs 0 1) ∧
    decodeTableWord 16 0xC4F3 = some (.loadscc 3 4) ∧
    decodeTableWord 16 0xD4F3 = some (.loads 3 4) ∧
    decodeTableWord 16 0xE3F0 = some (.movecc 0 3) ∧
    decodeTableWord 16 0xF6F5 = some (.move 5 6) ∧
    decodeTableWord 16 0x00F0 = some (.illegalF0 0 0) ∧
    decodeTableWord 16 0x10F0 = some (.illegalF1 0 0) := by
  decide

theorem test_decode_refuses_a_missing_halfword : decodeBytes [0xE3, 0x45, 0x23] = .error .secondHalfwordMissing := by decide
theorem test_decode_refuses_a_single_byte : decodeBytes [0xE3] = .error .firstHalfwordMissing := by decide

/-! ## One step on a small state -/

/-- The reset state with some registers set. -/
def withRegs (l : List (RegNo × Word)) : State := l.foldl (fun s p => writeReg s p.1 p.2) State.reset

/-- A register of a next state. -/
def regOf (o : Result) (r : RegNo) : Option Word :=
  match o with
  | .next t => some (readReg t r)
  | .fault _ => none
  | .refused _ => none

/-- The flags `N Z V C` as a nibble, and `CB`, of a next state. -/
def flagsOf (o : Result) : Option (BitVec 4 × BitVec 8) :=
  match o with
  | .next t => some (((pswValue t).extractLsb' 0 4), t.flags.cb)
  | .fault _ => none
  | .refused _ => none

/-- The pc of a next state. -/
def pcOf (o : Result) : Option Word :=
  match o with
  | .next t => some t.pc
  | .fault _ => none
  | .refused _ => none

/-- Rule R172, first and second example. -/
theorem test_add_overflow_and_digit_carries :
    regOf (exec (.add 3 4 5) (withRegs [(4, 0x7FFFFFFF), (5, 1)])) 3 = some 0x80000000 ∧
    flagsOf (exec (.add 3 4 5) (withRegs [(4, 0x7FFFFFFF), (5, 1)])) = some (0xA, 0x7F) ∧
    regOf (exec (.add 3 4 5) (withRegs [(4, 0xFFFFFFFF), (5, 1)])) 3 = some 0 ∧
    flagsOf (exec (.add 3 4 5) (withRegs [(4, 0xFFFFFFFF), (5, 1)])) = some (0x5, 0xFF) := by
  decide

/-- Rule R173, first and third example. -/
theorem test_sub_borrow :
    regOf (exec (.sub 3 4 5) (withRegs [(4, 5), (5, 7)])) 3 = some 0xFFFFFFFE ∧
    flagsOf (exec (.sub 3 4 5) (withRegs [(4, 5), (5, 7)])) = some (0x8, 0) ∧
    regOf (exec (.sub 3 4 5) (withRegs [(4, 0x80000000), (5, 1)])) 3 = some 0x7FFFFFFF := by
  decide

/-- Rule R174, with the source also the destination. -/
theorem test_extb_reads_byte_two :
    regOf (exec (.extb 4 4 3) (withRegs [(4, 0x11223344), (3, 0x00010002)])) 4 = some 0x22 := by
  decide

/-- Rule R175. -/
theorem test_exth_reads_the_high_half :
    regOf (exec (.exth 4 4 3) (withRegs [(4, 0x11223344), (3, 0x00010002)])) 4 = some 0x1122 := by
  decide

/-- Rule R176. -/
theorem test_stuffb_keeps_the_other_bytes :
    regOf (exec (.stuffb 5 4 3) (withRegs [(5, 0x11223344), (4, 0xAB), (3, 1)])) 5 = some 0x1122AB44 := by
  decide

/-- Rule R177. -/
theorem test_stuffh_keeps_the_other_half :
    regOf (exec (.stuffh 5 4 3) (withRegs [(5, 0x11223344), (4, 0xBEEF), (3, 2)])) 5 = some 0xBEEF3344 := by
  decide

/-- Rule R180. -/
theorem test_addsi_minus_one :
    regOf (exec (.addsi 3 (-1)) (withRegs [(3, 1)])) 3 = some 0 ∧
    flagsOf (exec (.addsi 3 (-1)) (withRegs [(3, 1)])) = some (0x5, 0xFF) ∧
    regOf (exec (.addsi 3 8) (withRegs [(3, 0x7FFFFFF8)])) 3 = some 0x80000000 := by
  decide

/-- Rule R181. -/
theorem test_trunc_keeps_the_low_byte :
    regOf (exec (.trunc 3 8) (withRegs [(3, 0x12345678)])) 3 = some 0x78 := by
  decide

/-- Rule R182. -/
theorem test_sxt_extends_the_sign :
    regOf (exec (.sxt 3 8) (withRegs [(3, 0x1280)])) 3 = some 0xFFFFFF80 ∧
    regOf (exec (.sxt 3 16) (withRegs [(3, 0x17FFF)])) 3 = some 0x7FFF := by
  decide

/-- Rule R183: at `pc_inst = 0x1000` with index 2. -/
theorem test_btrunc_indexes :
    pcOf (exec (.btrunc 3 2) { withRegs [(3, 6)] with pc := 0x1002 }) = some 0x1006 := by
  decide

/-- Rule R167, first and third example. -/
theorem test_movesl_overflows :
    regOf (exec (.movesl 3 4 4) (withRegs [(4, 0x0FFFFFFF)])) 3 = some 0xFFFFFFF0 ∧
    flagsOf (exec (.movesl 3 4 4) (withRegs [(4, 0x0FFFFFFF)])) = some (0xA, 0) ∧
    regOf (exec (.movesl 3 4 16) (withRegs [(4, 0x00010000)])) 3 = some 0 ∧
    flagsOf (exec (.movesl 3 4 16) (withRegs [(4, 0x00010000)])) = some (0x6, 0) := by
  decide

/-- Rule R168, with the destination also the source. -/
theorem test_addsl_multiplies_by_five :
    regOf (exec (.addsl 3 3 2) (withRegs [(3, 5)])) 3 = some 25 ∧
    flagsOf (exec (.addsl 3 3 2) (withRegs [(3, 5)])) = some (0, 0) := by
  decide

/-- Rule R169. -/
theorem test_addsr_averages :
    regOf (exec (.addsr 3 0 1) (withRegs [(3, 0xFFFFFFFB)])) 3 = some 0xFFFFFFFD ∧
    flagsOf (exec (.addsr 3 0 1) (withRegs [(3, 0xFFFFFFFB)])) = some (0x8, 0) ∧
    regOf (exec (.addsr 3 4 1) (withRegs [(3, 0x7FFFFFFF), (4, 0x7FFFFFFF)])) 3 = some 0x7FFFFFFF := by
  decide

/-- Rule R170. -/
theorem test_addsru_keeps_the_carry :
    regOf (exec (.addsru 3 0 4) (withRegs [(3, 0x80000010)])) 3 = some 0x08000001 ∧
    regOf (exec (.addsru 3 4 1) (withRegs [(3, 0xFFFFFFFF), (4, 0xFFFFFFFF)])) 3 = some 0xFFFFFFFF := by
  decide

/-- Rules R184, R194, R195. -/
theorem test_logic_examples :
    regOf (exec (.and 3 4) (withRegs [(3, 0xF0F0F0F0), (4, 0xFF00FF00)])) 3 = some 0xF000F000 ∧
    regOf (exec (.or 3 4) (withRegs [(3, 0x0000FF00), (4, 0xFF)])) 3 = some 0xFFFF ∧
    regOf (exec (.equ 3 4) (withRegs [(3, 0x0000FFFF), (4, 0x00FF00FF)])) 3 = some 0xFF0000FF := by
  decide

/-- Rule R186. -/
theorem test_addc_adds_the_carry :
    regOf (exec (.addc 3 4) { withRegs [(3, 1), (4, 2)] with flags := ⟨false, false, false, true, 0⟩ }) 3 = some 4 := by
  decide

/-- Rule R187. -/
theorem test_subb_takes_the_borrow :
    regOf (exec (.subb 3 4) (withRegs [(3, 5), (4, 2)])) 3 = some 2 := by
  decide

/-- Rule R188 and rule R193: PLUS1 of all ones. -/
theorem test_plus_wraps :
    regOf (exec (.plus 3 4) (withRegs [(3, 0xFFFFFFFF), (4, 2)])) 3 = some 1 ∧
    regOf (exec (.adjust 3 8) (withRegs [(3, 0xFFFFFFFF)])) 3 = some 0 := by
  decide

/-- Rules R190, R191, R109. -/
theorem test_adjust_corrects_bcd :
    regOf (exec (.adjust 3 2) { withRegs [(3, 0x666666A7)] with flags := ⟨false, false, false, false, 1⟩ }) 3 = some 0x47 ∧
    regOf (exec (.adjust 3 3) { withRegs [(3, 0x666666A7)] with flags := ⟨false, false, false, false, 1⟩ }) 3 = some 0x3333337A := by
  decide

/-- Rules R140 to R142. -/
theorem test_immediates_build_a_constant :
    regOf (exec (.lil 3 0xFFFFFE) (withRegs [])) 3 = some 0xFFFFFFFE ∧
    regOf (exec (.lis 4 0xFF) (withRegs [])) 4 = some 0xFFFFFFFF ∧
    regOf (exec (.oris 3 0x78) (withRegs [(3, 0x123456)])) 3 = some 0x12345678 := by
  decide

/-- Rule R123; a write of register 0 is lost (rule R11). -/
theorem test_lea_adds_a_negative_displacement :
    regOf (exec (.lea 3 4 0xFFFC) (withRegs [(4, 0x00010010)])) 3 = some 0x0001000C ∧
    regOf (exec (.lea 0 4 0xFFFC) (withRegs [(4, 0x00010010)])) 0 = some 0 := by
  decide

/-- Rule R124. -/
theorem test_leacc_compares :
    regOf (exec (.leacc 0 3 0xFFFB) (withRegs [(3, 5)])) 0 = some 0 ∧
    flagsOf (exec (.leacc 0 3 0xFFFB) (withRegs [(3, 5)])) = some (0x5, 0xFF) := by
  decide

/-- Rules R121, R129, R130. -/
theorem test_move_of_index_zero_is_the_pc :
    regOf (exec (.move 5 0) { State.reset with pc := 0x1002 }) 5 = some 0x1002 ∧
    regOf (exec (.movecc 0 3) (withRegs [])) 0 = some 0 ∧
    flagsOf (exec (.movecc 0 3) (withRegs [])) = some (0x4, 0) := by
  decide

/-- Rule R126: a PC-relative call at `pc_inst = 0x1000`. -/
theorem test_jsr_links :
    pcOf (exec (.jsr 1 0 0x100) { State.reset with pc := 0x1004 }) = some 0x1104 ∧
    regOf (exec (.jsr 1 0 0x100) { State.reset with pc := 0x1004 }) 1 = some 0x1004 := by
  decide

/-- Rule R133: the coroutine transfer. -/
theorem test_jsrs_reads_the_target_before_the_link :
    pcOf (exec (.jsrs 1 1) { withRegs [(1, 0x2001)] with pc := 0x1002 }) = some 0x2000 ∧
    regOf (exec (.jsrs 1 1) { withRegs [(1, 0x2001)] with pc := 0x1002 }) 1 = some 0x1002 := by
  decide

/-- Rules R149, R157. -/
theorem test_br_backwards :
    pcOf (exec (.br 0xFE) { State.reset with pc := 0x1012 }) = some 0x100E ∧
    pcOf (exec (.nop 0xFE) { State.reset with pc := 0x1012 }) = some 0x1012 := by
  decide

/-- Rules R41, R125, R128: a stored word and its bytes. -/
theorem test_load_is_little_endian :
    (match exec (.store 3 4 8) (withRegs [(3, 0x11223344), (4, 0x00010000)]) with
      | .next t => (byteAt t 0x10008, byteAt t 0x1000B, regOf (exec (.load 5 4 8) t) 5, t.cyc)
      | .fault _ => (0, 0, none, 0)
      | .refused _ => (0, 0, none, 0)) = (0x44, 0x11, some 0x11223344, 1) := by
  decide

/-- Rules R46, R234. -/
theorem test_store_below_rom_limit_faults :
    (match exec (.stores 3 4) { withRegs [(4, 0xFFFE)] with pc := 0x12 } with
      | .next t => (t.pc, t.tpc, t.tma)
      | .fault _ => (0, 0, 0)
      | .refused _ => (0, 0, 0)) = (0x10, 0x10, 0xFFFE) := by
  decide

/-- Rule R196, the example. -/
theorem test_cpuget_psw :
    regOf (exec (.cpuget 3 0) { State.reset with olevel := 15, flags := ⟨true, false, true, false, 0x7F⟩ }) 3 = some 0x0F007F0A := by
  decide

/-- Rules R219, R224: seven, and one third. -/
theorem test_coset_integer_and_division :
    (match exec (.coset 3 4) { withRegs [(3, 7)] with costat := ⟨2, 1, false⟩ } with
      | .next t => t.fpu.a0
      | .fault _ => 0
      | .refused _ => 0) = 0x401C000000000000 ∧
    fpDiv .canonical 0x3FF0000000000000 0x4008000000000000 = 0x3FD5555555555555 := by
  decide

/-- Rule R227, the third example. -/
theorem test_coget_narrows_to_infinity :
    regOf (exec (.coget 5 2) { State.reset with costat := ⟨2, 1, false⟩, fpu := ⟨0x47F0000000000000, 0, 0⟩ }) 5 = some 0x7F800000 ∧
    flagsOf (exec (.coget 5 2) { State.reset with costat := ⟨2, 1, false⟩, fpu := ⟨0x47F0000000000000, 0, 0⟩ }) = some (0x2, 0) := by
  decide

/-- The table of rule R148, written as the spec writes it, agrees with the predicates of rule R146. -/
theorem test_predicate_table : ∀ p n : BitVec 4,
    predicate p ⟨n.getLsbD 3, n.getLsbD 2, n.getLsbD 1, n.getLsbD 0, 0⟩ = (predicateTable n).getLsbD p.toNat := by
  decide

/-- A stored instruction is the next one to run (LIS R3,5 at address 0). -/
theorem test_withFetchWord_runs : regOf (step (State.reset.withFetchWord 16 0x05D3)) 3 = some 5 := by decide

/-- Rule R273: the pause signal sets its flag and records the cycle count (assumption 10). -/
theorem test_pause_records_cyc :
    (environmentTurn { State.reset with cyc := 9, env := [[.pause]] }).dbg = { State.reset.dbg with paused := true, snapshot := 9 } := by
  decide

/-- A Monitor write outside memory does nothing at all, and one inside empties the prefetch buffer (rule R272; assumption 14). -/
theorem test_monitor_write_outside_memory :
    let s := { State.reset with prefetch := ⟨true, 0, 1⟩ }
    monitorAct s (.writeWord 0x00020000 5) = some s ∧ monitorAct s (.writeByte 0x00020000 5) = some s ∧
      (monitorAct s (.writeByte 0x0001FFFF 5)).map (fun t => t.prefetch.valid) = some false := by
  decide

/-- An empty device range is legal, inside another range too (assumption 13). -/
theorem test_empty_device_range : configOk { devices := [⟨0xFF000000, 8⟩, ⟨0xFF000004, 0⟩] } = true := by decide

/-! ## Witnesses: states and operands that meet the hypotheses of the statements -/

/-- Registers 1 to 6 at the boundaries of the map (RAM's first and last word, ROM's last word, unmapped first and last, open bus), level 14. -/
def mapState : State :=
  { withRegs [(1, 0x00010000), (2, 0x0001FFFF), (3, 0x0000FFFF), (4, 0x00020000), (5, 0xFEFFFFFF), (6, 0xFF000000)] with level := 14 }

/-- Parameters with one device at the start of the I/O region. -/
def deviceConfig : Config := { devices := [⟨0xFF000000, 8⟩] }

/-- A yield is due, with the sessions given, and the token watches the second word of RAM. -/
def watchedState (script : List (List MonitorAction)) : State :=
  { State.reset with cfg := { monitor := true }, token := ⟨true, 0x00010004⟩, dbg := { State.reset.dbg with script := script } }

/-- The unit enabled, with the operand width given. -/
def unitState (long : Bool) : State := { withRegs [(1, 0x3FC00000), (2, 7)] with costat := ⟨2, 1, long⟩ }

/-- Any state with no Monitor, no action, no request and good parameters is quiet. -/
theorem test_quiet {s : State} (h : configOk s.cfg = true) (hm : s.cfg.monitor = false) (he : s.env = []) (hi : s.irq = 0) : Quiet s :=
  ⟨h, fun y => by rw [YieldConditions, hm] at y; exact absurd y.1 (by decide), he, fun i _ _ l => by rw [hi] at l; simp at l⟩

/-- StepRunsTheFetchedInstruction: the zeroed memory after reset is `BR` with displacement 0 (rule R282); a 32-bit instruction that ends memory; a
16-bit one in the last halfword of memory, served from a buffer that agrees with memory. -/
theorem test_witness_step :
    (Quiet State.reset ∧ State.reset.pc.getLsbD 0 = false ∧ ¬ Buffered State.reset ∧
      State.reset.pc.toNat + 4 ≤ State.reset.cfg.memSize ∧ decodeBytes (bytesAt State.reset State.reset.pc.toNat 4) = .ok (.br 0, [0, 0])) ∧
    (let s := { State.reset with pc := 0x1FFFC, mem := [(0x1FFFC, 0xE3), (0x1FFFD, 0x45), (0x1FFFE, 0x23), (0x1FFFF, 0x01)] }
     Quiet s ∧ s.pc.toNat + 4 = s.cfg.memSize ∧ s.pc.getLsbD 0 = false ∧ ¬ Buffered s ∧
      decodeBytes (bytesAt s s.pc.toNat 4) = .ok (.lil 3 0x012345, [])) ∧
    (let s := { State.reset with pc := 0x1FFFE, mem := [(0x1FFFE, 0xD3), (0x1FFFF, 0x05)], prefetch := ⟨true, 0x1FFFC, 0x05D30000⟩ }
     Quiet s ∧ s.pc.toNat + 2 = s.cfg.memSize ∧ s.pc.getLsbD 0 = false ∧ Buffered s ∧ s.prefetch.word = wordAt s (wordAddr s.pc).toNat ∧
      decodeBytes (bytesAt s s.pc.toNat 2) = .ok (.lis 3 5, [])) := by
  refine ⟨⟨test_quiet (by decide) rfl rfl rfl, ?_⟩, ⟨test_quiet (by decide) rfl rfl rfl, ?_⟩, test_quiet (by decide) rfl rfl rfl, ?_⟩
  all_goals unfold Buffered; decide

/-- StepRunsTheFetchedInstruction, second part: a stale word in the buffer; and a LIL whose second halfword needs a refill. -/
theorem test_witness_step_fetch :
    (let s := { State.reset with prefetch := ⟨true, 0, 0x000005D3⟩ }
     Quiet s ∧ (match fetchHalf s with | some (h, _) => h | none => 0) = 0x05D3 ∧ needsSecondHalf 0x05D3 = false) ∧
    (let s := { State.reset with pc := 2, mem := [(2, 0xE3), (3, 0x45), (4, 0x23), (5, 0x01)] }
     Quiet s ∧ (match fetchHalf s with
       | some (h, t) => needsSecondHalf h && (fetchHalf t).isSome
       | none => false) = true) :=
  ⟨⟨test_quiet (by decide) rfl rfl rfl, by decide, by decide⟩, test_quiet (by decide) rfl rfl rfl, by decide⟩

theorem test_witness_decode :
    (Instr.addsi 3 (-8)).wf = true ∧ (Instr.addsl 3 4 16).wf = true ∧ decodeBytes [0xE3, 0x45, 0x23, 0x01, 0xFF] = .ok (.lil 3 0x012345, [0xFF]) := by
  decide

theorem test_witness_unassigned :
    (0x8A13 : Half) &&& 0xF0F0 = 0x8010 ∧ (0x0FFF : Half) &&& 0xF0F0 = 0x00F0 ∧ (0x1FFF : Half) &&& 0xF0F0 = 0x10F0 := by
  decide

theorem test_witness_counts : (1 ≤ 1 ∧ 1 ≤ 16) ∧ (1 ≤ 16 ∧ 16 ≤ 16) := by decide

/-- PlusAndAdjustAddWithoutFlags: the ends of the PLUS selectors, and the unassigned ones. -/
theorem test_witness_adjust : 0 < 8 ∧ 7 < 8 ∧ ((7 : BitVec 4) = 0 ∨ (7 : BitVec 4) = 1 ∨ (7 : BitVec 4) = 4 ∨ (7 : BitVec 4) = 6 ∨ (7 : BitVec 4) = 7) := by
  decide

/-- BcdAdditionIsDecimal: 19 + 28, as in rule R190, and the largest operands. -/
theorem test_witness_bcd :
    readReg (withRegs [(1, 0x6666667F), (2, 0x28)]) 1 = 0x19 + 0x66666666 ∧ readReg (withRegs [(1, 0x6666667F), (2, 0x28)]) 2 = 0x28 ∧
    (∀ k < 8, 0 ≤ digit 0x19 k ∧ digit 0x19 k < 0 + 10) ∧ (∀ k < 8, 0 ≤ digit 0x28 k ∧ digit 0x28 k < 0 + 10) ∧
    (∀ k < 8, 0 ≤ digit 0x99999999 k ∧ digit 0x99999999 k < 0 + 10) := by
  decide

/-- ExcessThreeAdditionIsDecimal: 19 + 28, as in rule R191. -/
theorem test_witness_excess_three :
    (∀ k < 8, 3 ≤ digit (readReg (withRegs [(1, 0x3333334C), (2, 0x3333335B)]) 1) k ∧
      digit (readReg (withRegs [(1, 0x3333334C), (2, 0x3333335B)]) 1) k < 3 + 10) ∧
    (∀ k < 8, 3 ≤ digit (readReg (withRegs [(1, 0x3333334C), (2, 0x3333335B)]) 2) k ∧
      digit (readReg (withRegs [(1, 0x3333334C), (2, 0x3333335B)]) 2) k < 3 + 10) := by
  decide

/-- LoadsReadTheAddressedWord: the last word of ROM, both ends of RAM, open bus, a device. -/
theorem test_witness_readable :
    readable mapState.cfg (eaLong mapState 3 0) ∧ readable mapState.cfg (eaShort mapState 1) ∧ readable mapState.cfg (eaShort mapState 2) ∧
    readable mapState.cfg (eaShort mapState 6) ∧ region deviceConfig 0xFF000004 = .device 0 4 ∧ region deviceConfig 0xFF000008 = .openBus := by
  unfold readable; decide

/-- StoresWriteTheAddressedWord: canonical memory, both ends of RAM and open bus. -/
theorem test_witness_writable :
    mapState.mem.wf = true ∧ writable mapState.cfg (eaLong mapState 1 0) ∧ writable mapState.cfg (eaShort mapState 2) ∧
    writable mapState.cfg (eaShort mapState 6) := by
  unfold writable; decide

/-- DataFaultsTakeTheBusVector: both ends of the unmapped region for reads, the last word of ROM for writes, and a token there. -/
theorem test_witness_data_faults :
    ¬ readable mapState.cfg (eaLong mapState 4 0) ∧ ¬ readable mapState.cfg (eaShort mapState 5) ∧
    ¬ writable mapState.cfg (eaLong mapState 3 0) ∧ ¬ writable mapState.cfg (eaShort mapState 3) ∧
    (let s := { mapState with token := ⟨true, 0x0000FFFC⟩ }
     s.token.valid = true ∧ s.token.addr = wordAddr (eaShort s 3)) := by
  unfold readable writable; decide

/-- StorecStoresOnlyUnderTheToken: a token on the word, and a token on the next word. -/
theorem test_witness_storec :
    (let s := { mapState with token := ⟨true, 0x0001FFFC⟩ }
     s.mem.wf = true ∧ s.token.valid = true ∧ s.token.addr = wordAddr (eaShort s 2) ∧ writable s.cfg (eaShort s 2)) ∧
    (let s := { mapState with token := ⟨true, 0x00010004⟩ }
     ¬ (s.token.valid = true ∧ s.token.addr = wordAddr (eaShort s 1))) := by
  unfold writable; decide

/-- StorecSucceedsExactlyOnce: a RAM word (register 2), read-only memory (register 3) for the first guarantee alone, another word, and
the same word by either store. -/
theorem test_witness_storec_once :
    (2 : RegNo) ≠ 0 ∧ (7 : RegNo) ≠ 2 ∧ readable mapState.cfg (readReg mapState 2) ∧ writable mapState.cfg (readReg mapState 2) ∧
    readable mapState.cfg (readReg mapState 3) ∧ ¬ writable mapState.cfg (readReg mapState 3) ∧
    (match exec (.loadl 7 2) mapState with
      | .next t => wordAddr (eaShort t 1) != wordAddr (readReg mapState 2) && wordAddr (eaShort t 2) == wordAddr (readReg mapState 2) &&
        wordAddr (eaLong t 4 0xFFFC) == wordAddr (readReg mapState 2)
      | .fault _ => false
      | .refused _ => false) = true := by
  unfold readable writable; decide

/-- RegionsAreTheAddressMap, BusReadFollowsTheMap, BusWriteFollowsTheMap: an address at each end of each region. -/
theorem test_witness_map :
    configOk deviceConfig = true ∧ configOk State.reset.cfg = true ∧ State.reset.mem.wf = true ∧
    0xFFFC % 4 = 0 ∧ 0xFFFC < deviceConfig.romLimit ∧ deviceConfig.romLimit ≤ 0x10000 ∧ 0x1FFFC < deviceConfig.memSize ∧
    deviceConfig.memSize ≤ 0x20000 ∧ 0xFEFFFFFC < deviceConfig.ioBase ∧ deviceConfig.ioBase ≤ 0xFF000000 ∧
    deviceConfig.devices[0]? = some ⟨0xFF000000, 8⟩ ∧ 0xFF000000 ≤ 0xFF000004 ∧ 0xFF000004 < 0xFF000000 + 8 ∧
    (∀ d ∈ deviceConfig.devices, ¬ (d.base ≤ 0xFF000008 ∧ 0xFF000008 < d.base + d.len)) ∧
    (∀ d ∈ State.reset.cfg.devices, ¬ (d.base ≤ 0xFFFFFFFC ∧ 0xFFFFFFFC < d.base + d.len)) := by
  decide

/-- OpenBusAnswersAConstantAndDiscardsWrites: the first word after the device, and the last word of the address space, by data and by fetch. -/
theorem test_witness_open_bus :
    configOk deviceConfig = true ∧ deviceConfig.ioBase ≤ (0xFF000008 : Word).toNat / 4 * 4 ∧
    (∀ d ∈ deviceConfig.devices, ¬ (d.base ≤ (0xFF000008 : Word).toNat / 4 * 4 ∧ (0xFF000008 : Word).toNat / 4 * 4 < d.base + d.len)) ∧
    State.reset.cfg.ioBase ≤ (0xFFFFFFFF : Word).toNat / 4 * 4 ∧ State.reset.cfg.devices = [] ∧
    ¬ Buffered { State.reset with pc := 0xFFFFFFFE } := by
  unfold Buffered; decide

/-- MemoryChangesOnlyInTheStoredWord, CycCountsEveryDataAccess: a store, an address outside its word, and an address of ROM; and an instruction with no access. -/
theorem test_witness_frames :
    (∃ t, exec (.stores 4 1) mapState = .next t) ∧ storeAddress (.stores 4 1) mapState = some 0x00010000 ∧
    ¬ inWordOf 0x00010000 0x10004 ∧ 0xFFFF < mapState.cfg.romLimit ∧ writable mapState.cfg 0x00010000 ∧
    (∃ t, exec (.add 1 2 3) mapState = .next t) ∧ readAddress (.add 1 2 3) mapState = none ∧ storeAddress (.add 1 2 3) mapState = none := by
  refine ⟨⟨_, rfl⟩, rfl, ?_, by decide, ?_, ⟨_, rfl⟩, rfl, rfl⟩
  · unfold inWordOf; decide
  · unfold writable; decide

/-- AValidTokenWatchesAnUnwrittenWord: writes beside the watched word, by a device, the Monitor and a store, leave the token. -/
theorem test_witness_token :
    (let s := { mapState with token := ⟨true, 0x00010004⟩, env := [[.writeByte 0x00010003 7]] }
     wordAddr s.token.addr = s.token.addr ∧ (environmentTurn s).token.valid = true) ∧
    (let s := { watchedState [[.writeByte 0x00010008 7]] with env := [] }
     YieldConditions s ∧ (monitorTurn s).map (fun t => t.token.valid) = some true) ∧
    ∃ t, exec (.stores 4 1) { mapState with token := ⟨true, 0x00010004⟩ } = .next t ∧ t.token.valid = true := by
  refine ⟨by decide, ⟨?_, by decide⟩, _, rfl, by decide⟩
  unfold YieldConditions; decide

/-- AValidTokenWatchesAnUnwrittenWord: writes of the old value into the watched word, at its first and last byte, by each agent. -/
theorem test_witness_token_hit :
    (let s := { mapState with token := ⟨true, 0x00010000⟩, env := [[.pause, .writeByte 0x00010003 0]] }
     (EnvAction.writeByte 0x00010003 0).Hits s ∧ (EnvAction.writeWord 0x00010000 0).Hits s) ∧
    (let s := watchedState [[.writeWord 0x00010005 0]]
     YieldConditions s ∧ (MonitorAction.writeWord 0x00010005 0).Hits s ∧ (monitorTurn s).isSome = true) ∧
    storeAddress (.stores 4 1) mapState = some 0x00010000 ∧ writable mapState.cfg 0x00010000 ∧
    ∃ t, exec (.stores 4 1) { mapState with token := ⟨true, 0x00010000⟩ } = .next t := by
  refine ⟨?_, ⟨?_, ?_, by decide⟩, rfl, ?_, _, rfl⟩
  · unfold EnvAction.Hits; decide
  · unfold YieldConditions; decide
  · unfold MonitorAction.Hits; decide
  · unfold writable; decide

/-- PredicatesOrderTheComparedValues. -/
theorem test_witness_compare : ∃ t, exec (.sub 0 3 4) mapState = .next t := ⟨_, rfl⟩

/-- CpugetReadsTheRegisterOrReturns: every special register, at level 14; CYC at level 15. -/
theorem test_witness_special :
    SpecialIs mapState 0 0xE0000000 ∧ SpecialIs mapState 1 0 ∧ SpecialIs mapState 2 0 ∧ SpecialIs mapState 3 0 ∧ SpecialIs mapState 8 0 ∧
    mapState.level ≠ 15 ∧ (3 : RegNo) ≠ 0 ∧ ({ mapState with level := 15 }.level ≠ 15 ∨ (8 : BitVec 4) = 8) := by
  unfold SpecialIs; decide

/-- IllegalInstructionsTakeTheirVector: the first and last numbers of the two gaps. -/
theorem test_witness_illegal : ∀ k ∈ [(4 : BitVec 4), 7, 9, 15], k ≠ 0 ∧ k ≠ 1 ∧ k ≠ 2 ∧ k ≠ 3 ∧ k ≠ 8 := by decide

/-- PrivilegedInstructionsTrapAtLevel15, UnprivilegedCodeLeavesLevel15OnlyByATrap: each privileged form, at level 15. -/
theorem test_witness_privileged :
    { mapState with level := 15 }.level = 15 ∧ privilegedForm (.cpuset 1 8) ∧ privilegedForm (.cpuget 3 3) ∧ privilegedForm (.cpuget 0 8) ∧
    privilegedForm (.coset 1 0) ∧ ∃ t, exec (.cpuget 3 3) { mapState with level := 15 } = .next t :=
  ⟨rfl, by unfold privilegedForm; decide, by unfold privilegedForm; decide, by unfold privilegedForm; decide, by unfold privilegedForm; decide, _, rfl⟩

/-- TheReturnUndoesTrapEntry. -/
theorem test_witness_return : (0xFFFFFFFE : Word).getLsbD 0 = false := by decide

/-- CpusetWritesTheSpecialRegister, CostatIsReadAndWritten: a level below 15. -/
theorem test_witness_level : mapState.level ≠ 15 := by decide

/-- MissingCoprocessorsTakeTheirVector: no slot selected; slot 1 disabled; the unit not built. -/
theorem test_witness_missing :
    (1 : BitVec 4) ≠ 0 ∧ State.reset.costat.cosel ≠ 1 ∧ { State.reset with costat := ⟨0, 1, false⟩ }.costat.coen.getLsbD 1 = false ∧
    { State.reset with cfg := { hasFpu := false } }.cfg.hasFpu = false := by
  decide

/-- CosetWritesTheUnit, CogetReadsTheUnit, LongTransfersRoundTrip: the unit answers in either width. -/
theorem test_witness_unit :
    UnitAnswers (unitState false) ∧ UnitAnswers (unitState true) ∧ (unitState false).costat.long = false ∧
    (unitState true).costat.long = true ∧ 4 ≤ (4 : BitVec 4).toNat ∧ 4 ≤ (15 : BitVec 4).toNat ∧
    (3 : RegNo) ≠ 0 ∧ (4 : RegNo) ≠ 0 ∧ (3 : RegNo) ≠ 4 := by
  unfold UnitAnswers; decide

/-- FloatingSpecialCasesAreIeee and the two rounding statements: the largest finite number, the NaNs of smallest and largest fraction, the
smallest subnormal, a zero, minus infinity. -/
theorem test_witness_floating :
    IsFinite64 0x7FEFFFFFFFFFFFFF ∧ IsNan64 0x7FF0000000000001 ∧ IsNan64 0xFFFFFFFFFFFFFFFF ∧ IsNan32 0x7F800001 ∧ IsNonzero64 1 ∧
    IsFinite64 0x8000000000000000 ∧ ((0xFFF0000000000000 : DWord).msb = true ∧ (0xFFF0000000000000 : DWord).extractLsb' 0 63 ≠ 0) := by
  unfold IsNonzero64 IsFinite64 IsNan64 IsNan32; decide

/-- The numbers that the patterns of 1, -3 and 1.5 and the smallest subnormal stand for. -/
theorem test_witness_value :
    value64 0x3FF0000000000000 = 1 ∧ value64 0xC008000000000000 = -3 ∧ value64 1 = 2 ^ (-1074 : Int) ∧ value32 0x3FC00000 = 3 / 2 := by
  have e1 : (0x3FF0000000000000 : DWord).msb = false ∧ (0x3FF0000000000000 : DWord).toNat = 0x3FF0000000000000 := by decide
  have e2 : (0xC008000000000000 : DWord).msb = true ∧ (0xC008000000000000 : DWord).toNat = 0xC008000000000000 := by decide
  have e3 : (1 : DWord).msb = false ∧ (1 : DWord).toNat = 1 := by decide
  have e4 : (0x3FC00000 : Word).msb = false ∧ (0x3FC00000 : Word).toNat = 0x3FC00000 := by decide
  rw [value64, value64, value64, value32, e1.1, e1.2, e2.1, e2.2, e3.1, e3.2, e4.1, e4.2]
  norm_num

/-- ExactConversionsLoseNothing: the smallest subnormal and infinity. -/
theorem test_witness_widen : IsFinite32 1 ∧ ¬ IsNan32 1 ∧ ¬ IsNan32 0x7F800000 := by unfold IsFinite32 IsNan32; decide

/-- FetchHalfUsesTheBuffer: a hit, a miss that refills, a miss that faults. -/
theorem test_witness_fetch :
    (let s := { State.reset with pc := 2, prefetch := ⟨true, 0, 0x12345678⟩ }
     s.prefetch.valid = true ∧ s.prefetch.addr = wordAddr s.pc) ∧
    (¬ (State.reset.prefetch.valid = true ∧ State.reset.prefetch.addr = wordAddr State.reset.pc) ∧ (busRead State.reset State.reset.pc).isSome = true) ∧
    busRead { State.reset with pc := 0x20000 } 0x20000 = none := by
  decide

/-- FetchFaultsTakeTheBusVector: both ends of the unmapped region, the first after a sequential walk off the end of memory, and a LIL in the last halfword
of memory, read from memory and served by the buffer. -/
theorem test_witness_fetch_faults :
    (let s := { State.reset with pc := 0x20000, prefetch := ⟨true, 0x1FFFC, 0⟩ }
     configOk s.cfg = true ∧ s.pc.getLsbD 0 = false ∧ ¬ Buffered s ∧ s.cfg.memSize ≤ s.pc.toNat ∧ s.pc.toNat < s.cfg.ioBase) ∧
    (let s := { State.reset with pc := 0xFEFFFFFE }
     s.pc.getLsbD 0 = false ∧ ¬ Buffered s ∧ s.cfg.memSize ≤ s.pc.toNat ∧ s.pc.toNat < s.cfg.ioBase) ∧
    (let s := { State.reset with pc := 0x1FFFE, mem := [(0x1FFFE, 0xE3)] }
     s.pc.getLsbD 0 = false ∧ s.pc.toNat + 2 = s.cfg.memSize ∧ s.cfg.memSize < s.cfg.ioBase ∧ ¬ Buffered s ∧
      needsSecondHalf (byteAt s (s.pc.toNat + 1) ++ byteAt s s.pc.toNat) = true) ∧
    (let s := { State.reset with pc := 0x1FFFE, prefetch := ⟨true, 0x1FFFC, 0x00E30000⟩ }
     s.pc.getLsbD 0 = false ∧ s.pc.toNat + 2 = s.cfg.memSize ∧ Buffered s ∧
      needsSecondHalf (s.prefetch.word.extractLsb' 16 16) = true) := by
  unfold Buffered
  decide

/-- InterruptsEnterTheLowestAdmittedLine: line 7 alone at level 7, and line 1 with line 2 at level 15. -/
theorem test_witness_interrupt :
    (let s := { State.reset with level := 7, irq := 0x40 }
     configOk s.cfg = true ∧ s.cfg.monitor = false ∧ s.env = [] ∧ s.irq.getLsbD (7 - 1) = true ∧ 7 ≤ s.level.toNat ∧
      ∀ j < 7, 1 ≤ j → s.irq.getLsbD (j - 1) = false) ∧
    (let s := { State.reset with level := 15, irq := 0x03 }
     s.irq.getLsbD (1 - 1) = true ∧ 1 ≤ s.level.toNat ∧ ∀ j < 1, 1 ≤ j → s.irq.getLsbD (j - 1) = false) := by
  decide

/-- YieldsHappenExactlyOnTheirConditions: an attached Monitor at reset, with the budget used up and pc = 0, for an empty script, a session that writes a
register and one that ends the run; no yield at bare reset; and the conditions of the actions, enabled and disabled unit, inside and outside memory. -/
theorem test_witness_yield :
    (let s := { State.reset with cfg := { monitor := true } }
     YieldConditions s ∧ s.dbg.script = [] ∧ (monitorTurn s).isSome = true) ∧
    (let s := { State.reset with cfg := { monitor := true }, dbg := { State.reset.dbg with script := [[.setReg 3 7]] } }
     YieldConditions s ∧ (monitorTurn s).map (fun t => readReg t 3) = some 7) ∧
    (let s := { State.reset with cfg := { monitor := true }, dbg := { State.reset.dbg with script := [[.setReg 3 7, .terminate]] } }
     YieldConditions s ∧ configOk s.cfg = true ∧ monitorTurn s = none) ∧
    (¬ YieldConditions State.reset ∧ State.reset.mem.wf = true ∧ (wordAddr 0x1FFFF).toNat < State.reset.cfg.memSize ∧
      State.reset.cfg.memSize ≤ (wordAddr 0x20000).toNat ∧ State.reset.costat.coen.getLsbD 1 = false) ∧
    ∃ t, step State.reset = .next t := by
  refine ⟨?_, ?_, ?_, ?_, _, rfl⟩
  all_goals unfold YieldConditions; decide

/-- YieldsHappenExactlyOnTheirConditions, direct calls of the enabled unit: COSET and COGET reach it. -/
theorem test_witness_unit_call :
    (let s := { State.reset with costat := ⟨2, 1, false⟩, cfg := { hasFpu := true } }
     UnitAnswers s ∧ (∃ t, exec (.coset 3 1) s = .next t) ∧ ∃ t, exec (.coget 3 1) s = .next t) :=
  ⟨⟨rfl, rfl, rfl⟩, ⟨_, rfl⟩, _, rfl⟩

/-- TheEngineNeverTouchesItsInputs, TheMachineNeverStops, EveryStepKeepsTheInvariant: reset takes a step and satisfies the invariant. -/
theorem test_witness_machine :
    Inv State.reset ∧ configOk State.reset.cfg = true ∧ State.reset.cfg.monitor = false ∧ (∃ t, step State.reset = .next t) ∧
    ∃ t, exec (.nop 0) State.reset = .next t :=
  ⟨⟨rfl, rfl, rfl, rfl, rfl⟩, by decide, rfl, ⟨_, rfl⟩, _, rfl⟩

end Sys2Proof.Machine
end

/-!
PROOFS, memory. The open bus (rule R48): an address of the I/O region that no device claims answers every read with `OPEN_BUS_VALUE` and discards
every write, and each access is counted.
-/

namespace Sys2Proof.Machine

/-! ## The open-bus region -/

/-- The device search finds none exactly where no range holds the address (rule R45). -/
theorem findDevice_eq_none_iff (ds : List DeviceRange) (n a : Nat) :
    findDevice ds n a = none ↔ ∀ d ∈ ds, ¬ (d.base ≤ a ∧ a < d.base + d.len) := by
  induction ds generalizing n with
  | nil => simp [findDevice]
  | cons d ds ih =>
    rw [findDevice, List.forall_mem_cons]
    split
    next hd => simp [hd]
    next hd => rw [ih, and_iff_right hd]

/-- Memory ends where the I/O region begins, or before (rule R5). -/
theorem memSize_le_ioBase {c : Config} (hc : configOk c = true) : c.memSize ≤ c.ioBase := by
  simp only [configOk, Bool.and_eq_true, decide_eq_true_eq] at hc
  obtain ⟨⟨⟨⟨-, hmem⟩, -⟩, -⟩, -⟩ := hc
  exact hmem

/-- A word of the I/O region that no device claims is open bus (rule R40). -/
theorem region_openBus_of_unclaimed {c : Config} {ea : Word} (hc : configOk c = true)
    (h : c.ioBase ≤ ea.toNat / 4 * 4 ∧ ∀ r ∈ c.devices, ¬ (r.base ≤ ea.toNat / 4 * 4 ∧ ea.toNat / 4 * 4 < r.base + r.len)) :
    region c (wordAddr ea).toNat = .openBus := by
  obtain ⟨hio, hdev⟩ := h
  have hmem := memSize_le_ioBase hc
  rw [wordAddr_toNat, region, if_neg (by omega), if_neg (by omega), (findDevice_eq_none_iff _ _ _).2 hdev]

/-- A read of an open-bus word gives the constant and is counted (rules R48, R49). -/
theorem busRead_openBus {s : State} {ea : Word} (h : region s.cfg (wordAddr ea).toNat = .openBus) :
    busRead s ea = some (s.cfg.openBusValue, countAccess s) := by
  simp only [busRead, h]

/-- A write to an open-bus word breaks a token that watches it and is counted, no more (rules R48 to R50). -/
theorem busWrite_openBus {s : State} {ea v : Word} (h : region s.cfg (wordAddr ea).toNat = .openBus) :
    busWrite s ea v = some (countAccess { s with token := breakToken s.token (wordAddr ea) }) := by
  simp only [busWrite, h]

/-! ## Accesses that succeed -/

theorem load16_of_busRead {s t : State} {ea v : Word} {fin : State → Word → Result} (h : busRead s ea = some (v, t)) :
    load16 s ea fin = fin t v := by
  simp only [load16, h]

theorem load32_of_busRead {s t : State} {ea v : Word} {fin : State → Word → Result} (h : busRead s ea = some (v, t)) :
    load32 s ea fin = fin t v := by
  simp only [load32, h]

theorem execStore_of_busWrite {s t : State} {r x : RegNo} {disp : BitVec 16}
    (h : busWrite s (eaLong s x disp) (readReg s r) = some t) : execStore r x disp s = .next t := by
  simp only [execStore, h]

theorem execStores_of_busWrite {s t : State} {r x : RegNo} (h : busWrite s (eaShort s x) (readReg s r) = some t) :
    execStores r x s = .next t := by
  simp only [execStores, h]

/-- A fetch that the prefetch buffer does not serve reads the word of the pc and keeps it in the buffer (rule R55). -/
theorem fetchHalf_of_not_buffered {s t : State} {w : Word} (hb : ¬ Buffered s) (h : busRead s s.pc = some (w, t)) :
    fetchHalf s = some (pickHalf w s.pc, advancePc { t with prefetch := ⟨true, wordAddr s.pc, w⟩ }) := by
  have hmiss : ¬ (s.prefetch.valid && s.prefetch.addr == wordAddr s.pc) = true := by
    simpa [Buffered] using hb
  rw [fetchHalf, if_neg hmiss, h]

/-! ## What an access to the open bus leaves -/

/-- The outcome is a next state in which `d` holds `OPEN_BUS_VALUE`, memory and the devices are as before, and one access was counted. -/
def ReadsOpenBus (s : State) (d : RegNo) (o : Result) : Prop :=
  ∃ t, o = .next t ∧ RegWritten s t d s.cfg.openBusValue ∧ MemoryKept s t ∧ t.devLog = s.devLog ∧ OneAccess s t

/-- The outcome is a next state in which the registers, memory and the devices are as before, and one access was counted. -/
def DiscardsWrite (s : State) (o : Result) : Prop :=
  ∃ t, o = .next t ∧ RegsKept s t ∧ MemoryKept s t ∧ t.devLog = s.devLog ∧ OneAccess s t

/-- Computing the constant into `d` after the counted access is all that a load from the open bus does. -/
theorem Computes.readsOpenBus {s : State} {d : RegNo} {o : Result} {P : Flags → Prop}
    (h : Computes (countAccess s) o d s.cfg.openBusValue P) : ReadsOpenBus s d o := by
  obtain ⟨t, ho, hreg, -, -, -, hbus, -⟩ := h
  exact ⟨t, ho, hreg, hbus.memory, hbus.devLog, hbus.cyc, by rw [hbus.budget]; rfl⟩

/-! ## Loads -/

section Loads
variable {s : State} {d x : RegNo} {disp : BitVec 16}

theorem exec_load_openBus (h : region s.cfg (wordAddr (eaLong s x disp)).toNat = .openBus) :
    ReadsOpenBus s d (exec (.load d x disp) s) := by
  have he : exec (.load d x disp) s = finishReg (countAccess s) d s.cfg.openBusValue := load32_of_busRead (busRead_openBus h)
  exact he ▸ (finishReg_computes ..).readsOpenBus

theorem exec_loadcc_openBus (h : region s.cfg (wordAddr (eaLong s x disp)).toNat = .openBus) :
    ReadsOpenBus s d (exec (.loadcc d x disp) s) := by
  have he : exec (.loadcc d x disp) s = finishNz (countAccess s) d s.cfg.openBusValue := load32_of_busRead (busRead_openBus h)
  exact he ▸ (finishNz_computes ..).readsOpenBus

theorem exec_loads_openBus (h : region s.cfg (wordAddr (eaShort s x)).toNat = .openBus) :
    ReadsOpenBus s d (exec (.loads d x) s) := by
  have he : exec (.loads d x) s = finishReg (countAccess s) d s.cfg.openBusValue := load16_of_busRead (busRead_openBus h)
  exact he ▸ (finishReg_computes ..).readsOpenBus

theorem exec_loadscc_openBus (h : region s.cfg (wordAddr (eaShort s x)).toNat = .openBus) :
    ReadsOpenBus s d (exec (.loadscc d x) s) := by
  have he : exec (.loadscc d x) s = finishNz (countAccess s) d s.cfg.openBusValue := load16_of_busRead (busRead_openBus h)
  exact he ▸ (finishNz_computes ..).readsOpenBus

/-- LOADL sets the token too, which no clause of `ReadsOpenBus` speaks of. -/
theorem exec_loadl_openBus (h : region s.cfg (wordAddr (eaShort s x)).toNat = .openBus) :
    ReadsOpenBus s d (exec (.loadl d x) s) :=
  ⟨_, load16_of_busRead (busRead_openBus h), regWritten_writeReg (countAccess s) d _, fun _ => rfl, rfl, rfl, rfl⟩

end Loads

/-! ## Stores -/

section Stores
variable {s : State} {r x : RegNo} {disp : BitVec 16}

theorem exec_store_openBus (h : region s.cfg (wordAddr (eaLong s x disp)).toNat = .openBus) :
    DiscardsWrite s (exec (.store r x disp) s) :=
  ⟨_, execStore_of_busWrite (busWrite_openBus h), fun _ => rfl, fun _ => rfl, rfl, rfl, rfl⟩

theorem exec_stores_openBus (h : region s.cfg (wordAddr (eaShort s x)).toNat = .openBus) :
    DiscardsWrite s (exec (.stores r x) s) :=
  ⟨_, execStores_of_busWrite (busWrite_openBus h), fun _ => rfl, fun _ => rfl, rfl, rfl, rfl⟩

/-- STOREC whose token watches the open-bus word: its write is discarded like any other (rules R48, R135). -/
theorem exec_storec_openBus (h : region s.cfg (wordAddr (eaShort s x)).toNat = .openBus)
    (ht : s.token.valid = true ∧ s.token.addr = wordAddr (eaShort s x)) : DiscardsWrite s (exec (.storec r x) s) :=
  ⟨_, storec_success s r x ht.1 ht.2 _ (busWrite_openBus h), fun _ => rfl, fun _ => rfl, rfl, rfl, rfl⟩

end Stores

/-! ## Fetch -/

/-- A fetch from the open bus puts the constant in the prefetch buffer (rules R48, R55). -/
theorem fetchHalf_openBus {s : State} (h : region s.cfg (wordAddr s.pc).toNat = .openBus) (hb : ¬ Buffered s) :
    ∃ half t, fetchHalf s = some (half, t) ∧ t.prefetch.word = s.cfg.openBusValue ∧ MemoryKept s t ∧ t.devLog = s.devLog ∧
      OneAccess s t :=
  ⟨_, _, fetchHalf_of_not_buffered hb (busRead_openBus h), rfl, fun _ => rfl, rfl, rfl, rfl⟩

/-- Settles O29: an unclaimed I/O address lies in the open-bus region, and each access there is one of the cases above. -/
theorem openBusAnswersAConstantAndDiscardsWrites : Obligations.OpenBusAnswersAConstantAndDiscardsWrites := by
  intro s d x disp hc OpenBus Reads Discards
  refine ⟨fun hlong => ?_, fun hshort => ?_, fun hpc hb => ?_⟩
  · have hr := region_openBus_of_unclaimed hc hlong
    exact ⟨exec_load_openBus hr, exec_loadcc_openBus hr, exec_store_openBus hr⟩
  · have hr := region_openBus_of_unclaimed hc hshort
    exact ⟨exec_loads_openBus hr, exec_loadscc_openBus hr, exec_loadl_openBus hr, exec_stores_openBus hr, exec_storec_openBus hr⟩
  · exact fetchHalf_openBus (region_openBus_of_unclaimed hc hpc) hb

end Sys2Proof.Machine

/-!
PROOFS, exceptions. Trap entry (rule R240): the next state field by field, and what the entry does to the PSW as one word.
-/

namespace Sys2Proof.Machine

/-! ## The PSW as level, previous level and the rest -/

/-- Bits 23:0 of the PSW, `0x00 : CB : 0b0000 : N : Z : V : C`: the part that no privilege level reaches (rule R19). -/
def pswLow (f : Flags) : BitVec 24 :=
  0#8 ++ f.cb ++ 0#4 ++ BitVec.ofBool f.n ++ BitVec.ofBool f.z ++ BitVec.ofBool f.v ++ BitVec.ofBool f.c

theorem pswValue_eq_append (s : State) : pswValue s = s.level ++ s.olevel ++ pswLow s.flags := by
  simp only [pswValue, pswLow, BitVec.append_assoc, BitVec.cast_eq]

/-- A right shift moves the upper part down by itself; the lower part is cut out of the whole. -/
theorem append_ushiftRight {w v : Nat} (x : BitVec w) (y : BitVec v) (n : Nat) :
    (x ++ y) >>> n = (x >>> n) ++ (x ++ y).extractLsb' n v := by
  ext i hi
  rw [BitVec.getElem_ushiftRight, BitVec.getElem_append]
  split
  next hlow => rw [BitVec.getElem_extractLsb']
  next hhigh => rw [BitVec.getElem_ushiftRight, BitVec.getLsbD_append, if_neg (by omega), Nat.add_sub_assoc (by omega)]

/-- Shifting the level out of the top nibble leaves it in the second. -/
theorem levels_ushiftRight (l o : BitVec 4) (r : BitVec 24) :
    (l ++ o ++ r) >>> 4 = 0#4 ++ l ++ (l ++ o ++ r).extractLsb' 4 24 := by
  have hl : l >>> 4 = 0#4 := BitVec.ushiftRight_eq_zero (Nat.le_refl 4)
  rw [append_ushiftRight, append_ushiftRight l o, hl, BitVec.extractLsb'_append_eq_left]

/-- The masks of rule R240 keep bits 27:24 of the shifted word and bits 23:0 of the old one: the old level moves into the previous level's
place, and the top nibble is left empty. -/
theorem levels_shift (l o : BitVec 4) (r : BitVec 24) :
    0#4 ++ l ++ r = (((l ++ o ++ r) >>> 4) &&& 0x0F000000) ||| ((l ++ o ++ r) &&& 0x00FFFFFF) := by
  have keepOld : (0x0F000000 : Word) = 0#4 ++ BitVec.allOnes 4 ++ 0#24 := by decide
  have keepLow : (0x00FFFFFF : Word) = 0#4 ++ 0#4 ++ BitVec.allOnes 24 := by decide
  rw [levels_ushiftRight, keepOld, keepLow]
  simp only [BitVec.and_append, BitVec.or_append, BitVec.and_zero, BitVec.and_allOnes, BitVec.or_zero, BitVec.zero_or]

/-! ## Trap entry -/

theorem pswValue_trapEntry (s : State) (vector savedPc : Word) (addr : Option Word) :
    pswValue (trapEntry s vector savedPc addr) = 0#4 ++ s.level ++ pswLow s.flags := by
  rw [pswValue_eq_append, trapEntry_level, trapEntry_olevel, trapEntry_flags]
  rfl

/-- Settles O42: the next state is the entry itself read off, and on the PSW it is the shift of the level nibbles. -/
theorem trapEntrySavesAndShiftsTheLevel : Obligations.TrapEntrySavesAndShiftsTheLevel := by
  intro s vector savedPc addr
  refine ⟨rfl, ?_⟩
  rw [pswValue_trapEntry, pswValue_eq_append s]
  exact levels_shift s.level s.olevel (pswLow s.flags)

end Sys2Proof.Machine

/-!
PROOFS, encoding. The decoder and the encoder are inverse (rules R70 to R78): what a packed halfword decodes to, what a decoded halfword
encodes to, and the byte lists around them.
-/

namespace Sys2Proof

/-! ## Counts and constants (rule R74) -/

theorem nibble_cases (f : BitVec 4) : f = 0x0 ∨ f = 0x1 ∨ f = 0x2 ∨ f = 0x3 ∨ f = 0x4 ∨ f = 0x5 ∨ f = 0x6 ∨ f = 0x7 ∨
    f = 0x8 ∨ f = 0x9 ∨ f = 0xA ∨ f = 0xB ∨ f = 0xC ∨ f = 0xD ∨ f = 0xE ∨ f = 0xF := by
  revert f; decide

theorem countOk_iff (n : Nat) : countOk n = true ↔ 1 ≤ n ∧ n ≤ 16 := by
  simp [countOk]

theorem const4Ok_iff (c : Int) : const4Ok c = true ↔ -8 ≤ c ∧ c ≤ 8 ∧ c ≠ 0 := by
  simp [const4Ok, and_assoc]

@[simp] theorem encodeCount_decodeCount (f : BitVec 4) : encodeCount (decodeCount f) = f := by
  revert f; decide

@[simp] theorem encodeCount_decodeShift (f : BitVec 4) : encodeCount (decodeShift f) = f := by
  revert f; decide

@[simp] theorem encodeConst4_decodeConst4 (f : BitVec 4) : encodeConst4 (decodeConst4 f) = f := by
  revert f; decide

@[simp] theorem countOk_decodeCount (f : BitVec 4) : countOk (decodeCount f) = true := by
  revert f; decide

@[simp] theorem countOk_decodeShift (f : BitVec 4) : countOk (decodeShift f) = true := by
  revert f; decide

@[simp] theorem const4Ok_decodeConst4 (f : BitVec 4) : const4Ok (decodeConst4 f) = true := by
  revert f; decide

theorem decodeCount_encodeCount {n : Nat} (h : countOk n = true) : decodeCount (encodeCount n) = n := by
  obtain ⟨h1, h16⟩ := (countOk_iff n).1 h
  interval_cases n <;> rfl

theorem decodeShift_encodeCount {n : Nat} (h : countOk n = true) : decodeShift (encodeCount n) = n := by
  obtain ⟨h1, h16⟩ := (countOk_iff n).1 h
  interval_cases n <;> rfl

theorem decodeConst4_encodeConst4 {c : Int} (h : const4Ok c = true) : decodeConst4 (encodeConst4 c) = c := by
  obtain ⟨hlo, hhi, h0⟩ := (const4Ok_iff c).1 h
  rcases lt_or_gt_of_ne h0 with hneg | hpos <;> interval_cases c <;> rfl

/-! ## Halfwords and their bytes (rule R72) -/

/-- The two bytes of a halfword, joined again. -/
theorem halfBytes_join (h : Half) : (h.extractLsb' 8 8 ++ h.extractLsb' 0 8 : BitVec (8 + 8)) = h := by
  rw [BitVec.extractLsb'_append_extractLsb'_eq_extractLsb' (by omega), BitVec.extractLsb'_eq_self]

/-- The bytes of two joined bytes. -/
theorem halfBytes_append (b0 b1 : Byte) : halfBytes (b1 ++ b0 : BitVec (8 + 8)) = [b0, b1] := by
  rw [halfBytes, BitVec.extractLsb'_append_eq_left, BitVec.extractLsb'_append_eq_right]

theorem encodeBytes_of_short {i : Instr} {h : Half} (e : encode i = [h]) : encodeBytes i = halfBytes h := by
  rw [encodeBytes, e, List.flatMap_singleton]

theorem encodeBytes_of_long {i : Instr} {h h2 : Half} (e : encode i = [h, h2]) : encodeBytes i = halfBytes h ++ halfBytes h2 := by
  rw [encodeBytes, e, List.flatMap_cons, List.flatMap_singleton]

/-- A first halfword that asks for no second one is decoded alone. -/
theorem decodeBytes_short {h : Half} (hn : needsSecondHalf h = false) (rest : List Byte) :
    decodeBytes (halfBytes h ++ rest) = .ok (decodeHalves h 0, rest) := by
  show (if needsSecondHalf (h.extractLsb' 8 8 ++ h.extractLsb' 0 8 : BitVec (8 + 8)) = true then _ else
    Except.ok (decodeHalves (h.extractLsb' 8 8 ++ h.extractLsb' 0 8 : BitVec (8 + 8)) 0, rest)) = _
  rw [halfBytes_join, hn, if_neg Bool.false_ne_true]

/-- A first halfword that asks for a second one is decoded with it. -/
theorem decodeBytes_long {h : Half} (hn : needsSecondHalf h = true) (h2 : Half) (rest : List Byte) :
    decodeBytes (halfBytes h ++ halfBytes h2 ++ rest) = .ok (decodeHalves h h2, rest) := by
  show (if needsSecondHalf (h.extractLsb' 8 8 ++ h.extractLsb' 0 8 : BitVec (8 + 8)) = true then
    Except.ok (decodeHalves (h.extractLsb' 8 8 ++ h.extractLsb' 0 8 : BitVec (8 + 8)) (h2.extractLsb' 8 8 ++ h2.extractLsb' 0 8 : BitVec (8 + 8)), rest)
    else _) = _
  rw [halfBytes_join, halfBytes_join, if_pos hn]

/-- Everything a byte list that decodes can be: a 16-bit instruction's halfword or a 32-bit instruction's two, and what follows. -/
theorem decodeBytes_cases {bytes rest : List Byte} {i : Instr} (h : decodeBytes bytes = .ok (i, rest)) :
    (∃ w, needsSecondHalf w = false ∧ bytes = halfBytes w ++ rest ∧ i = decodeHalves w 0) ∨
    (∃ w w2, needsSecondHalf w = true ∧ bytes = halfBytes w ++ halfBytes w2 ++ rest ∧ i = decodeHalves w w2) := by
  unfold decodeBytes at h
  split at h
  next b0 b1 tail =>
    dsimp only at h
    split at h
    next hn =>
      split at h
      next b2 b3 tail' =>
        cases h
        exact .inr ⟨_, (b3 ++ b2 : BitVec (8 + 8)), hn, by rw [halfBytes_append, halfBytes_append]; rfl, rfl⟩
      next => cases h
    next hn =>
      cases h
      exact .inl ⟨_, Bool.eq_false_iff.2 hn, by rw [halfBytes_append]; rfl, rfl⟩
  next => cases h

/-! ## What a packed halfword decodes to (rules R70, R75 to R77) -/

theorem needsSecondHalf_packHalf (s1 s2 op dst : BitVec 4) : needsSecondHalf (packHalf s1 s2 op dst) =
    (op == 0xE || (op == 0xF && decide (2 ≤ s1.toNat) && decide (s1.toNat ≤ 7))) := by
  rw [needsSecondHalf, fieldOp_packHalf, fieldS1_packHalf]

theorem decodeHalves_branch (k : BitVec 8) (c : BitVec 4) (h2 : Half) :
    decodeHalves (packHalf8 k 0x0 c) h2 = decodeBranch c k := by
  rw [decodeHalves, fieldOp_packHalf8, fieldDst_packHalf8, fieldK8_packHalf8]; rfl

theorem decodeHalves_secondary1 (s1 s2 dst : BitVec 4) (h2 : Half) :
    decodeHalves (packHalf s1 s2 0x1 dst) h2 = decodeSecondary1 s1 s2 dst := by
  rw [decodeHalves, fieldOp_packHalf, fieldDst_packHalf, fieldS1_packHalf, fieldS2_packHalf]; rfl

theorem decodeHalves_secondaryF (s1 s2 dst : BitVec 4) (h2 : Half) :
    decodeHalves (packHalf s1 s2 0xF dst) h2 = decodeSecondaryF s1 s2 dst h2 := by
  rw [decodeHalves, fieldOp_packHalf, fieldDst_packHalf, fieldS1_packHalf, fieldS2_packHalf]; rfl

/-- The halfwords are those of `i`: the first says how many there are, and together they decode to `i`. -/
def DecodesTo (i : Instr) : List Half → Prop
  | [h] => needsSecondHalf h = false ∧ decodeHalves h 0 = i
  | [h, h2] => needsSecondHalf h = true ∧ decodeHalves h h2 = i
  | _ => False

theorem decodesTo_branch {i : Instr} {k : BitVec 8} {c : BitVec 4} (h : decodeBranch c k = i) :
    DecodesTo i [packHalf8 k 0x0 c] :=
  ⟨by rw [needsSecondHalf, fieldOp_packHalf8]; rfl, (decodeHalves_branch k c 0).trans h⟩

theorem decodesTo_secondary1 {i : Instr} {s1 s2 dst : BitVec 4} (h : decodeSecondary1 s1 s2 dst = i) :
    DecodesTo i [packHalf s1 s2 0x1 dst] :=
  ⟨by rw [needsSecondHalf_packHalf]; rfl, (decodeHalves_secondary1 s1 s2 dst 0).trans h⟩

theorem decodesTo_secondaryF_short {i : Instr} {s1 x dst : BitVec 4} (hs : s1.toNat < 2 ∨ 7 < s1.toNat)
    (h : decodeSecondaryF s1 x dst 0 = i) : DecodesTo i [packHalf s1 x 0xF dst] := by
  refine ⟨?_, (decodeHalves_secondaryF s1 x dst 0).trans h⟩
  rw [needsSecondHalf_packHalf]
  simp; omega

theorem decodesTo_secondaryF_long {i : Instr} {s1 x dst : BitVec 4} {h2 : Half} (hs : 2 ≤ s1.toNat ∧ s1.toNat ≤ 7)
    (h : decodeSecondaryF s1 x dst h2 = i) : DecodesTo i [packHalf s1 x 0xF dst, h2] := by
  refine ⟨?_, (decodeHalves_secondaryF s1 x dst h2).trans h⟩
  rw [needsSecondHalf_packHalf]
  simp [hs]

/-- What a well-formed instruction encodes to decodes to it. -/
theorem decodesTo_encode {i : Instr} (hwf : i.wf = true) : DecodesTo i (encode i) := by
  cases i
  case br | bns | bzs | bvs | bcs | blt | ble | bleu | nop | bnr | bzr | bvr | bcr | bge | bgt | bgtu =>
    exact decodesTo_branch rfl
  case cpuset | cpuget | coset | coget | plus | adjust | subb | addc | illegal18 | equ | or | and =>
    exact decodesTo_secondary1 rfl
  case addsi d c =>
    exact decodesTo_secondary1 (congrArg (Instr.addsi d) (decodeConst4_encodeConst4 hwf))
  case btrunc d n =>
    exact decodesTo_secondary1 (congrArg (Instr.btrunc d) (decodeCount_encodeCount hwf))
  case sxt d n =>
    exact decodesTo_secondary1 (congrArg (Instr.sxt d) (decodeCount_encodeCount hwf))
  case trunc d n =>
    exact decodesTo_secondary1 (congrArg (Instr.trunc d) (decodeCount_encodeCount hwf))
  case sub | add | exth | extb | stuffh | stuffb =>
    refine ⟨by rw [needsSecondHalf_packHalf]; rfl, ?_⟩
    rw [decodeHalves, fieldOp_packHalf, fieldDst_packHalf, fieldS1_packHalf, fieldS2_packHalf]; rfl
  case addsru | addsr | movesl | addsl =>
    refine ⟨by rw [needsSecondHalf_packHalf]; rfl, ?_⟩
    rw [decodeHalves, fieldOp_packHalf, fieldDst_packHalf, fieldS1_packHalf, fieldS2_packHalf, decodeShift_encodeCount hwf]; rfl
  case oris | lis =>
    refine ⟨by rw [needsSecondHalf, fieldOp_packHalf8]; rfl, ?_⟩
    rw [decodeHalves, fieldOp_packHalf8, fieldDst_packHalf8, fieldK8_packHalf8]; rfl
  case lil d k =>
    refine ⟨by rw [needsSecondHalf, fieldOp_packHalf8]; rfl, ?_⟩
    have hk : (k.extractLsb' 8 16 ++ k.extractLsb' 0 8 : BitVec (16 + 8)) = k := by
      rw [BitVec.extractLsb'_append_extractLsb'_eq_extractLsb' (by omega), BitVec.extractLsb'_eq_self]
    rw [decodeHalves, fieldOp_packHalf8, fieldDst_packHalf8, fieldK8_packHalf8]
    exact congrArg (Instr.lil d) hk
  case illegalF0 | illegalF1 | storec | loadl | stores | jsrs | loadscc | loads | movecc | move =>
    exact decodesTo_secondaryF_short (by decide) rfl
  case store | jsr | loadcc | load | leacc | lea =>
    exact decodesTo_secondaryF_long (by decide) rfl

/-- Settles O5: the encoding is one or two halfwords that decode to the instruction, and the decoder reads just their bytes. -/
theorem decodeInvertsEncode : Obligations.DecodeInvertsEncode := by
  intro i rest hwf
  have hd := decodesTo_encode hwf
  match he : encode i with
  | [] => rw [he] at hd; exact hd.elim
  | [h] =>
    rw [he] at hd
    obtain ⟨hn, hi⟩ := hd
    rw [encodeBytes_of_short he, decodeBytes_short hn, hi]
  | [h, h2] =>
    rw [he] at hd
    obtain ⟨hn, hi⟩ := hd
    rw [encodeBytes_of_long he, decodeBytes_long hn, hi]
  | _ :: _ :: _ :: _ => rw [he] at hd; exact hd.elim

/-! ## What a decoded halfword encodes to -/

/-- The halfwords read for a first halfword `h`: `h2` follows only where `h` asks for it. -/
def halvesRead (h h2 : Half) : List Half := if needsSecondHalf h then [h, h2] else [h]

theorem encode_decodeBranch (c : BitVec 4) (k : BitVec 8) : encode (decodeBranch c k) = [packHalf8 k 0x0 c] := by
  rcases nibble_cases c with rfl | rfl | rfl | rfl | rfl | rfl | rfl | rfl | rfl | rfl | rfl | rfl | rfl | rfl | rfl | rfl <;> rfl

theorem wf_decodeBranch (c : BitVec 4) (k : BitVec 8) : (decodeBranch c k).wf = true := by
  rcases nibble_cases c with rfl | rfl | rfl | rfl | rfl | rfl | rfl | rfl | rfl | rfl | rfl | rfl | rfl | rfl | rfl | rfl <;> rfl

theorem encode_decodeSecondary1 (s1 s2 dst : BitVec 4) : encode (decodeSecondary1 s1 s2 dst) = [packHalf s1 s2 0x1 dst] := by
  rcases nibble_cases s1 with rfl | rfl | rfl | rfl | rfl | rfl | rfl | rfl | rfl | rfl | rfl | rfl | rfl | rfl | rfl | rfl <;>
    simp [decodeSecondary1, encode]

theorem wf_decodeSecondary1 (s1 s2 dst : BitVec 4) : (decodeSecondary1 s1 s2 dst).wf = true := by
  rcases nibble_cases s1 with rfl | rfl | rfl | rfl | rfl | rfl | rfl | rfl | rfl | rfl | rfl | rfl | rfl | rfl | rfl | rfl <;>
    simp [decodeSecondary1, Instr.wf]

theorem encode_decodeSecondaryF (s1 x dst : BitVec 4) (h2 : Half) :
    encode (decodeSecondaryF s1 x dst h2) = halvesRead (packHalf s1 x 0xF dst) h2 := by
  rw [halvesRead, needsSecondHalf_packHalf]
  rcases nibble_cases s1 with rfl | rfl | rfl | rfl | rfl | rfl | rfl | rfl | rfl | rfl | rfl | rfl | rfl | rfl | rfl | rfl <;> rfl

theorem wf_decodeSecondaryF (s1 x dst : BitVec 4) (h2 : Half) : (decodeSecondaryF s1 x dst h2).wf = true := by
  rcases nibble_cases s1 with rfl | rfl | rfl | rfl | rfl | rfl | rfl | rfl | rfl | rfl | rfl | rfl | rfl | rfl | rfl | rfl <;> rfl

/-- A halfword by its fields: every claim about all halfwords is one about packed fields. -/
theorem half_cases (h : Half) : ∃ s1 s2 op dst, h = packHalf s1 s2 op dst :=
  ⟨_, _, _, _, (packHalf_fields h).symm⟩

/-- The upper two fields are the 8-bit constant. -/
theorem packHalf8_fieldK8 (s1 s2 op dst : BitVec 4) :
    packHalf8 (fieldK8 (packHalf s1 s2 op dst)) op dst = packHalf s1 s2 op dst := by
  have h := packHalf8_fields (packHalf s1 s2 op dst)
  rwa [fieldOp_packHalf, fieldDst_packHalf] at h

/-- The constant of LIL from its two parts, taken apart again. -/
theorem lil_halves (k : BitVec 8) (h2 : Half) :
    (h2 ++ k : BitVec (16 + 8)).extractLsb' 0 8 = k ∧ (h2 ++ k : BitVec (16 + 8)).extractLsb' 8 16 = h2 :=
  ⟨BitVec.extractLsb'_append_eq_right, BitVec.extractLsb'_append_eq_left⟩

/-- Encoding what was decoded gives the halfwords that were read, and the instruction is one that an encoding can spell. -/
theorem encode_decodeHalves (h h2 : Half) : (decodeHalves h h2).wf = true ∧ encode (decodeHalves h h2) = halvesRead h h2 := by
  obtain ⟨s1, s2, op, dst, rfl⟩ := half_cases h
  rcases nibble_cases op with rfl | rfl | rfl | rfl | rfl | rfl | rfl | rfl | rfl | rfl | rfl | rfl | rfl | rfl | rfl | rfl
  on_goal 16 =>
    rw [decodeHalves_secondaryF]
    exact ⟨wf_decodeSecondaryF _ _ _ _, encode_decodeSecondaryF _ _ _ _⟩
  on_goal 2 =>
    rw [halvesRead, needsSecondHalf_packHalf, decodeHalves_secondary1]
    exact ⟨wf_decodeSecondary1 _ _ _, encode_decodeSecondary1 _ _ _⟩
  on_goal 1 =>
    rw [halvesRead, needsSecondHalf_packHalf, ← packHalf8_fieldK8, decodeHalves_branch]
    exact ⟨wf_decodeBranch _ _, encode_decodeBranch _ _⟩
  all_goals
    rw [halvesRead, needsSecondHalf_packHalf, decodeHalves, fieldOp_packHalf, fieldDst_packHalf, fieldS1_packHalf, fieldS2_packHalf]
    simp [Instr.wf, encode, packHalf8_fieldK8, lil_halves]

/-- Settles O6: the bytes read are those of the halfwords read, and these are the encoding. -/
theorem encodeInvertsDecode : Obligations.EncodeInvertsDecode := by
  intro bytes rest i hd
  obtain ⟨w, hn, rfl, rfl⟩ | ⟨w, w2, hn, rfl, rfl⟩ := decodeBytes_cases hd
  · obtain ⟨hwf, he⟩ := encode_decodeHalves w 0
    rw [halvesRead, hn] at he
    exact ⟨hwf, by rw [encodeBytes_of_short he]⟩
  · obtain ⟨hwf, he⟩ := encode_decodeHalves w w2
    rw [halvesRead, hn] at he
    exact ⟨hwf, by rw [encodeBytes_of_long he]⟩

/-! ## The unassigned first halfwords (rule R78) -/

/-- The mask of the two opcode fields keeps just them. -/
theorem packHalf_and_opcodeMask (s1 s2 op dst : BitVec 4) : packHalf s1 s2 op dst &&& 0xF0F0 = packHalf s1 0 op 0 := by
  have hm : (0xF0F0 : Half) = BitVec.allOnes 4 ++ 0#4 ++ BitVec.allOnes 4 ++ 0#4 := by decide
  rw [hm]
  show (s1 ++ s2 ++ op ++ dst : BitVec (4 + 4 + 4 + 4)) &&& (BitVec.allOnes 4 ++ 0#4 ++ BitVec.allOnes 4 ++ 0#4) = s1 ++ 0#4 ++ op ++ 0#4
  simp only [BitVec.and_append, BitVec.and_allOnes, BitVec.and_zero]

/-- The masked halfword names the two opcode fields. -/
theorem and_opcodeMask_eq_iff (h : Half) (s1 op : BitVec 4) :
    h &&& 0xF0F0 = packHalf s1 0 op 0 ↔ fieldS1 h = s1 ∧ fieldOp h = op := by
  have hm : h &&& 0xF0F0 = packHalf (fieldS1 h) 0 (fieldOp h) 0 := by
    rw [← packHalf_and_opcodeMask _ (fieldS2 h) _ (fieldDst h), packHalf_fields]
  rw [hm]
  constructor
  · intro e
    exact ⟨by simpa only [fieldS1_packHalf] using congrArg fieldS1 e, by simpa only [fieldOp_packHalf] using congrArg fieldOp e⟩
  · rintro ⟨rfl, rfl⟩
    rfl

theorem head_of_encode_decodeHalves {h h2 w : Half} {i : Instr} (hi : decodeHalves h h2 = i) (he : encode i = [w]) : h = w := by
  have hr := (encode_decodeHalves h h2).2
  rw [hi, he, halvesRead] at hr
  split at hr <;> exact (List.cons.inj hr).1.symm

/-- Settles O7: an unassigned instruction's encoding names the fields of the halfword it was read from, and those fields decode to it. -/
theorem unassignedEncodingsAreExactlyThree : Obligations.UnassignedEncodingsAreExactlyThree := by
  intro h h2
  have h18 := and_opcodeMask_eq_iff h 0x8 0x1
  have hF0 := and_opcodeMask_eq_iff h 0x0 0xF
  have hF1 := and_opcodeMask_eq_iff h 0x1 0xF
  rw [show packHalf 0x8 0 0x1 0 = 0x8010 by decide] at h18
  rw [show packHalf 0x0 0 0xF 0 = 0x00F0 by decide] at hF0
  rw [show packHalf 0x1 0 0xF 0 = 0x10F0 by decide] at hF1
  rw [h18, hF0, hF1]
  refine ⟨⟨?_, ?_⟩, ?_⟩
  · rintro ⟨d, x, hi | hi | hi⟩ <;> rw [head_of_encode_decodeHalves hi rfl, fieldS1_packHalf, fieldOp_packHalf]
    · exact .inl ⟨rfl, rfl⟩
    · exact .inr (.inl ⟨rfl, rfl⟩)
    · exact .inr (.inr ⟨rfl, rfl⟩)
  · rintro (⟨hs, ho⟩ | ⟨hs, ho⟩ | ⟨hs, ho⟩) <;> refine ⟨fieldDst h, fieldS2 h, ?_⟩ <;> rw [decodeHalves, ho, hs]
    · exact .inl rfl
    · exact .inr (.inl rfl)
    · exact .inr (.inr rfl)
  · rintro (⟨hs, ho⟩ | ⟨hs, ho⟩ | ⟨hs, ho⟩) <;> rw [needsSecondHalf, ho, hs] <;> rfl

/-- Settles O3: each word is decoded by evaluation. -/
theorem wordsOfEveryFormatDecode : Obligations.WordsOfEveryFormatDecode := by
  unfold Obligations.WordsOfEveryFormatDecode
  decide

end Sys2Proof

/-!
PROOFS, bus. The address map (rules R40, R44) and what a read and a write of a word do in each of its regions (rules R45 to R50).
-/

namespace Sys2Proof.Machine

/-! ## Parameters -/

/-- The constraints of rule R5, one by one. -/
theorem configOk_iff (c : Config) : configOk c = true ↔
    c.memSize % 4 = 0 ∧ c.romLimit % 4 = 0 ∧ c.ioBase % 4 = 0 ∧ 0x100 ≤ c.romLimit ∧ c.romLimit ≤ c.memSize ∧
    c.memSize ≤ c.ioBase ∧ c.ioBase < 2 ^ 32 ∧ (∀ d ∈ c.devices, deviceOk c.ioBase d = true) ∧ devicesDisjoint c.devices = true := by
  simp [configOk, and_assoc]

theorem romLimit_le_memSize {c : Config} (hc : configOk c = true) : c.romLimit ≤ c.memSize := by
  obtain ⟨-, -, -, -, h, -⟩ := (configOk_iff c).1 hc
  exact h

theorem devicesDisjoint_of_configOk {c : Config} (hc : configOk c = true) : devicesDisjoint c.devices = true := by
  obtain ⟨-, -, -, -, -, -, -, -, h⟩ := (configOk_iff c).1 hc
  exact h

theorem memSize_mod_four {c : Config} (hc : configOk c = true) : c.memSize % 4 = 0 := by
  obtain ⟨h, -⟩ := (configOk_iff c).1 hc
  exact h

/-! ## The device that holds an address (rules R45, R52) -/

/-- Ranges that hold a common address are not apart. -/
theorem devicesApart_false_of_common {d e : DeviceRange} {a : Nat} (hd : d.base ≤ a ∧ a < d.base + d.len)
    (he : e.base ≤ a ∧ a < e.base + e.len) : devicesApart d e = false := by
  simp [devicesApart]; omega

/-- In pairwise disjoint ranges the search finds exactly the range that holds the address, with its number and offset. -/
theorem findDevice_eq_some_iff {ds : List DeviceRange} (hdis : devicesDisjoint ds = true) (n a k : Nat) (off : Word) :
    findDevice ds n a = some (k, off) ↔
      ∃ j d, k = n + j ∧ ds[j]? = some d ∧ d.base ≤ a ∧ a < d.base + d.len ∧ off = BitVec.ofNat 32 (a - d.base) := by
  induction ds generalizing n with
  | nil => simp [findDevice]
  | cons e ds ih =>
    simp only [devicesDisjoint, Bool.and_eq_true, List.all_eq_true] at hdis
    obtain ⟨hapart, hdis⟩ := hdis
    rw [findDevice]
    split
    next he =>
      constructor
      · intro h
        cases h
        exact ⟨0, e, rfl, rfl, he.1, he.2, rfl⟩
      · rintro ⟨_ | j, d, rfl, hj, hlo, hhi, rfl⟩
        · cases hj
          rfl
        · have hfar := hapart d (List.mem_of_getElem? hj)
          rw [devicesApart_false_of_common he ⟨hlo, hhi⟩] at hfar
          cases hfar
    next he =>
      rw [ih hdis]
      constructor
      · rintro ⟨j, d, rfl, hj, h⟩
        exact ⟨j + 1, d, by omega, hj, h⟩
      · rintro ⟨_ | j, d, rfl, hj, hlo, hhi, hoff⟩
        · cases hj
          exact absurd ⟨hlo, hhi⟩ he
        · exact ⟨j, d, by omega, hj, hlo, hhi, hoff⟩

/-! ## The regions (rule R40) -/

theorem region_eq_ram_iff (c : Config) (a : Nat) : region c a = .ram ↔ c.romLimit ≤ a ∧ a < c.memSize := by
  unfold region
  split
  · split <;> simp <;> omega
  · split
    · simp; omega
    · split <;> simp <;> omega

theorem region_eq_unmapped_iff (c : Config) (a : Nat) : region c a = .unmapped ↔ c.memSize ≤ a ∧ a < c.ioBase := by
  unfold region
  split
  · split <;> simp <;> omega
  · split
    · simp; omega
    · split <;> simp <;> omega

theorem region_eq_rom_iff {c : Config} (hc : configOk c = true) (a : Nat) : region c a = .rom ↔ a < c.romLimit := by
  have hrom := romLimit_le_memSize hc
  unfold region
  split
  · split <;> simp <;> omega
  · split
    · simp; omega
    · split <;> simp <;> omega

/-- An address of the I/O region belongs to the device that the search finds, or is open bus. -/
theorem region_of_ioBase_le {c : Config} (hc : configOk c = true) {a : Nat} (h : c.ioBase ≤ a) :
    region c a = (findDevice c.devices 0 a).elim .openBus fun p => .device p.1 p.2 := by
  have hmem := memSize_le_ioBase hc
  rw [region, if_neg (by omega), if_neg (by omega)]
  cases findDevice c.devices 0 a <;> rfl

/-- Only the I/O region holds devices and open bus. -/
theorem ioBase_le_of_region {c : Config} {a : Nat} (h : (∃ k off, region c a = .device k off) ∨ region c a = .openBus) : c.ioBase ≤ a := by
  unfold region at h
  split at h
  · split at h <;> simp at h
  · split at h
    · simp at h
    · omega

theorem region_eq_device_iff {c : Config} (hc : configOk c = true) (a k : Nat) (off : Word) : region c a = .device k off ↔
    c.ioBase ≤ a ∧ ∃ d, c.devices[k]? = some d ∧ d.base ≤ a ∧ a < d.base + d.len ∧ off = BitVec.ofNat 32 (a - d.base) := by
  have hfind := findDevice_eq_some_iff (devicesDisjoint_of_configOk hc) 0 a k off
  simp only [Nat.zero_add, exists_and_left, exists_eq_left'] at hfind
  rw [← hfind]
  constructor
  · intro h
    have hio := ioBase_le_of_region (.inl ⟨k, off, h⟩)
    rw [region_of_ioBase_le hc hio] at h
    cases hf : findDevice c.devices 0 a with
    | none => rw [hf] at h; cases h
    | some p => rw [hf] at h; cases h; exact ⟨hio, rfl⟩
  · rintro ⟨hio, hf⟩
    rw [region_of_ioBase_le hc hio, hf]
    rfl

theorem region_eq_openBus_iff {c : Config} (hc : configOk c = true) (a : Nat) : region c a = .openBus ↔
    c.ioBase ≤ a ∧ ∀ d ∈ c.devices, ¬ (d.base ≤ a ∧ a < d.base + d.len) := by
  rw [← findDevice_eq_none_iff c.devices 0 a]
  constructor
  · intro h
    have hio := ioBase_le_of_region (.inr h)
    rw [region_of_ioBase_le hc hio] at h
    cases hf : findDevice c.devices 0 a with
    | none => exact ⟨hio, rfl⟩
    | some p => rw [hf] at h; cases h
  · rintro ⟨hio, hf⟩
    rw [region_of_ioBase_le hc hio, hf]
    rfl

/-- Settles O26: the regions are the iffs above, and every bound of the map is a multiple of 4. -/
theorem regionsAreTheAddressMap : Obligations.RegionsAreTheAddressMap := by
  intro c a hc h4 _
  obtain ⟨hmem, hrom, hio, -⟩ := (configOk_iff c).1 hc
  exact ⟨region_eq_rom_iff hc a, region_eq_ram_iff c a, region_eq_unmapped_iff c a, region_eq_device_iff hc a,
    region_eq_openBus_iff hc a, by omega, by omega, by omega⟩

/-! ## Reading and writing a word, region by region (rules R45 to R50) -/

section Access
variable {s : State} {ea v : Word}

theorem busRead_memory (h : region s.cfg (wordAddr ea).toNat = .rom ∨ region s.cfg (wordAddr ea).toNat = .ram) :
    busRead s ea = some (memReadWord s.mem (wordAddr ea).toNat, countAccess s) := by
  rcases h with h | h <;> simp only [busRead, h]

theorem busRead_device {k : Nat} {off : Word} (h : region s.cfg (wordAddr ea).toNat = .device k off) :
    busRead s ea = some (Config.deviceAnswer s.devLog k off, countAccess (logDevice s (.read k off))) := by
  simp only [busRead, h]

theorem busWrite_ram (h : region s.cfg (wordAddr ea).toNat = .ram) : busWrite s ea v = some (countAccess { s with
    mem := memWriteWord s.mem (wordAddr ea).toNat v, token := breakToken s.token (wordAddr ea) }) := by
  simp only [busWrite, h]

theorem busWrite_device {k : Nat} {off : Word} (h : region s.cfg (wordAddr ea).toNat = .device k off) :
    busWrite s ea v = some (countAccess { logDevice s (.write k off v) with token := breakToken s.token (wordAddr ea) }) := by
  simp only [busWrite, h]

end Access

/-- A word of memory lies in the read-only region or in RAM. -/
theorem region_memory {c : Config} {a : Nat} (h : a < c.memSize) : region c a = .rom ∨ region c a = .ram := by
  rw [region, if_pos h]
  split
  · exact .inl rfl
  · exact .inr rfl

/-- A hit clears the valid bit, and a miss leaves the token alone (rule R50). -/
theorem breakToken_eq_tokenAfterStore (s : State) (ea : Word) : breakToken s.token (wordAddr ea) = tokenAfterStore s ea := by
  unfold breakToken tokenAfterStore
  obtain ⟨valid, addr⟩ := s.token
  by_cases ha : addr = wordAddr ea
  · cases valid <;> simp [ha]
  · simp [ha]

/-- Settles O27: each clause names the region, and the region says what the read does. -/
theorem busReadFollowsTheMap : Obligations.BusReadFollowsTheMap := by
  intro s ea hc a counted
  refine ⟨fun h => ?_, fun h1 h2 => ?_, fun h k d hk hlo hhi => ?_, fun h hd => ?_⟩
  · exact busRead_memory (region_memory h)
  · exact (busRead_none_iff s ea).2 fun hr => hr ((region_eq_unmapped_iff _ _).2 ⟨h1, h2⟩)
  · exact busRead_device ((region_eq_device_iff hc _ _ _).2 ⟨h, d, hk, hlo, hhi, rfl⟩)
  · exact busRead_openBus ((region_eq_openBus_iff hc _).2 ⟨h, hd⟩)

/-- Settles O28: each clause names the region, and the region says what the write does. -/
theorem busWriteFollowsTheMap : Obligations.BusWriteFollowsTheMap := by
  intro s ea v hc hwf a after
  have ht := breakToken_eq_tokenAfterStore s ea
  refine ⟨fun h => ?_, fun h1 h2 => ?_, fun h1 h2 => ?_, fun h k d hk hlo hhi => ?_, fun h hd => ?_⟩
  · exact (busWrite_none_iff s ea v).2 fun hw => hw.2 ((region_eq_rom_iff hc _).2 h)
  · refine ⟨memWriteWord s.mem a v, ?_, memWriteWord_wf hwf a v, ?_⟩
    · rw [busWrite_ram ((region_eq_ram_iff _ _).2 ⟨h1, h2⟩), ht]
      rfl
    · obtain ⟨b0, b1, b2, b3⟩ := memRead_memWriteWord_in hwf a v
      exact ⟨b0, b1, b2, b3, fun b hb => memRead_memWriteWord_ne hb s.mem v⟩
  · exact (busWrite_none_iff s ea v).2 fun hw => hw.1 ((region_eq_unmapped_iff _ _).2 ⟨h1, h2⟩)
  · rw [busWrite_device ((region_eq_device_iff hc _ _ _).2 ⟨h, d, hk, hlo, hhi, rfl⟩), ht]
    rfl
  · rw [busWrite_openBus ((region_eq_openBus_iff hc _).2 ⟨h, hd⟩), ht]
    rfl

end Sys2Proof.Machine

/-!
PROOFS, memory reference. The loads, the stores and the conditional store (rules R122 to R138), their faults (rule R234), and the counting of
accesses (rule R49).
-/

namespace Sys2Proof.Machine

/-! ## Accesses that the map allows -/

theorem busRead_of_readable {s : State} {ea : Word} (h : readable s.cfg ea) : ∃ v t, busRead s ea = some (v, t) := by
  cases hb : busRead s ea with
  | none => exact absurd h ((busRead_none_iff s ea).1 hb)
  | some p => exact ⟨p.1, p.2, rfl⟩

theorem busWrite_of_writable {s : State} {ea : Word} (v : Word) (h : writable s.cfg ea) : ∃ t, busWrite s ea v = some t := by
  cases hb : busWrite s ea v with
  | none => exact absurd h ((busWrite_none_iff s ea v).1 hb)
  | some t => exact ⟨t, rfl⟩

theorem readable_of_busRead {s t : State} {ea v : Word} (h : busRead s ea = some (v, t)) : readable s.cfg ea := by
  by_contra hn
  rw [(busRead_none_iff s ea).2 hn] at h
  cases h

theorem writable_of_busWrite {s t : State} {ea v : Word} (h : busWrite s ea v = some t) : writable s.cfg ea := by
  by_contra hn
  rw [(busWrite_none_iff s ea v).2 hn] at h
  cases h

/-- The word and the device history of a read are those that rule R45 gives for its region. -/
theorem busRead_gives {s t : State} {ea v : Word} (h : busRead s ea = some (v, t)) : ReadGives s ea v t.devLog := by
  unfold ReadGives
  obtain ⟨hr | hr, rfl, rfl⟩ | ⟨dev, off, hr, rfl, rfl⟩ | ⟨hr, rfl, rfl⟩ := busRead_cases h <;> rw [hr] <;> exact ⟨rfl, rfl⟩

/-- Memory and the device history after a write are those that rule R46 gives for its region. -/
theorem busWrite_leaves {s t : State} {ea v : Word} (hwf : s.mem.wf = true) (h : busWrite s ea v = some t) : WriteLeaves s t ea v := by
  unfold WriteLeaves
  obtain ⟨hr, rfl⟩ | ⟨dev, off, hr, rfl⟩ | ⟨hr, rfl⟩ := busWrite_cases h <;> rw [hr]
  · refine ⟨memReadWord_memWriteWord hwf _ v, fun a ha => memRead_memWriteWord_ne ?_ s.mem v, rfl⟩
    unfold inWordOf at ha
    omega
  · exact ⟨fun _ => rfl, rfl⟩
  · exact ⟨fun _ => rfl, rfl⟩

/-! ## What a load and a store leave -/

/-- A word read, put in a register with the flags and the token given, is all that a load does. -/
theorem loads_of_busRead {s u : State} {ea v : Word} {d : RegNo} {f : Flags} {P : Word → Flags → Prop} {tok : Token}
    (h : busRead s ea = some (v, u)) (hP : P v f) :
    Loads s (.next { setFlags (writeReg u d v) f with token := tok }) ea d P tok := by
  have hgives := busRead_gives h
  obtain ⟨log, rfl⟩ := busRead_frame h
  exact ⟨_, v, rfl, hgives, regWritten_writeReg s d v, hP, rfl, fun _ => rfl, ⟨rfl, rfl⟩, rfl,
    ⟨rfl, rfl, rfl, rfl, rfl, rfl, rfl, rfl, rfl, rfl, rfl, rfl, rfl, rfl⟩, ⟨rfl, rfl⟩⟩

/-- A word written, with the flags and the token given afterwards, is all that a store does. -/
theorem stores_of_busWrite {s u : State} {ea v : Word} {f : Flags} {tok : Token} (hwf : s.mem.wf = true)
    (h : busWrite s ea v = some u) : Stores s (.next { u with flags := f, token := tok }) ea v f tok := by
  have hwrite := busWrite_leaves hwf h
  have hleaves : WriteLeaves s { u with flags := f, token := tok } ea v := hwrite
  obtain ⟨m, log, rfl⟩ := busWrite_frame h
  exact ⟨_, rfl, hleaves, fun _ => rfl, rfl, rfl, ⟨rfl, rfl⟩, rfl,
    ⟨rfl, rfl, rfl, rfl, rfl, rfl, rfl, rfl, rfl, rfl, rfl, rfl, rfl, rfl⟩, ⟨rfl, rfl⟩⟩

/-- An ordinary store leaves the flags and breaks the token on a hit (rule R50). -/
theorem stores_ordinary {s u : State} {ea v : Word} (hwf : s.mem.wf = true) (h : busWrite s ea v = some u) :
    Stores s (.next u) ea v s.flags (tokenAfterStore s ea) := by
  have hu : u = { u with flags := s.flags, token := tokenAfterStore s ea } := by
    rw [← breakToken_eq_tokenAfterStore]
    obtain ⟨m, log, rfl⟩ := busWrite_frame h
    rfl
  rw [hu]
  exact stores_of_busWrite hwf h

/-- Settles O21: at a readable address each load finishes with the word read. -/
theorem loadsReadTheAddressedWord : Obligations.LoadsReadTheAddressedWord := by
  intro s d x disp
  refine ⟨fun hlong => ?_, fun hshort => ?_⟩
  · obtain ⟨v, u, hb⟩ := busRead_of_readable hlong
    have hload : exec (.load d x disp) s = finishReg u d v := load32_of_busRead hb
    have hloadcc : exec (.loadcc d x disp) s = finishNz u d v := load32_of_busRead hb
    have hflags : u.flags = s.flags ∧ u.token = s.token := by obtain ⟨log, rfl⟩ := busRead_frame hb; exact ⟨rfl, rfl⟩
    rw [hload, hloadcc, ← hflags.1, ← hflags.2]
    exact ⟨loads_of_busRead hb rfl, loads_of_busRead hb (nzFlags_isNz v)⟩
  · obtain ⟨v, u, hb⟩ := busRead_of_readable hshort
    have hloads : exec (.loads d x) s = finishReg u d v := load16_of_busRead hb
    have hloadscc : exec (.loadscc d x) s = finishNz u d v := load16_of_busRead hb
    have hloadl : exec (.loadl d x) s = .next { writeReg u d v with token := ⟨true, wordAddr (eaShort s x)⟩ } := load16_of_busRead hb
    have hflags : u.flags = s.flags ∧ u.token = s.token := by obtain ⟨log, rfl⟩ := busRead_frame hb; exact ⟨rfl, rfl⟩
    rw [hloads, hloadscc, hloadl, ← hflags.1, ← hflags.2]
    exact ⟨loads_of_busRead hb rfl, loads_of_busRead hb (nzFlags_isNz v), loads_of_busRead hb rfl⟩

/-- Settles O22: at a writable address each store is the bus write of its register. -/
theorem storesWriteTheAddressedWord : Obligations.StoresWriteTheAddressedWord := by
  intro s r x disp hwf
  refine ⟨fun hlong => ?_, fun hshort => ?_⟩
  · obtain ⟨u, hb⟩ := busWrite_of_writable (readReg s r) hlong
    have he : exec (.store r x disp) s = .next u := execStore_of_busWrite hb
    exact he ▸ stores_ordinary hwf hb
  · obtain ⟨u, hb⟩ := busWrite_of_writable (readReg s r) hshort
    have he : exec (.stores r x) s = .next u := execStores_of_busWrite hb
    exact he ▸ stores_ordinary hwf hb

/-! ## Data faults (rule R234) -/

section Faults
variable {s : State} {ea : Word}

theorem load16_of_not_readable (h : ¬ readable s.cfg ea) (fin : State → Word → Result) :
    load16 s ea fin = raise16 s (.busFault ea) := by
  rw [load16, (busRead_none_iff s ea).2 h]

theorem load32_of_not_readable (h : ¬ readable s.cfg ea) (fin : State → Word → Result) :
    load32 s ea fin = raise32 s (.busFault ea) := by
  rw [load32, (busRead_none_iff s ea).2 h]

theorem busFault_entry (p : Word) : TakesException s (.next (takeException s (.busFault ea) p)) 0x10 p ea :=
  takeException_entry s (.busFault ea) p

end Faults

theorem execStore_of_not_writable {s : State} {r x : RegNo} {disp : BitVec 16} (h : ¬ writable s.cfg (eaLong s x disp)) :
    execStore r x disp s = raise32 s (.busFault (eaLong s x disp)) := by
  rw [execStore, (busWrite_none_iff s _ _).2 h]

theorem execStores_of_not_writable {s : State} {r x : RegNo} (h : ¬ writable s.cfg (eaShort s x)) :
    execStores r x s = raise16 s (.busFault (eaShort s x)) := by
  rw [execStores, (busWrite_none_iff s _ _).2 h]

theorem execStorec_of_not_writable {s : State} {r x : RegNo} (ht : s.token.valid = true ∧ s.token.addr = wordAddr (eaShort s x))
    (h : ¬ writable s.cfg (eaShort s x)) : execStorec r x s = raise16 s (.busFault (eaShort s x)) := by
  have hhit : (s.token.valid && s.token.addr == wordAddr (eaShort s x)) = true := by simpa using ht
  simp only [execStorec, hhit, if_true, (busWrite_none_iff s _ _).2 h]

/-- Settles O23: where the map refuses the access, the instruction is the entry of BusFault. -/
theorem dataFaultsTakeTheBusVector : Obligations.DataFaultsTakeTheBusVector := by
  intro s d x disp
  refine ⟨fun h => ?_, fun h => ?_, fun h => ?_, fun h => ?_⟩
  · have hload : exec (.load d x disp) s = raise32 s (.busFault (eaLong s x disp)) := load32_of_not_readable h _
    have hloadcc : exec (.loadcc d x disp) s = raise32 s (.busFault (eaLong s x disp)) := load32_of_not_readable h _
    rw [hload, hloadcc]
    exact ⟨busFault_entry _, busFault_entry _⟩
  · have hloads : exec (.loads d x) s = raise16 s (.busFault (eaShort s x)) := load16_of_not_readable h _
    have hloadscc : exec (.loadscc d x) s = raise16 s (.busFault (eaShort s x)) := load16_of_not_readable h _
    have hloadl : exec (.loadl d x) s = raise16 s (.busFault (eaShort s x)) := load16_of_not_readable h _
    rw [hloads, hloadscc, hloadl]
    exact ⟨busFault_entry _, busFault_entry _, busFault_entry _⟩
  · have hstore : exec (.store d x disp) s = raise32 s (.busFault (eaLong s x disp)) := execStore_of_not_writable h
    exact hstore ▸ busFault_entry _
  · have hstores : exec (.stores d x) s = raise16 s (.busFault (eaShort s x)) := execStores_of_not_writable h
    refine ⟨hstores ▸ busFault_entry _, fun ht => ?_⟩
    have hstorec : exec (.storec d x) s = raise16 s (.busFault (eaShort s x)) := execStorec_of_not_writable ht h
    exact hstorec ▸ busFault_entry _

/-! ## The conditional store (rules R135, R137) -/

/-- Settles O24: under the token STOREC is a bus write, else it only sets `V`; the token is consumed in both. -/
theorem storecStoresOnlyUnderTheToken : Obligations.StorecStoresOnlyUnderTheToken := by
  intro s r x hwf
  refine ⟨fun ⟨hv, ha, hw⟩ => ?_, fun h => ?_⟩
  · obtain ⟨u, hb⟩ := busWrite_of_writable (readReg s r) hw
    have he : exec (.storec r x) s = .next (consumeToken (setV u false)) := storec_success s r x hv ha u hb
    have hu : consumeToken (setV u false) = { u with flags := { s.flags with v := false }, token := { s.token with valid := false } } := by
      obtain ⟨m, log, rfl⟩ := busWrite_frame hb
      simp only [consumeToken, setV, breakToken_addr]
      rfl
    rw [he, hu]
    exact stores_of_busWrite hwf hb
  · exact ⟨_, storec_failure s r x h, rfl, rfl, fun _ => rfl, fun _ => rfl, rfl, rfl, rfl, rfl,
      ⟨rfl, rfl, rfl, rfl, rfl, rfl, rfl, rfl, rfl, rfl, rfl, rfl, rfl, rfl⟩, ⟨rfl, rfl⟩⟩

/-- A STOREC that the token does not cover sets `V` and leaves memory, the devices and the counters alone. -/
theorem exec_storec_fails {s : State} {x : RegNo} (r : RegNo) (h : ¬ (s.token.valid = true ∧ s.token.addr = wordAddr (eaShort s x))) :
    ∃ u, exec (.storec r x) s = .next u ∧ u.flags.v = true ∧ MemoryKept s u ∧ u.devLog = s.devLog ∧ u.cyc = s.cyc :=
  ⟨_, storec_failure s r x h, rfl, fun _ => rfl, rfl, rfl⟩

/-- A write to the watched word leaves the token invalid (rule R50). -/
theorem busWrite_hit_token {s u : State} {ea v : Word} (h : busWrite s ea v = some u) (ha : wordAddr ea = s.token.addr) :
    u.token.valid = false := by
  obtain ⟨m, log, rfl⟩ := busWrite_frame h
  show (breakToken s.token (wordAddr ea)).valid = false
  rw [breakToken_eq_tokenAfterStore]
  simp [tokenAfterStore, ha]

/-- After any store to the watched word that the map allows, a STOREC fails and writes nothing. -/
theorem storec_fails_after_write {s u : State} {ea v : Word} (r x : RegNo) (h : busWrite s ea v = some u)
    (ha : wordAddr ea = s.token.addr) : ∃ w, exec (.storec r x) u = .next w ∧ w.flags.v = true ∧ MemoryKept u w := by
  have hinvalid := busWrite_hit_token h ha
  obtain ⟨w, he, hv, hmem, -⟩ := exec_storec_fails (s := u) (x := x) r (by simp [hinvalid])
  exact ⟨w, he, hv, hmem⟩

/-- A word address decides whether the map allows a write. -/
theorem writable_congr {c : Config} {a b : Word} (h : wordAddr a = wordAddr b) : writable c a ↔ writable c b := by
  rw [writable, writable, h]

/-- Settles O25: LOADL leaves a token on the word, so STOREC elsewhere fails, one STOREC there succeeds and uses the token up, and a store in
between breaks it. -/
theorem storecSucceedsExactlyOnce : Obligations.StorecSucceedsExactlyOnce := by
  intro s d r x hx hdx hread
  have hea : ∀ u : State, eaShort u x = readReg u x := fun u => if_neg hx
  obtain ⟨v, u, hb⟩ := busRead_of_readable (s := s) (ea := eaShort s x) (by rwa [hea])
  have hframe : readReg u x = readReg s x ∧ u.cfg = s.cfg := by obtain ⟨log, rfl⟩ := busRead_frame hb; exact ⟨rfl, rfl⟩
  let t : State := { writeReg u d v with token := ⟨true, wordAddr (readReg s x)⟩ }
  have hload : exec (.loadl d x) s = .next t := by
    have he : exec (.loadl d x) s = .next { writeReg u d v with token := ⟨true, wordAddr (eaShort s x)⟩ } := load16_of_busRead hb
    rw [he, hea]
  have htx : eaShort t x = readReg s x := by
    have hr : readReg t x = readReg (writeReg u d v) x := rfl
    rw [hea, hr, readReg_writeReg, if_neg hx, if_neg (Ne.symm hdx), hframe.1]
  have hcfg : t.cfg = s.cfg := hframe.2
  refine ⟨t, hload, fun y hy => exec_storec_fails r fun h => hy h.2.symm, fun hw => ⟨?_, fun q y disp => ⟨fun hy => ?_, fun hy => ?_⟩⟩⟩
  · obtain ⟨u', hb'⟩ := busWrite_of_writable (s := t) (ea := eaShort t x) (readReg t r) (by rwa [htx, hcfg])
    refine ⟨_, storec_success t r x rfl (by rw [htx]) u' hb', rfl, ?_⟩
    obtain ⟨w, he, hv, hmem, -⟩ := exec_storec_fails (s := consumeToken (setV u' false)) (x := x) r (by simp [consumeToken])
    exact ⟨w, he, hv, hmem⟩
  · obtain ⟨u', hb'⟩ := busWrite_of_writable (s := t) (ea := eaShort t y) (readReg t q) ((writable_congr hy).2 (by rwa [hcfg]))
    exact ⟨u', execStores_of_busWrite hb', storec_fails_after_write r x hb' hy⟩
  · obtain ⟨u', hb'⟩ := busWrite_of_writable (s := t) (ea := eaLong t y disp) (readReg t q) ((writable_congr hy).2 (by rwa [hcfg]))
    exact ⟨u', execStore_of_busWrite hb', storec_fails_after_write r x hb' hy⟩

/-! ## Counting accesses (rule R49) -/

/-- What a load can do, whichever it is: the word is read, and the counters stand as the read leaves them; or the read faults. -/
theorem exec_of_readAddress {i : Instr} {s t : State} {ea : Word} (hr : readAddress i s = some ea) (h : exec i s = .next t) :
    (∃ v u, busRead s ea = some (v, u) ∧ t.cyc = u.cyc ∧ t.dbg = u.dbg) ∨
    (busRead s ea = none ∧ ∃ p, t = takeException s (.busFault ea) p) := by
  cases i
  case load | loadcc =>
    cases hr
    obtain ⟨v, u, hb, hf⟩ | ⟨hb, rfl⟩ := load32_cases h
    · cases hf; exact .inl ⟨v, u, hb, rfl, rfl⟩
    · exact .inr ⟨hb, _, rfl⟩
  case loads | loadscc | loadl =>
    cases hr
    obtain ⟨v, u, hb, hf⟩ | ⟨hb, rfl⟩ := load16_cases h
    · cases hf; exact .inl ⟨v, u, hb, rfl, rfl⟩
    · exact .inr ⟨hb, _, rfl⟩
  all_goals cases hr

/-- What a store can do, whichever it is: the word is written, and all but the flags and the token's valid bit stands as the write leaves it; or
the write faults. -/
theorem exec_of_storeAddress {i : Instr} {s t : State} {ea : Word} (hs : storeAddress i s = some ea) (h : exec i s = .next t) :
    (∃ v u, busWrite s ea v = some u ∧ t.cyc = u.cyc ∧ t.dbg = u.dbg ∧ (t.token.valid = true → u.token.valid = true)) ∨
    ((∃ v, busWrite s ea v = none) ∧ ∃ p, t = takeException s (.busFault ea) p) := by
  cases i
  case store =>
    cases hs
    obtain hb | ⟨hb, rfl⟩ := store_cases h
    · exact .inl ⟨_, t, hb, rfl, rfl, id⟩
    · exact .inr ⟨⟨_, hb⟩, _, rfl⟩
  case stores =>
    cases hs
    obtain hb | ⟨hb, rfl⟩ := stores_cases h
    · exact .inl ⟨_, t, hb, rfl, rfl, id⟩
    · exact .inr ⟨⟨_, hb⟩, _, rfl⟩
  case storec r x =>
    obtain ⟨ht, hw⟩ | ⟨ht, -⟩ := storec_cases h
    · rw [show storeAddress (.storec r x) s = some (eaShort s x) from if_pos ht] at hs
      cases hs
      obtain ⟨u, hb, rfl⟩ | ⟨hb, rfl⟩ := hw
      · exact .inl ⟨_, u, hb, rfl, rfl, fun hv => nomatch hv⟩
      · exact .inr ⟨⟨_, hb⟩, _, rfl⟩
    · rw [show storeAddress (.storec r x) s = none from if_neg ht] at hs
      cases hs
  all_goals cases hs

/-- No instruction both reads and writes data. -/
theorem storeAddress_of_readAddress {i : Instr} {s : State} {ea : Word} (h : readAddress i s = some ea) : storeAddress i s = none := by
  cases i
  case load | loadcc | loads | loadscc | loadl => rfl
  all_goals cases h

/-- Writing a special register other than `CYC` leaves the counters. -/
theorem writeSpecial_counters {s t : State} {k : BitVec 4} {w : Word} (hk : k ≠ 8) (h : writeSpecial s k w = some t) :
    t.cyc = s.cyc ∧ t.dbg = s.dbg := by
  unfold writeSpecial at h
  split_ifs at h <;> cases h <;> exact ⟨rfl, rfl⟩

/-- An instruction that makes no data access counts none. -/
theorem exec_counts_none {i : Instr} {s t : State} (hr : readAddress i s = none) (hs : storeAddress i s = none)
    (hi : ∀ r, i ≠ .cpuset r 8) (h : exec i s = .next t) : t.cyc = s.cyc ∧ t.dbg = s.dbg := by
  cases exec_effect i s t h
  case read ea d v u f hra hb => rw [hr] at hra; cases hra
  case readl ea d v u hra hb => rw [hr] at hra; cases hra
  case write ea v hsa hb => rw [hs] at hsa; cases hsa
  case writec ea v u b hsa hb => rw [hs] at hsa; cases hsa
  case special r k he hu hw => exact writeSpecial_counters (fun hk => hi r (hk ▸ he)) hw
  all_goals exact ⟨rfl, rfl⟩

/-- A read that succeeds is counted once. -/
theorem busRead_counts {s u : State} {ea v : Word} (h : busRead s ea = some (v, u)) :
    u.cyc = s.cyc + 1 ∧ u.dbg.budget = s.dbg.budget - 1 := by
  obtain ⟨log, rfl⟩ := busRead_frame h
  exact ⟨rfl, rfl⟩

/-- A write that succeeds is counted once. -/
theorem busWrite_counts {s u : State} {ea v : Word} (h : busWrite s ea v = some u) :
    u.cyc = s.cyc + 1 ∧ u.dbg.budget = s.dbg.budget - 1 := by
  obtain ⟨m, log, rfl⟩ := busWrite_frame h
  exact ⟨rfl, rfl⟩

/-- Settles O31: an instruction reads, writes or does neither; what the map allows is counted, and a fault is not. -/
theorem cycCountsEveryDataAccess : Obligations.CycCountsEveryDataAccess := by
  intro i s t h hi
  cases hr : readAddress i s with
  | some ea =>
    rw [storeAddress_of_readAddress hr]
    obtain ⟨v, u, hb, hcyc, hdbg⟩ | ⟨hb, p, rfl⟩ := exec_of_readAddress hr h
    · have hok := readable_of_busRead hb
      rw [hcyc, hdbg]
      exact ⟨fun _ => busRead_counts hb, fun hn => absurd (.inl ⟨ea, rfl, hok⟩) hn⟩
    · have hbad := (busRead_none_iff s ea).1 hb
      refine ⟨?_, fun _ => ⟨rfl, rfl⟩⟩
      rintro (⟨ea', he, hok⟩ | ⟨ea', he, -⟩)
      · cases he; exact absurd hok hbad
      · cases he
  | none =>
    cases hs : storeAddress i s with
    | some ea =>
      obtain ⟨v, u, hb, hcyc, hdbg, -⟩ | ⟨⟨v, hb⟩, p, rfl⟩ := exec_of_storeAddress hs h
      · have hok := writable_of_busWrite hb
        rw [hcyc, hdbg]
        exact ⟨fun _ => busWrite_counts hb, fun hn => absurd (.inr ⟨ea, rfl, hok⟩) hn⟩
      · have hbad := (busWrite_none_iff s ea v).1 hb
        refine ⟨?_, fun _ => ⟨rfl, rfl⟩⟩
        rintro (⟨ea', he, -⟩ | ⟨ea', he, hok⟩)
        · cases he
        · cases he; exact absurd hok hbad
    | none =>
      obtain ⟨hcyc, hdbg⟩ := exec_counts_none hr hs hi h
      rw [hcyc, hdbg]
      refine ⟨?_, fun _ => ⟨rfl, rfl⟩⟩
      rintro (⟨ea, he, -⟩ | ⟨ea, he, -⟩) <;> cases he

end Sys2Proof.Machine

/-!
PROOFS, frames and invariants. What every instruction, the environment and the Monitor leave unchanged: memory outside the stored word, the watched word of a
valid token, the privilege level, the inputs and the parameters; and the invariant of the state.
-/

namespace Sys2Proof.Machine

/-! ## Addresses -/

theorem wordAddr_idem (a : Word) : wordAddr (wordAddr a) = wordAddr a := by
  apply BitVec.eq_of_toNat_eq
  rw [wordAddr_toNat, wordAddr_toNat]
  omega

theorem wordAddr_eq_iff (a b : Word) : wordAddr a = wordAddr b ↔ a.toNat / 4 = b.toNat / 4 := by
  rw [← BitVec.toNat_inj, wordAddr_toNat, wordAddr_toNat]
  omega

/-- A byte lies in the words of two addresses only where these are the same word. -/
theorem wordAddr_eq_of_inWordOf {p q : Word} {a : Nat} (hp : inWordOf p a) (hq : inWordOf q a) : wordAddr p = wordAddr q := by
  rw [wordAddr_eq_iff]
  unfold inWordOf at hp hq
  rw [wordAddr_toNat] at hp hq
  omega

/-- An address lies in its own word. -/
theorem inWordOf_self (p : Word) : inWordOf p p.toNat := by
  rw [inWordOf, wordAddr_toNat]
  omega

/-! ## Memory outside the stored word (rules R34, R46, R51) -/

/-- A bus write changes no byte outside its word. -/
theorem busWrite_byteAt {s t : State} {ea v : Word} (h : busWrite s ea v = some t) {a : Nat} (ha : ¬ inWordOf ea a) :
    byteAt t a = byteAt s a := by
  obtain ⟨-, rfl⟩ | ⟨_, _, -, rfl⟩ | ⟨-, rfl⟩ := busWrite_cases h
  · refine memRead_memWriteWord_ne ?_ s.mem v
    unfold inWordOf at ha
    omega
  · rfl
  · rfl

/-- A bus write changes no read-only byte. -/
theorem busWrite_byteAt_rom {s t : State} {ea v : Word} (h : busWrite s ea v = some t) {a : Nat} (ha : a < s.cfg.romLimit) :
    byteAt t a = byteAt s a := by
  obtain ⟨hr, rfl⟩ | ⟨_, _, -, rfl⟩ | ⟨-, rfl⟩ := busWrite_cases h
  · obtain ⟨hrom, -⟩ := (region_eq_ram_iff _ _).1 hr
    exact memRead_memWriteWord_ne (by omega) s.mem v
  · rfl
  · rfl

theorem busRead_byteAt {s t : State} {ea v : Word} (h : busRead s ea = some (v, t)) (a : Nat) : byteAt t a = byteAt s a := by
  obtain ⟨log, rfl⟩ := busRead_frame h
  rfl

/-- Writing a special register changes no memory. -/
theorem writeSpecial_mem {s t : State} {k : BitVec 4} {w : Word} (h : writeSpecial s k w = some t) : t.mem = s.mem := by
  unfold writeSpecial at h
  split_ifs at h <;> cases h <;> rfl

/-- Settles O30: of all effects only the two writes touch memory, and a bus write stays in its word and out of the read-only region. -/
theorem memoryChangesOnlyInTheStoredWord : Obligations.MemoryChangesOnlyInTheStoredWord := by
  intro i s t h a ha
  have hwrite : ∀ {ea v : Word} {u : State}, storeAddress i s = some ea → busWrite s ea v = some u → byteAt u a = byteAt s a := by
    intro ea v u hs hb
    obtain hout | ⟨-, hrom⟩ := ha
    · exact busWrite_byteAt hb (hout ea hs)
    · exact busWrite_byteAt_rom hb hrom
  cases exec_effect i s t h
  case read ea d v u f hr hb => exact busRead_byteAt hb a
  case readl ea d v u hr hb => exact busRead_byteAt hb a
  case write ea v hs hb => exact hwrite hs hb
  case writec ea v u b hs hb =>
    have hu := hwrite hs hb
    exact hu
  case special r k hi hu hw => rw [byteAt, writeSpecial_mem hw]; rfl
  all_goals rfl

/-! ## The watched word (rules R50, R136) -/

/-- From `s` to `t` the token watches the same word, it has not become valid, and where it still is no byte of the word has changed. -/
structure WatchKept (s t : State) : Prop where
  addr : t.token.addr = s.token.addr
  valid : t.token.valid = true → s.token.valid = true
  bytes : t.token.valid = true → ∀ a, inWordOf s.token.addr a → byteAt t a = byteAt s a

theorem WatchKept.of_eq {s t : State} (ht : t.token = s.token) (hm : t.mem = s.mem) : WatchKept s t :=
  ⟨by rw [ht], by rw [ht]; exact id, fun _ a _ => by rw [byteAt, byteAt, hm]⟩

theorem WatchKept.trans {s t u : State} (h1 : WatchKept s t) (h2 : WatchKept t u) : WatchKept s u :=
  ⟨h2.addr.trans h1.addr, fun h => h1.valid (h2.valid h), fun h a ha =>
    (h2.bytes h a (by rwa [h1.addr])).trans (h1.bytes (h2.valid h) a ha)⟩

/-- The token after a write at `a` is still valid only where it watches another word. -/
theorem breakToken_valid {t : Token} {a : Word} (h : (breakToken t a).valid = true) : t.valid = true ∧ t.addr ≠ a := by
  unfold breakToken at h
  split at h
  · cases h
  next hb =>
    refine ⟨h, fun e => hb ?_⟩
    rw [h, e]
    simp

/-- A write into one word that breaks the token on a hit keeps the watch on a word-aligned token. -/
theorem WatchKept.of_write {s t : State} {p : Word} (hal : wordAddr s.token.addr = s.token.addr)
    (ht : t.token = breakToken s.token (wordAddr p)) (hm : ∀ a, ¬ inWordOf p a → byteAt t a = byteAt s a) : WatchKept s t := by
  refine ⟨by rw [ht, breakToken_addr], fun h => ?_, fun h a ha => hm a fun hp => ?_⟩ <;> rw [ht] at h
  · exact (breakToken_valid h).1
  · exact (breakToken_valid h).2 (hal ▸ wordAddr_eq_of_inWordOf ha hp)

/-- A byte written by another agent is a write into its word. -/
theorem agentWriteByte_watchKept {s : State} (hal : wordAddr s.token.addr = s.token.addr) (a : Word) (b : Byte) :
    WatchKept s (agentWriteByte s a b) := by
  obtain ⟨-, he⟩ | ⟨-, he⟩ := agentWriteByte_cases s a b <;> rw [he]
  · exact .of_eq rfl rfl
  · refine .of_write (p := a) hal rfl fun c hc => memRead_memWrite_ne ?_ s.mem b
    rintro rfl
    exact hc (inWordOf_self a)

theorem agentWriteWord_watchKept {s : State} (hal : wordAddr s.token.addr = s.token.addr) (a v : Word) :
    WatchKept s (agentWriteWord s a v) := by
  obtain ⟨-, he⟩ | ⟨-, he⟩ := agentWriteWord_cases s a v <;> rw [he]
  · exact .of_eq rfl rfl
  · refine .of_write (p := a) hal rfl fun c hc => memRead_memWriteWord_ne ?_ s.mem v
    unfold inWordOf at hc
    omega

theorem monitorWriteByte_watchKept {s : State} (hal : wordAddr s.token.addr = s.token.addr) (a : Word) (b : Byte) :
    WatchKept s (monitorWriteByte s a b) := by
  obtain ⟨-, he⟩ | ⟨-, he⟩ := monitorWriteByte_cases s a b <;> rw [he]
  · exact .of_eq rfl rfl
  · exact (agentWriteByte_watchKept hal a b).trans (.of_eq rfl rfl)

theorem monitorWriteWord_watchKept {s : State} (hal : wordAddr s.token.addr = s.token.addr) (a v : Word) :
    WatchKept s (monitorWriteWord s a v) := by
  obtain ⟨-, he⟩ | ⟨-, he⟩ := monitorWriteWord_cases s a v <;> rw [he]
  · exact .of_eq rfl rfl
  · exact (agentWriteWord_watchKept hal a v).trans (.of_eq rfl rfl)

theorem environmentAct_watchKept {s : State} (hal : wordAddr s.token.addr = s.token.addr) (act : EnvAction) :
    WatchKept s (environmentAct s act) := by
  cases act
  case writeByte a b => exact agentWriteByte_watchKept hal a b
  case writeWord a v => exact agentWriteWord_watchKept hal a v
  all_goals exact .of_eq rfl rfl

/-- A direct call of the unit touches nothing but the unit. -/
theorem unitCallWrite_cases (s : State) (k : BitVec 4) (w : Word) : ∃ f, unitCallWrite s k w = { s with fpu := f } := by
  unfold unitCallWrite
  split
  · exact ⟨_, rfl⟩
  · exact ⟨s.fpu, rfl⟩

theorem monitorAct_watchKept {s t : State} (hal : wordAddr s.token.addr = s.token.addr) {act : MonitorAction}
    (h : monitorAct s act = some t) : WatchKept s t := by
  cases act
  case terminate => cases h
  case writeByte a b => cases h; exact monitorWriteByte_watchKept hal a b
  case writeWord a v => cases h; exact monitorWriteWord_watchKept hal a v
  case unitWrite k w =>
    cases h
    obtain ⟨f, hf⟩ := unitCallWrite_cases s k w
    rw [hf]
    exact .of_eq rfl rfl
  all_goals cases h; exact .of_eq rfl rfl

theorem environmentActs_watchKept {s : State} (hal : wordAddr s.token.addr = s.token.addr) (acts : List EnvAction) :
    WatchKept s (acts.foldl environmentAct s) := by
  induction acts generalizing s with
  | nil => exact .of_eq rfl rfl
  | cons act acts ih =>
    have h1 := environmentAct_watchKept hal act
    exact h1.trans (ih (by rwa [h1.addr]))

theorem monitorSession_watchKept {s t : State} (hal : wordAddr s.token.addr = s.token.addr) {acts : List MonitorAction}
    (h : monitorSession s acts = some t) : WatchKept s t := by
  induction acts generalizing s with
  | nil => cases h; exact .of_eq rfl rfl
  | cons act acts ih =>
    unfold monitorSession at h
    split at h
    next u hu =>
      have h1 := monitorAct_watchKept hal hu
      exact h1.trans (ih (by rwa [h1.addr]) h)
    · cases h

/-- Everything the environment's turn can do: nothing, or the next list of actions. -/
theorem environmentTurn_cases (s : State) : (s.env = [] ∧ environmentTurn s = s) ∨
    ∃ acts rest, s.env = acts :: rest ∧ environmentTurn s = acts.foldl environmentAct { s with env := rest } := by
  unfold environmentTurn
  split
  · exact .inl ⟨‹_›, rfl⟩
  · exact .inr ⟨_, _, ‹_›, rfl⟩

/-- Everything the Monitor's turn can do and the run go on: nothing without a yield, a resume, or a session and a resume. -/
theorem monitorTurn_cases {s t : State} (h : monitorTurn s = some t) :
    (yieldDue s = false ∧ t = s) ∨ (yieldDue s = true ∧ s.dbg.script = [] ∧ t = resume s) ∨
    (yieldDue s = true ∧ ∃ session rest u, s.dbg.script = session :: rest ∧
      monitorSession { s with dbg := { s.dbg with script := rest } } session = some u ∧ t = resume u) := by
  unfold monitorTurn at h
  split at h
  next hy =>
    split at h
    · cases h; exact .inr (.inl ⟨hy, ‹_›, rfl⟩)
    · split at h
      · cases h; exact .inr (.inr ⟨hy, _, _, _, ‹_›, ‹_›, rfl⟩)
      · cases h
  next hy => cases h; exact .inl ⟨Bool.eq_false_iff.2 hy, rfl⟩

theorem environmentTurn_watchKept {s : State} (hal : wordAddr s.token.addr = s.token.addr) : WatchKept s (environmentTurn s) := by
  obtain ⟨-, he⟩ | ⟨acts, rest, -, he⟩ := environmentTurn_cases s <;> rw [he]
  · exact .of_eq rfl rfl
  · exact WatchKept.trans (t := { s with env := rest }) (.of_eq rfl rfl) (environmentActs_watchKept (s := { s with env := rest }) hal acts)

theorem monitorTurn_watchKept {s t : State} (hal : wordAddr s.token.addr = s.token.addr) (h : monitorTurn s = some t) :
    WatchKept s t := by
  obtain ⟨-, rfl⟩ | ⟨-, -, rfl⟩ | ⟨-, session, rest, u, -, hu, rfl⟩ := monitorTurn_cases h
  · exact .of_eq rfl rfl
  · exact .of_eq rfl rfl
  · have h1 : WatchKept { s with dbg := { s.dbg with script := rest } } u := monitorSession_watchKept hal hu
    exact WatchKept.trans (t := { s with dbg := { s.dbg with script := rest } }) (.of_eq rfl rfl) (h1.trans (.of_eq rfl rfl))

/-- Where the watch is kept, the word that a valid token watches has not changed. -/
theorem WatchKept.unwritten {s t : State} (h : WatchKept s t) (hv : t.token.valid = true) (a : Nat) (ha : inWordOf t.token.addr a) :
    byteAt t a = byteAt s a :=
  h.bytes hv a (by rwa [← h.addr])

/-- No instruction changes the word that a token valid after it watches. -/
theorem exec_unwritten {i : Instr} {s t : State} (hal : wordAddr s.token.addr = s.token.addr) (h : exec i s = .next t)
    (hv : t.token.valid = true) (a : Nat) (ha : inWordOf t.token.addr a) : byteAt t a = byteAt s a := by
  cases exec_effect i s t h
  case read ea d v u f hr hb => exact busRead_byteAt hb a
  case readl ea d v u hr hb => exact busRead_byteAt hb a
  case write ea v hs hb =>
    have ht : t.token = breakToken s.token (wordAddr ea) := by obtain ⟨m, log, rfl⟩ := busWrite_frame hb; rfl
    exact (WatchKept.of_write hal ht fun c hc => busWrite_byteAt hb hc).unwritten hv a ha
  case writec ea v u b hs hb => cases hv
  case special r k hi hu hw => rw [byteAt, writeSpecial_mem hw]; rfl
  all_goals rfl

/-! ## A write into the watched word breaks the token -/

theorem breakToken_hit {t : Token} {a : Word} (h : t.addr = a) : (breakToken t a).valid = false := by
  by_contra hv
  exact (breakToken_valid (Bool.eq_true_of_not_eq_false hv)).2 h

theorem agentWriteByte_hit {s : State} {a : Word} {b : Byte} (h : a.toNat < s.cfg.memSize ∧ wordAddr a = s.token.addr) :
    (agentWriteByte s a b).token.valid = false := by
  rw [agentWriteByte, if_pos h.1]
  exact breakToken_hit h.2.symm

theorem agentWriteWord_hit {s : State} {a v : Word} (h : (wordAddr a).toNat < s.cfg.memSize ∧ wordAddr a = s.token.addr) :
    (agentWriteWord s a v).token.valid = false := by
  rw [agentWriteWord, if_pos h.1]
  exact breakToken_hit h.2.symm

theorem environmentAct_hit {s : State} {act : EnvAction} (h : act.Hits s) : (environmentAct s act).token.valid = false := by
  cases act
  case writeByte a b => exact agentWriteByte_hit h
  case writeWord a v => exact agentWriteWord_hit h
  all_goals exact h.elim

theorem monitorAct_hit {s t : State} {act : MonitorAction} (h : act.Hits s) (ht : monitorAct s act = some t) : t.token.valid = false := by
  cases act
  case writeByte a b => cases ht; rw [monitorWriteByte, if_pos h.1]; exact agentWriteByte_hit h
  case writeWord a v => cases ht; rw [monitorWriteWord, if_pos h.1]; exact agentWriteWord_hit h
  all_goals exact h.elim

/-! ## Parameters -/

theorem agentWriteByte_cfg (s : State) (a : Word) (b : Byte) : (agentWriteByte s a b).cfg = s.cfg := by
  obtain ⟨-, he⟩ | ⟨-, he⟩ := agentWriteByte_cases s a b <;> rw [he]

theorem agentWriteWord_cfg (s : State) (a v : Word) : (agentWriteWord s a v).cfg = s.cfg := by
  obtain ⟨-, he⟩ | ⟨-, he⟩ := agentWriteWord_cases s a v <;> rw [he]

theorem environmentAct_cfg (s : State) (act : EnvAction) : (environmentAct s act).cfg = s.cfg := by
  cases act
  case writeByte a b => exact agentWriteByte_cfg s a b
  case writeWord a v => exact agentWriteWord_cfg s a v
  all_goals rfl

theorem monitorAct_cfg {s t : State} {act : MonitorAction} (h : monitorAct s act = some t) : t.cfg = s.cfg := by
  cases act
  case terminate => cases h
  case writeByte a b =>
    cases h
    obtain ⟨-, he⟩ | ⟨-, he⟩ := monitorWriteByte_cases s a b <;> rw [he]
    exact agentWriteByte_cfg s a b
  case writeWord a v =>
    cases h
    obtain ⟨-, he⟩ | ⟨-, he⟩ := monitorWriteWord_cases s a v <;> rw [he]
    exact agentWriteWord_cfg s a v
  case unitWrite k w =>
    cases h
    obtain ⟨f, hf⟩ := unitCallWrite_cases s k w
    rw [hf]
  all_goals cases h; rfl

theorem environmentTurn_cfg (s : State) : (environmentTurn s).cfg = s.cfg := by
  have hacts : ∀ (acts : List EnvAction) (u : State), (acts.foldl environmentAct u).cfg = u.cfg := by
    intro acts
    induction acts with
    | nil => exact fun u => rfl
    | cons act acts ih => exact fun u => (ih _).trans (environmentAct_cfg u act)
  obtain ⟨-, he⟩ | ⟨acts, rest, -, he⟩ := environmentTurn_cases s <;> rw [he]
  exact hacts acts _

theorem monitorSession_cfg {s t : State} {acts : List MonitorAction} (h : monitorSession s acts = some t) : t.cfg = s.cfg := by
  induction acts generalizing s with
  | nil => cases h; rfl
  | cons act acts ih =>
    unfold monitorSession at h
    split at h
    next u hu => exact (ih h).trans (monitorAct_cfg hu)
    · cases h

theorem monitorTurn_cfg {s t : State} (h : monitorTurn s = some t) : t.cfg = s.cfg := by
  obtain ⟨-, rfl⟩ | ⟨-, -, rfl⟩ | ⟨-, session, rest, u, -, hu, rfl⟩ := monitorTurn_cases h
  · rfl
  · rfl
  · have hcfg := monitorSession_cfg hu
    exact hcfg

/-! ## Hits along a list of actions -/

theorem EnvAction.Hits.congr {s t : State} {act : EnvAction} (hc : t.cfg = s.cfg) (ha : t.token.addr = s.token.addr) (h : act.Hits s) :
    act.Hits t := by
  cases act
  case writeByte a b => unfold EnvAction.Hits at h ⊢; rwa [hc, ha]
  case writeWord a v => unfold EnvAction.Hits at h ⊢; rwa [hc, ha]
  all_goals exact h

theorem MonitorAction.Hits.congr {s t : State} {act : MonitorAction} (hc : t.cfg = s.cfg) (ha : t.token.addr = s.token.addr)
    (h : act.Hits s) : act.Hits t := by
  cases act
  case writeByte a b => unfold MonitorAction.Hits at h ⊢; rwa [hc, ha]
  case writeWord a v => unfold MonitorAction.Hits at h ⊢; rwa [hc, ha]
  all_goals exact h

/-- An invalid token stays invalid while the watch is kept. -/
theorem WatchKept.invalid {s t : State} (h : WatchKept s t) (hv : s.token.valid = false) : t.token.valid = false := by
  by_contra ht
  rw [h.valid (Bool.eq_true_of_not_eq_false ht)] at hv
  cases hv

theorem environmentActs_hit {s : State} {acts : List EnvAction} (hal : wordAddr s.token.addr = s.token.addr)
    (h : ∃ act ∈ acts, act.Hits s) : (acts.foldl environmentAct s).token.valid = false := by
  induction acts generalizing s with
  | nil => obtain ⟨act, hm, -⟩ := h; cases hm
  | cons act acts ih =>
    have h1 := environmentAct_watchKept hal act
    have hal' : wordAddr (environmentAct s act).token.addr = (environmentAct s act).token.addr := by rwa [h1.addr]
    obtain ⟨act', hm, hh⟩ := h
    rcases List.mem_cons.1 hm with rfl | hm
    · exact (environmentActs_watchKept hal' acts).invalid (environmentAct_hit hh)
    · exact ih hal' ⟨act', hm, hh.congr (environmentAct_cfg s act) h1.addr⟩

theorem monitorSession_hit {s t : State} {acts : List MonitorAction} (hal : wordAddr s.token.addr = s.token.addr)
    (h : ∃ act ∈ acts, act.Hits s) (ht : monitorSession s acts = some t) : t.token.valid = false := by
  induction acts generalizing s with
  | nil => obtain ⟨act, hm, -⟩ := h; cases hm
  | cons act acts ih =>
    unfold monitorSession at ht
    split at ht
    next u hu =>
      have h1 := monitorAct_watchKept hal hu
      have hal' : wordAddr u.token.addr = u.token.addr := by rwa [h1.addr]
      obtain ⟨act', hm, hh⟩ := h
      rcases List.mem_cons.1 hm with rfl | hm
      · exact (monitorSession_watchKept hal' ht).invalid (monitorAct_hit hh hu)
      · exact ih hal' ⟨act', hm, hh.congr (monitorAct_cfg hu) h1.addr⟩ ht
    · cases ht

/-- The check of the boundary is the condition of rule R268. -/
theorem yieldDue_iff (s : State) : yieldDue s = true ↔ YieldConditions s := by
  simp [yieldDue, YieldConditions, and_assoc, or_assoc]

/-- Settles O32: the environment, the Monitor and the instructions keep the watch, and a hit of any of them breaks the token for good. -/
theorem aValidTokenWatchesAnUnwrittenWord : Obligations.AValidTokenWatchesAnUnwrittenWord := by
  intro s hal
  refine ⟨(environmentTurn_watchKept hal).unwritten, fun t ht => (monitorTurn_watchKept hal ht).unwritten,
    fun i t h => exec_unwritten hal h, fun acts rest he hhit => ?_, fun hy acts rest hs hhit t ht => ?_,
    fun i ea t hs hw ha h => ?_⟩
  · obtain ⟨h0, -⟩ | ⟨acts', rest', h1, he'⟩ := environmentTurn_cases s
    · rw [h0] at he; cases he
    · rw [he] at h1
      cases h1
      rw [he']
      obtain ⟨act, hm, hh⟩ := hhit
      exact environmentActs_hit hal ⟨act, hm, hh.congr rfl rfl⟩
  · obtain ⟨h0, -⟩ | ⟨-, h0, -⟩ | ⟨-, session, rest', u, h1, hu, rfl⟩ := monitorTurn_cases ht
    · rw [(yieldDue_iff s).2 hy] at h0; cases h0
    · rw [h0] at hs; cases hs
    · rw [hs] at h1
      cases h1
      obtain ⟨act, hm, hh⟩ := hhit
      have hinvalid := monitorSession_hit (s := { s with dbg := { s.dbg with script := rest } }) hal ⟨act, hm, hh.congr rfl rfl⟩ hu
      exact hinvalid
  · obtain ⟨v, u, hb, -, -, hv⟩ | ⟨⟨v, hb⟩, -⟩ := exec_of_storeAddress hs h
    · by_contra ht
      have hu := hv (Bool.eq_true_of_not_eq_false ht)
      rw [busWrite_hit_token hb ha] at hu
      cases hu
    · exact absurd hw ((busWrite_none_iff s ea v).1 hb)

/-! ## Privilege (rules R202, R262, R263) -/

/-- The pc after an exception is one of the four vectors. -/
theorem takeException_pc (s : State) (e : Exc) (p : Word) : (takeException s e p).pc = 0x10 ∨ (takeException s e p).pc = 0x20 ∨
    (takeException s e p).pc = 0x30 ∨ (takeException s e p).pc = 0x50 := by
  cases e
  case busFault => exact .inl (evenAddr_of_even 0x10 rfl)
  case illegalInstruction => exact .inr (.inl (evenAddr_of_even 0x20 rfl))
  case privilegeViolation => exact .inr (.inr (.inl (evenAddr_of_even 0x30 rfl)))
  case missingCoprocessor => exact .inr (.inr (.inr (evenAddr_of_even 0x50 rfl)))

/-- From `s`, at level 15, to `t` the level and the system registers are kept, or a trap was entered (rule R263). -/
def StaysOrTraps (s t : State) : Prop :=
  t.tsv = s.tsv ∧ t.costat = s.costat ∧
    ((t.level = 15 ∧ t.olevel = s.olevel ∧ t.tpc = s.tpc ∧ t.tma = s.tma) ∨
     (t.level = 0 ∧ t.olevel = 15 ∧ (t.pc = 0x10 ∨ t.pc = 0x20 ∨ t.pc = 0x30 ∨ t.pc = 0x50) ∧
      (t.tpc = s.pc - 2 ∨ t.tpc = s.pc - 4) ∧ RegsKept s t ∧ t.flags = s.flags ∧ t.token = s.token ∧ MemoryKept s t))

theorem StaysOrTraps.of_kept {s t : State} (hl : s.level = 15) (hlevel : t.level = s.level) (holevel : t.olevel = s.olevel)
    (htpc : t.tpc = s.tpc) (htma : t.tma = s.tma) (htsv : t.tsv = s.tsv) (hcostat : t.costat = s.costat) : StaysOrTraps s t :=
  ⟨htsv, hcostat, .inl ⟨hlevel.trans hl, holevel, htpc, htma⟩⟩

theorem StaysOrTraps.of_exception {s : State} (hl : s.level = 15) (e : Exc) {p : Word} (hp : p = s.pc - 2 ∨ p = s.pc - 4) :
    StaysOrTraps s (takeException s e p) :=
  ⟨rfl, rfl, .inr ⟨rfl, hl, takeException_pc s e p, hp, fun _ => rfl, rfl, rfl, fun _ => rfl⟩⟩

/-- Settles O41: the effects that change the level or a system register ask for a level below 15, but for the exceptions. -/
theorem unprivilegedCodeLeavesLevel15OnlyByATrap : Obligations.UnprivilegedCodeLeavesLevel15OnlyByATrap := by
  intro i s t hl h
  show StaysOrTraps s t
  have hun : unprivileged s ≠ false := by rw [unprivileged, hl]; decide
  cases exec_effect i s t h
  case exc16 e => exact .of_exception hl e (.inl rfl)
  case exc32 e => exact .of_exception hl e (.inr rfl)
  case read ea d v u f hr hb => obtain ⟨log, rfl⟩ := busRead_frame hb; exact .of_kept hl rfl rfl rfl rfl rfl rfl
  case readl ea d v u hr hb => obtain ⟨log, rfl⟩ := busRead_frame hb; exact .of_kept hl rfl rfl rfl rfl rfl rfl
  case write ea v hs hb => obtain ⟨m, log, rfl⟩ := busWrite_frame hb; exact .of_kept hl rfl rfl rfl rfl rfl rfl
  case writec ea v u b hs hb => obtain ⟨m, log, rfl⟩ := busWrite_frame hb; exact .of_kept hl rfl rfl rfl rfl rfl rfl
  case ret v hp => exact absurd hp hun
  case special r k hi hp hw => exact absurd hp hun
  case costat v hp => exact absurd hp hun
  all_goals exact .of_kept hl rfl rfl rfl rfl rfl rfl

/-! ## The inputs (rules R29, R33, R35, R255) -/

/-- The fields of the state that only the outside world writes are as before: request lines, both input lists, breakpoint, pause flag, snapshot
and parameters. -/
structure InputsKept (s t : State) : Prop where
  irq : t.irq = s.irq
  env : t.env = s.env
  cfg : t.cfg = s.cfg
  script : t.dbg.script = s.dbg.script
  breakpoint : t.dbg.breakpoint = s.dbg.breakpoint
  paused : t.dbg.paused = s.dbg.paused
  snapshot : t.dbg.snapshot = s.dbg.snapshot

theorem writeSpecial_inputsKept {s t : State} {k : BitVec 4} {w : Word} (h : writeSpecial s k w = some t) : InputsKept s t := by
  unfold writeSpecial at h
  split_ifs at h <;> cases h <;> exact ⟨rfl, rfl, rfl, rfl, rfl, rfl, rfl⟩

theorem exec_inputsKept {i : Instr} {s t : State} (h : exec i s = .next t) : InputsKept s t := by
  cases exec_effect i s t h
  case read ea d v u f hr hb => obtain ⟨log, rfl⟩ := busRead_frame hb; exact ⟨rfl, rfl, rfl, rfl, rfl, rfl, rfl⟩
  case readl ea d v u hr hb => obtain ⟨log, rfl⟩ := busRead_frame hb; exact ⟨rfl, rfl, rfl, rfl, rfl, rfl, rfl⟩
  case write ea v hs hb => obtain ⟨m, log, rfl⟩ := busWrite_frame hb; exact ⟨rfl, rfl, rfl, rfl, rfl, rfl, rfl⟩
  case writec ea v u b hs hb => obtain ⟨m, log, rfl⟩ := busWrite_frame hb; exact ⟨rfl, rfl, rfl, rfl, rfl, rfl, rfl⟩
  case special r k hi hp hw => exact writeSpecial_inputsKept hw
  all_goals exact ⟨rfl, rfl, rfl, rfl, rfl, rfl, rfl⟩

theorem fetchHalf_cfg {s t : State} {h : Half} (hf : fetchHalf s = some (h, t)) : t.cfg = s.cfg := by
  obtain ⟨-, -, -, rfl⟩ | ⟨w, u, hb, -, rfl⟩ := fetchHalf_cases hf
  · rfl
  · obtain ⟨log, rfl⟩ := busRead_frame hb
    rfl

/-- Everything the fetch of an instruction can do, its faults included. -/
theorem fetchInstr_cases (s : State) :
    (fetchHalf s = none ∧ fetchInstr s = .fault s s.pc) ∨
    (∃ h s1, fetchHalf s = some (h, s1) ∧ needsSecondHalf h = false ∧ fetchInstr s = .instr (decodeHalves h 0) s1) ∨
    (∃ h s1, fetchHalf s = some (h, s1) ∧ needsSecondHalf h = true ∧ fetchHalf s1 = none ∧ fetchInstr s = .fault s1 s1.pc) ∨
    (∃ h s1 h2 s2, fetchHalf s = some (h, s1) ∧ needsSecondHalf h = true ∧ fetchHalf s1 = some (h2, s2) ∧
      fetchInstr s = .instr (decodeHalves h h2) s2) := by
  unfold fetchInstr
  split
  · exact .inl ⟨‹_›, rfl⟩
  next h s1 h1 =>
    split
    next hn =>
      split
      · exact .inr (.inr (.inl ⟨h, s1, h1, hn, ‹_›, rfl⟩))
      · exact .inr (.inr (.inr ⟨h, s1, _, _, h1, hn, ‹_›, rfl⟩))
    next hn => exact .inr (.inl ⟨h, s1, h1, Bool.eq_false_iff.2 hn, rfl⟩)

theorem fetchInstr_cfg {s t : State} {i : Instr} (hf : fetchInstr s = .instr i t) : t.cfg = s.cfg := by
  obtain ⟨-, hc⟩ | ⟨w, s1, h1, -, hc⟩ | ⟨w, s1, -, -, -, hc⟩ | ⟨w, s1, w2, s2, h1, -, h2, hc⟩ := fetchInstr_cases s <;> rw [hc] at hf <;> cases hf
  · exact fetchHalf_cfg h1
  · exact (fetchHalf_cfg h2).trans (fetchHalf_cfg h1)

theorem fetchFault_cfg {s t : State} {a : Word} (hf : fetchInstr s = .fault t a) : t.cfg = s.cfg := by
  obtain ⟨-, hc⟩ | ⟨w, s1, -, -, hc⟩ | ⟨w, s1, h1, -, -, hc⟩ | ⟨w, s1, w2, s2, -, -, -, hc⟩ := fetchInstr_cases s <;> rw [hc] at hf <;> cases hf
  · rfl
  · exact fetchHalf_cfg h1

theorem engineTurn_cfg {s u : State} (h : engineTurn s = .next u) : u.cfg = s.cfg := by
  obtain ⟨i, -, rfl⟩ | ⟨-, t, a, hf, rfl⟩ | ⟨-, i, t, hf, he⟩ := engineTurn_cases h
  · rfl
  · have hcfg := fetchFault_cfg hf
    exact hcfg
  · exact (exec_inputsKept he).cfg.trans (fetchInstr_cfg hf)

/-- Settles O57: no effect of an instruction is a write of an input, and no part of a step writes a parameter. -/
theorem theEngineNeverTouchesItsInputs : Obligations.TheEngineNeverTouchesItsInputs := by
  refine ⟨fun i s t h => ?_, fun s t h => ?_⟩
  · obtain ⟨h1, h2, h3, h4, h5, h6, h7⟩ := exec_inputsKept h
    exact ⟨h1, h2, h3, h4, h5, h6, h7⟩
  · obtain ⟨-, t', w, hm, he, rfl⟩ := step_cases h
    exact (engineTurn_cfg he).trans ((environmentTurn_cfg t').trans (monitorTurn_cfg hm))

/-! ## The invariant -/

theorem getLsbD_zero_add_two (a : Word) : (a + 2).getLsbD 0 = a.getLsbD 0 := by
  rw [BitVec.getLsbD_add (by decide)]
  simp [BitVec.carry, Nat.mod_one]

theorem evenAddr_even (a : Word) : (evenAddr a).getLsbD 0 = false := by
  rw [evenAddr, BitVec.getLsbD_and]
  exact Bool.and_false _

/-- The invariant speaks of memory, `MEM_SIZE`, the pc and two addresses only. -/
theorem Inv.congr {s t : State} (h : Inv s) (hm : t.mem = s.mem) (hc : t.cfg = s.cfg) (hp : t.pc = s.pc) (ht : t.token.addr = s.token.addr)
    (hf : t.prefetch.addr = s.prefetch.addr) : Inv t :=
  ⟨by rw [hm]; exact h.memCanonical, by rw [hm, hc]; exact h.memInside, by rw [hp]; exact h.pcEven,
    by rw [ht]; exact h.tokenWord, by rw [hf]; exact h.prefetchWord⟩

/-- Writing the pc keeps it even. -/
theorem Inv.writePc {s : State} (h : Inv s) (a : Word) : Inv (writePc s a) :=
  ⟨h.memCanonical, h.memInside, evenAddr_even a, h.tokenWord, h.prefetchWord⟩

theorem Inv.takeException {s : State} (h : Inv s) (e : Exc) (p : Word) : Inv (takeException s e p) :=
  ⟨h.memCanonical, h.memInside, evenAddr_even _, h.tokenWord, h.prefetchWord⟩

/-- A word of memory stored keeps memory canonical and inside its size, and no address of the token or the buffer moves. -/
theorem Inv.of_wordWritten {s t : State} (h : Inv s) {p v : Word} (hc : configOk s.cfg = true) (hp : (wordAddr p).toNat < s.cfg.memSize)
    (hm : t.mem = memWriteWord s.mem (wordAddr p).toNat v) (hcfg : t.cfg = s.cfg) (hpc : t.pc = s.pc)
    (ht : t.token.addr = s.token.addr) (hf : t.prefetch.addr = s.prefetch.addr) : Inv t := by
  refine ⟨?_, ?_, by rw [hpc]; exact h.pcEven, by rw [ht]; exact h.tokenWord, by rw [hf]; exact h.prefetchWord⟩
  · rw [hm]
    exact memWriteWord_wf h.memCanonical _ v
  · rw [hm, hcfg]
    have h4 := memSize_mod_four hc
    rw [wordAddr_toNat] at hp ⊢
    exact memWriteWord_below h.memInside (by omega) v

theorem Inv.agentWriteByte {s : State} (h : Inv s) (a : Word) (b : Byte) : Inv (agentWriteByte s a b) := by
  obtain ⟨-, he⟩ | ⟨ha, he⟩ := agentWriteByte_cases s a b <;> rw [he]
  · exact h
  · exact ⟨memWrite_wf h.memCanonical _ b, memWrite_below h.memInside ha b, h.pcEven, (breakToken_addr s.token _).symm ▸ h.tokenWord, h.prefetchWord⟩

theorem Inv.agentWriteWord {s : State} (h : Inv s) (hc : configOk s.cfg = true) (a v : Word) : Inv (agentWriteWord s a v) := by
  obtain ⟨-, he⟩ | ⟨ha, he⟩ := agentWriteWord_cases s a v <;> rw [he]
  · exact h
  · exact h.of_wordWritten hc ha rfl rfl rfl (breakToken_addr s.token _) rfl

theorem Inv.environmentAct {s : State} (h : Inv s) (hc : configOk s.cfg = true) (act : EnvAction) : Inv (environmentAct s act) := by
  cases act
  case writeByte a b => exact h.agentWriteByte a b
  case writeWord a v => exact h.agentWriteWord hc a v
  all_goals exact h.congr rfl rfl rfl rfl rfl

theorem Inv.monitorAct {s t : State} (h : Inv s) (hc : configOk s.cfg = true) {act : MonitorAction} (ht : monitorAct s act = some t) : Inv t := by
  cases act
  case terminate => cases ht
  case setPc v => cases ht; exact h.writePc v
  case writeByte a b =>
    cases ht
    obtain ⟨-, he⟩ | ⟨-, he⟩ := monitorWriteByte_cases s a b <;> rw [he]
    · exact h
    · exact (h.agentWriteByte a b).congr rfl rfl rfl rfl rfl
  case writeWord a v =>
    cases ht
    obtain ⟨-, he⟩ | ⟨-, he⟩ := monitorWriteWord_cases s a v <;> rw [he]
    · exact h
    · exact (h.agentWriteWord hc a v).congr rfl rfl rfl rfl rfl
  case unitWrite k w =>
    cases ht
    obtain ⟨f, hf⟩ := unitCallWrite_cases s k w
    rw [hf]
    exact h.congr rfl rfl rfl rfl rfl
  all_goals cases ht; exact h.congr rfl rfl rfl rfl rfl

theorem Inv.environmentTurn {s : State} (h : Inv s) (hc : configOk s.cfg = true) : Inv (environmentTurn s) := by
  have hacts : ∀ (acts : List EnvAction) (u : State), Inv u → configOk u.cfg = true → Inv (acts.foldl Machine.environmentAct u) := by
    intro acts
    induction acts with
    | nil => exact fun u hu _ => hu
    | cons act acts ih => exact fun u hu huc => ih _ (hu.environmentAct huc act) (by rwa [environmentAct_cfg])
  obtain ⟨-, he⟩ | ⟨acts, rest, -, he⟩ := environmentTurn_cases s <;> rw [he]
  · exact h
  · exact hacts acts _ (h.congr rfl rfl rfl rfl rfl) hc

theorem Inv.monitorSession {s t : State} (h : Inv s) (hc : configOk s.cfg = true) {acts : List MonitorAction}
    (ht : monitorSession s acts = some t) : Inv t := by
  induction acts generalizing s with
  | nil => cases ht; exact h
  | cons act acts ih =>
    unfold Machine.monitorSession at ht
    split at ht
    next u hu => exact ih (h.monitorAct hc hu) (by rwa [monitorAct_cfg hu]) ht
    · cases ht

theorem Inv.monitorTurn {s t : State} (h : Inv s) (hc : configOk s.cfg = true) (ht : monitorTurn s = some t) : Inv t := by
  obtain ⟨-, rfl⟩ | ⟨-, -, rfl⟩ | ⟨-, session, rest, u, -, hu, rfl⟩ := monitorTurn_cases ht
  · exact h
  · exact h.congr rfl rfl rfl rfl rfl
  · have hu' : Inv u := Inv.monitorSession (s := { s with dbg := { s.dbg with script := rest } }) (h.congr rfl rfl rfl rfl rfl) hc hu
    exact hu'.congr rfl rfl rfl rfl rfl

theorem Inv.busRead {s t : State} {ea v : Word} (h : Inv s) (hb : busRead s ea = some (v, t)) : Inv t := by
  obtain ⟨log, rfl⟩ := busRead_frame hb
  exact h.congr rfl rfl rfl rfl rfl

theorem Inv.busWrite {s t : State} {ea v : Word} (h : Inv s) (hc : configOk s.cfg = true) (hb : busWrite s ea v = some t) : Inv t := by
  obtain ⟨hr, rfl⟩ | ⟨_, _, -, rfl⟩ | ⟨-, rfl⟩ := busWrite_cases hb
  · exact h.of_wordWritten hc ((region_eq_ram_iff _ _).1 hr).2 rfl rfl rfl (breakToken_addr s.token _) rfl
  · exact h.congr rfl rfl rfl (breakToken_addr s.token _) rfl
  · exact h.congr rfl rfl rfl (breakToken_addr s.token _) rfl

/-- The fetch of a halfword moves an even pc by 2 and leaves a word address in the buffer. -/
theorem Inv.fetchHalf {s t : State} {w : Half} (h : Inv s) (hf : fetchHalf s = some (w, t)) : Inv t := by
  obtain ⟨-, -, -, rfl⟩ | ⟨v, u, hb, -, rfl⟩ := fetchHalf_cases hf
  · exact ⟨h.memCanonical, h.memInside, (getLsbD_zero_add_two s.pc).trans h.pcEven, h.tokenWord, h.prefetchWord⟩
  · have hu := h.busRead hb
    exact ⟨hu.memCanonical, hu.memInside, (getLsbD_zero_add_two u.pc).trans hu.pcEven, hu.tokenWord, wordAddr_idem _⟩

theorem Inv.writeSpecial {s t : State} {k : BitVec 4} {w : Word} (h : Inv s) (hw : writeSpecial s k w = some t) : Inv t := by
  unfold Machine.writeSpecial at hw
  split_ifs at hw <;> cases hw <;> exact h.congr rfl rfl rfl rfl rfl

theorem Inv.exec {i : Instr} {s t : State} (h : Inv s) (hc : configOk s.cfg = true) (he : exec i s = .next t) : Inv t := by
  cases exec_effect i s t he
  case jump a => exact h.writePc a
  case link d v a => exact (h.congr rfl rfl rfl rfl rfl : Inv (writeReg s d v)).writePc a
  case exc16 e => exact h.takeException e _
  case exc32 e => exact h.takeException e _
  case ret v hu => exact (h.writePc v).congr rfl rfl rfl rfl rfl
  case read ea d v u f hr hb => exact (h.busRead hb).congr rfl rfl rfl rfl rfl
  case readl ea d v u hr hb =>
    have hu := h.busRead hb
    exact ⟨hu.memCanonical, hu.memInside, hu.pcEven, wordAddr_idem ea, hu.prefetchWord⟩
  case write ea v hs hb => exact h.busWrite hc hb
  case writec ea v u b hs hb => exact (h.busWrite hc hb).congr rfl rfl rfl rfl rfl
  case special r k hi hp hw => exact h.writeSpecial hw
  all_goals exact h.congr rfl rfl rfl rfl rfl

theorem Inv.fetchInstr {s t : State} {i : Instr} (h : Inv s) (hf : fetchInstr s = .instr i t) : Inv t := by
  obtain ⟨-, hc⟩ | ⟨w, s1, h1, -, hc⟩ | ⟨w, s1, -, -, -, hc⟩ | ⟨w, s1, w2, s2, h1, -, h2, hc⟩ := fetchInstr_cases s <;> rw [hc] at hf <;> cases hf
  · exact h.fetchHalf h1
  · exact (h.fetchHalf h1).fetchHalf h2

theorem Inv.fetchFault {s t : State} {a : Word} (h : Inv s) (hf : Machine.fetchInstr s = .fault t a) : Inv t := by
  obtain ⟨-, hc⟩ | ⟨w, s1, -, -, hc⟩ | ⟨w, s1, h1, -, -, hc⟩ | ⟨w, s1, w2, s2, -, -, -, hc⟩ := fetchInstr_cases s <;> rw [hc] at hf <;> cases hf
  · exact h
  · exact h.fetchHalf h1

theorem Inv.engineTurn {s u : State} (h : Inv s) (hc : configOk s.cfg = true) (he : engineTurn s = .next u) : Inv u := by
  obtain ⟨i, -, rfl⟩ | ⟨-, t, a, hf, rfl⟩ | ⟨-, i, t, hf, hx⟩ := engineTurn_cases he
  · exact ⟨h.memCanonical, h.memInside, evenAddr_even _, h.tokenWord, h.prefetchWord⟩
  · exact (h.fetchFault hf).takeException _ _
  · exact (h.fetchInstr hf).exec (by rwa [fetchInstr_cfg hf]) hx

/-- Settles O60: each part of a step keeps the invariant, given the parameters that every step checks. -/
theorem everyStepKeepsTheInvariant : Obligations.EveryStepKeepsTheInvariant := by
  intro s t h hs
  obtain ⟨hc, t', w, hm, he, rfl⟩ := step_cases hs
  have hcm : configOk t'.cfg = true := by rwa [monitorTurn_cfg hm]
  have h1 := (h.monitorTurn hc hm).environmentTurn hcm
  have h2 := h1.engineTurn (by rwa [environmentTurn_cfg]) he
  exact h2.congr rfl rfl rfl rfl rfl

end Sys2Proof.Machine

/-!
PROOFS, arithmetic and logic. Each instruction's result as a number or bit by bit, with its flags (rules R100 to R109, R165 to R195).
-/

namespace Sys2Proof.Machine

/-! ## Adder operations (rules R100 to R103) -/

theorem adder_sum_false (a b : Word) : (adder a b false).sum = a + b := by
  rw [adder_sum]
  exact BitVec.add_zero _

theorem subtractor_sum (a b : Word) (c : Bool) : (subtractor a b c).sum = a - b - BitVec.ofNat 32 (carryNat (!c)) := by
  rw [subtractor, adder_sum, add_not_eq_sub]

/-- An addition put in a register: the sum, and the flags of the addition. -/
theorem finishAdd_adder (s : State) (d : RegNo) (a b : Word) (c : Bool) :
    Computes s (finishAdd s d (adder a b c)) d (a + b + BitVec.ofNat 32 (carryNat c)) (IsAddFlags a b c) :=
  (finishAdd_computes s d _).mono (adder_sum a b c) fun _ hf => hf ▸ adder_flags a b c

theorem finishAdd_adder_false (s : State) (d : RegNo) (a b : Word) :
    Computes s (finishAdd s d (adder a b false)) d (a + b) (IsAddFlags a b false) :=
  (finishAdd_computes s d _).mono (adder_sum_false a b) fun _ hf => hf ▸ adder_flags a b false

/-- A subtraction put in a register: the difference, and the flags of the subtraction. -/
theorem finishAdd_subtractor (s : State) (d : RegNo) (a b : Word) (c : Bool) :
    Computes s (finishAdd s d (subtractor a b c)) d (a - b - BitVec.ofNat 32 (carryNat (!c))) (IsSubFlags a b (!c)) :=
  (finishAdd_computes s d _).mono (subtractor_sum a b c) fun _ hf => hf ▸ subtractor_flags a b c

/-- Settles O8. -/
theorem addAndSubComputeWithFlags : Obligations.AddAndSubComputeWithFlags := fun s d _ _ =>
  ⟨finishAdd_adder_false s d _ _, (finishAdd_subtractor s d _ _ true).mono (BitVec.sub_zero _) fun _ => id⟩

/-- Settles O9. -/
theorem addcAndSubbChainTheCarry : Obligations.AddcAndSubbChainTheCarry := fun s d _ =>
  ⟨finishAdd_adder s d _ _ _, finishAdd_subtractor s d _ _ _⟩

/-- Adding nothing sets the flags of the value itself: no carry, no overflow. -/
theorem isNzFlags_of_add_zero {a : Word} {f : Flags} (h : IsAddFlags a 0 false f) : IsNzFlags a f := by
  obtain ⟨hn, hz, hv, hc, hcb⟩ := h
  have hsum : a + 0 + BitVec.ofNat 32 (carryNat false) = a := by simp [carryNat]
  rw [hsum] at hn hz
  have hlo := BitVec.le_toInt a
  have hhi := BitVec.toInt_lt (x := a)
  refine ⟨hn, hz, ?_, ?_, ?_⟩
  · rw [hv]
    simp [carryNat]
    omega
  · rw [hc]
    simp [carryNat, a.isLt]
  · refine BitVec.eq_of_getLsbD_eq fun k hk => ?_
    rw [hcb k hk]
    simp [carryNat]
    exact Nat.mod_lt _ (by positivity)

/-- Settles O10: all three are additions; MOVECC adds zero. -/
theorem immediateAddsComputeWithFlags : Obligations.ImmediateAddsComputeWithFlags := fun s d x _ _ =>
  ⟨finishAdd_adder_false s d _ _, finishAdd_adder_false s d _ _,
    (finishAdd_adder_false s d (eaShort s x) 0).mono (BitVec.add_zero _) fun _ => isNzFlags_of_add_zero⟩

/-! ## Non-adder operations (rule R104) -/

/-- A result of a non-adder operation and the flags it sets. -/
theorem finishNz_isNz (s : State) (d : RegNo) (r : Word) : Computes s (finishNz s d r) d r (IsNzFlags r) :=
  (finishNz_computes s d r).mono rfl fun _ hf => hf ▸ nzFlags_isNz r

/-- Settles O13. -/
theorem logicalOperationsWorkBitByBit : Obligations.LogicalOperationsWorkBitByBit := by
  intro s d a
  refine ⟨⟨_, finishNz_isNz s d _, fun i _ => BitVec.getLsbD_and⟩, ⟨_, finishNz_isNz s d _, fun i _ => BitVec.getLsbD_or⟩,
    ⟨_, finishNz_isNz s d _, fun i hi => ?_⟩⟩
  rw [BitVec.getLsbD_not, BitVec.getLsbD_xor, decide_eq_true hi]
  generalize (readReg s d).getLsbD i = p
  generalize (readReg s a).getLsbD i = q
  revert p q
  decide

/-! ## Shifts (rules R108, R167 to R170) -/

/-- Settles O11: the shifted value is the product, and `SHLV` is its overflow. -/
theorem leftShiftsReportOverflow : Obligations.LeftShiftsReportOverflow := by
  intro s d a n h1 h16
  refine ⟨?_, ?_⟩
  · obtain ⟨hn, hz, -, hc, hcb⟩ := nzFlags_isNz (readReg s a <<< n)
    rw [← shiftLeft_eq_mul]
    refine (setFlags_computes s d _ _).mono rfl ?_
    rintro f rfl
    exact ⟨hn, hz, shiftOverflow_iff _ n h1 h16, hc, hcb⟩
  · rw [← shiftLeft_eq_mul]
    refine (setFlags_computes s d _ _).mono (adder_sum_false _ _) ?_
    rintro f rfl
    exact ⟨_, adder_flags _ _ false, rfl, rfl, rfl, rfl, by
      rw [← shiftOverflow_iff _ n h1 h16]
      exact Iff.of_eq (Bool.or_eq_true _ _)⟩

/-- Half of a signed 33-bit sum, or less of it, fits a signed word. -/
theorem averageSigned_toInt (a b : Word) (n : Nat) (h : 1 ≤ n) : (averageSigned a b n).toInt = (a.toInt + b.toInt) / 2 ^ n := by
  have hp : (2:Int) ≤ 2 ^ n := by
    calc (2:Int) = 2 ^ 1 := rfl
      _ ≤ 2 ^ n := pow_le_pow_right₀ (by decide) h
  have ha := BitVec.le_toInt a
  have hb := BitVec.le_toInt b
  have ha' := BitVec.toInt_lt (x := a)
  have hb' := BitVec.toInt_lt (x := b)
  rw [averageSigned, BitVec.toInt_ofInt]
  generalize (2:Int) ^ n = P at *
  have hlo : -2 ^ 31 ≤ (a.toInt + b.toInt) / P := (Int.le_ediv_iff_mul_le (by omega)).2 (by omega)
  have hhi : (a.toInt + b.toInt) / P < 2 ^ 31 := (Int.ediv_lt_iff_lt_mul (by omega)).2 (by omega)
  exact Int.bmod_eq_of_le (by omega) (by omega)

/-- Half of an unsigned 33-bit sum, or less of it, fits a word. -/
theorem averageUnsigned_toNat (a b : Word) (n : Nat) (h : 1 ≤ n) : (averageUnsigned a b n).toNat = (a.toNat + b.toNat) / 2 ^ n := by
  have hp : 2 ≤ 2 ^ n := by
    calc 2 = 2 ^ 1 := rfl
      _ ≤ 2 ^ n := Nat.pow_le_pow_right (by decide) h
  have ha := a.isLt
  have hb := b.isLt
  rw [averageUnsigned, BitVec.toNat_ofNat, Nat.mod_eq_of_lt]
  exact (Nat.div_lt_iff_lt_mul (by omega)).2 (by omega)

/-- Settles O12: the results are the exact quotients rounded down. -/
theorem rightShiftsKeepTheCarry : Obligations.RightShiftsKeepTheCarry := by
  intro s d a n h1 _
  refine ⟨⟨_, finishNz_isNz s d _, ?_⟩, ⟨_, finishNz_isNz s d _, ?_⟩⟩
  · rw [averageSigned_toInt _ _ n h1]
    exact ⟨Int.ediv_mul_le _ (by positivity), Int.lt_ediv_add_one_mul_self _ (by positivity)⟩
  · rw [averageUnsigned_toNat _ _ n h1]
    exact ⟨Nat.div_mul_le_self _ _, (Nat.div_lt_iff_lt_mul (by positivity)).1 (Nat.lt_succ_self _)⟩

/-! ## Bytes and halfwords of a word (rules R41, R174 to R177) -/

theorem byteShift_eq (sel : Word) : byteShift sel = 8 * (sel.toNat % 4) := by
  rw [byteShift, BitVec.extractLsb'_toNat, Nat.shiftRight_zero]

theorem halfShift_eq (sel : Word) : halfShift sel = 16 * (sel.toNat / 2 % 2) := by
  rw [halfShift, BitVec.extractLsb'_toNat, Nat.shiftRight_eq_div_pow]

/-- Settles O14: the selected bits are the quotient by the selected power, reduced. -/
theorem extractsReadTheSelectedPart : Obligations.ExtractsReadTheSelectedPart := by
  intro s d a b
  refine ⟨⟨_, finishNz_isNz s d _, ?_⟩, ⟨_, finishNz_isNz s d _, ?_⟩⟩
  · rw [extractByte, BitVec.zeroExtend_eq_setWidth, BitVec.toNat_setWidth, BitVec.extractLsb'_toNat, Nat.shiftRight_eq_div_pow,
      byteShift_eq, show (256:Nat) = 2 ^ 8 from rfl, ← Nat.pow_mul]
    omega
  · rw [extractHalf, BitVec.zeroExtend_eq_setWidth, BitVec.toNat_setWidth, BitVec.extractLsb'_toNat, Nat.shiftRight_eq_div_pow,
      halfShift_eq, show (65536:Nat) = 2 ^ 16 from rfl, ← Nat.pow_mul]
    omega

theorem lowMask_getLsbD {n : Nat} (hn : n ≤ 32) (i : Nat) : (lowMask n).getLsbD i = decide (i < n) := by
  rw [lowMask, BitVec.getLsbD_ofNat, Nat.testBit_two_pow_sub_one]
  by_cases h : i < n
  · simp [h]; omega
  · simp [h]

/-- A field of `w` bits at position `sh` replaced by the low bits of `v`, bit by bit. -/
theorem stuff_getLsbD (old v : Word) {w sh i : Nat} (hw : w ≤ 32) (hi : i < 32) :
    ((old &&& ~~~(lowMask w <<< sh)) ||| ((v &&& lowMask w) <<< sh)).getLsbD i =
      if sh ≤ i ∧ i < sh + w then v.getLsbD (i - sh) else old.getLsbD i := by
  simp only [BitVec.getLsbD_or, BitVec.getLsbD_and, BitVec.getLsbD_not, BitVec.getLsbD_shiftLeft, lowMask_getLsbD hw, hi,
    decide_true, Bool.true_and]
  by_cases h1 : i < sh
  · simp [h1, show ¬ sh ≤ i by omega]
  · by_cases h2 : i - sh < w
    · simp [h1, h2, show sh ≤ i ∧ i < sh + w by omega]
    · simp [h1, h2, show ¬ (sh ≤ i ∧ i < sh + w) by omega]

/-- Settles O15: the field is the byte or halfword that the selector's bits number. -/
theorem stuffsReplaceTheSelectedPart : Obligations.StuffsReplaceTheSelectedPart := by
  intro s d a b
  refine ⟨⟨_, finishReg_computes s d _, fun i hi => ?_⟩, ⟨_, finishReg_computes s d _, fun i hi => ?_⟩⟩
  · have hbit := stuff_getLsbD (readReg s d) (readReg s a) (w := 8) (sh := byteShift (readReg s b)) (by decide) hi
    refine hbit.trans ?_
    rw [byteShift_eq]
    generalize (readReg s b).toNat % 4 = k
    by_cases h : i / 8 = k
    · rw [if_pos (by omega), if_pos h, show i - 8 * k = i % 8 by omega]
    · rw [if_neg (by omega), if_neg h]
  · have hbit := stuff_getLsbD (readReg s d) (readReg s a) (w := 16) (sh := halfShift (readReg s b)) (by decide) hi
    refine hbit.trans ?_
    rw [halfShift_eq]
    generalize (readReg s b).toNat / 2 % 2 = k
    by_cases h : i / 16 = k
    · rw [if_pos (by omega), if_pos h, show i - 16 * k = i % 16 by omega]
    · rw [if_neg (by omega), if_neg h]

/-- The balanced remainder by an even modulus scales with value and modulus. -/
theorem bmod_mul_mul (x : Int) {m k : Nat} (hm : 0 < m) (he : m % 2 = 0) (hk : 0 < k) :
    Int.bmod (x * k) (m * k) = Int.bmod x m * k := by
  have hx : x * k = Int.bmod x m * k + ((m * k : Nat) : Int) * Int.bdiv x m := by
    rw [Int.bmod_eq_self_sub_mul_bdiv]
    push_cast
    ring
  have hlo := Int.le_bmod (x := x) hm
  have hhi := Int.bmod_lt (x := x) hm
  rw [hx, Int.add_mul_bmod_self_left]
  apply Int.bmod_eq_of_le_mul_two <;> push_cast
  · have : -(m : Int) ≤ Int.bmod x m * 2 := by omega
    nlinarith
  · have : Int.bmod x m * 2 < (m : Int) := by omega
    nlinarith

/-- Sign extension from `n` bits is the balanced remainder (rule R182). -/
theorem signExtendFrom_toInt (v : Word) {n : Nat} (h1 : 1 ≤ n) (h16 : n ≤ 16) : (signExtendFrom v n).toInt = Int.bmod v.toNat (2 ^ n) := by
  have h32 : (2:Nat) ^ 32 = 2 ^ n * 2 ^ (32 - n) := by rw [← pow_add]; congr 1; omega
  rw [signExtendFrom, BitVec.toInt_sshiftRight, BitVec.toInt_shiftLeft, Nat.shiftLeft_eq, h32]
  have heven : 2 ^ n % 2 = 0 := Nat.mod_eq_zero_of_dvd (dvd_pow_self 2 (by omega))
  rw [Nat.cast_mul, bmod_mul_mul _ (by positivity) heven (by positivity), Int.shiftRight_eq_div_pow]
  exact Int.mul_ediv_cancel _ (by positivity)

/-- Settles O16. -/
theorem truncAndSxtKeepTheLowBits : Obligations.TruncAndSxtKeepTheLowBits := fun s d n h1 h16 =>
  ⟨⟨_, finishNz_isNz s d _, and_lowMask_toNat _ n h16⟩, ⟨_, finishNz_isNz s d _, signExtendFrom_toInt _ h1 h16⟩⟩

/-! ## Constants and addresses (rules R120 to R123, R129, R140 to R142) -/

/-- A byte shifted in below a word. -/
theorem oris_value (w : Word) (c : BitVec 8) : (w <<< 8) ||| c.zeroExtend 32 = BitVec.ofNat 32 (w.toNat * 256 + c.toNat) := by
  apply BitVec.eq_of_toNat_eq
  have hc := c.isLt
  rw [BitVec.zeroExtend_eq_setWidth, BitVec.toNat_or, BitVec.toNat_shiftLeft, BitVec.toNat_setWidth, BitVec.toNat_ofNat,
    Nat.mod_eq_of_lt (a := c.toNat) (by omega), Nat.shiftLeft_eq]
  have h8 : w.toNat * 2 ^ 8 % 2 ^ 32 = (w.toNat % 2 ^ 24) <<< 8 := by rw [Nat.shiftLeft_eq]; omega
  rw [h8, ← Nat.shiftLeft_add_eq_or_of_lt hc, Nat.shiftLeft_eq]
  omega

/-- Settles O20. -/
theorem constantsAndAddressesReachTheirRegister : Obligations.ConstantsAndAddressesReachTheirRegister := fun s d _ _ c _ =>
  ⟨finishReg_computes s d _, finishReg_computes s d _, (finishReg_computes s d _).mono (oris_value _ c) fun _ => id, rfl, rfl,
    finishReg_computes s d _, finishReg_computes s d _⟩

/-! ## Branches (rules R14, R145 to R164, R183) -/

theorem branchOffset_eq (d : BitVec 8) : branchOffset d = BitVec.ofInt 32 (2 * d.toInt) := by
  have hext : d.signExtend 32 = BitVec.ofInt 32 d.toInt := rfl
  rw [branchOffset, shiftLeft_eq_mul, BitVec.ofNat_mul, BitVec.ofNat_toNat, BitVec.setWidth_eq, hext, BitVec.ofInt_mul, BitVec.mul_comm]
  rfl

/-- A branch goes to its target exactly where its predicate holds. -/
theorem branchOn_branches (c : BitVec 4) (d : BitVec 8) (s : State) : Branches s (branchOn c d s) d (predicate c s.flags) := by
  rw [Branches, ← branchOffset_eq]
  refine ⟨fun h => ?_, fun h => ?_⟩
  · rw [branchOn, if_pos h]
    exact writePc_jumps s _
  · rw [branchOn, if_neg (by rw [h]; exact Bool.false_ne_true)]

/-- Settles O33: each branch is `branchOn` of its condition number; the predicates of BGE and BGT are written another way. -/
theorem branchesFollowTheirPredicates : Obligations.BranchesFollowTheirPredicates := by
  intro s d
  have hge : (s.flags.n == s.flags.v) = predicate 0xD s.flags := by
    show _ = !(s.flags.n ^^ s.flags.v)
    cases s.flags.n <;> cases s.flags.v <;> rfl
  have hgt : ((s.flags.n == s.flags.v) && !s.flags.z) = predicate 0xE s.flags := by
    show _ = !((s.flags.n ^^ s.flags.v) || s.flags.z)
    cases s.flags.n <;> cases s.flags.v <;> cases s.flags.z <;> rfl
  rw [hgt, hge]
  exact ⟨branchOn_branches 0x0 d s, branchOn_branches 0x1 d s, branchOn_branches 0x2 d s, branchOn_branches 0x3 d s,
    branchOn_branches 0x4 d s, branchOn_branches 0x5 d s, branchOn_branches 0x6 d s, branchOn_branches 0x7 d s,
    branchOn_branches 0x8 d s, branchOn_branches 0x9 d s, branchOn_branches 0xA d s, branchOn_branches 0xB d s,
    branchOn_branches 0xC d s, branchOn_branches 0xD d s, branchOn_branches 0xE d s, branchOn_branches 0xF d s⟩

/-- Settles O36. -/
theorem btruncIndexesTheInstructionsThatFollow : Obligations.BtruncIndexesTheInstructionsThatFollow := by
  intro s d n _ h16
  have htarget : (readReg s d &&& lowMask n) <<< 1 = BitVec.ofNat 32 (2 * ((readReg s d).toNat % 2 ^ n)) := by
    rw [shiftLeft_eq_mul, and_lowMask_toNat _ n h16, Nat.mul_comm]
    rfl
  rw [← htarget]
  exact writePc_jumps s _

/-- Settles O35: the link is written first, and writing the pc touches nothing but the pc and the buffer. -/
theorem jumpsLinkAndTransfer : Obligations.JumpsLinkAndTransfer := by
  intro s d x disp
  have hjump : ∀ target, ∃ t, jumpAndLink s d target = .next t ∧ RegWritten s t d s.pc ∧ WentTo t target ∧ t.flags = s.flags ∧
      t.fpu = s.fpu ∧ SystemKept s t ∧ BusIdle s t := fun target =>
    ⟨_, rfl, regWritten_writeReg s d s.pc, ⟨rfl, rfl⟩, rfl, rfl,
      ⟨rfl, rfl, rfl, rfl, rfl, rfl, rfl, rfl, rfl, rfl, rfl, rfl, rfl, rfl⟩, ⟨fun _ => rfl, rfl, rfl, rfl, rfl⟩⟩
  exact ⟨hjump _, hjump _⟩

/-! ## Comparing (rules R102, R146) -/

/-- The sign of a difference taken modulo 2^32 is wrong exactly where the difference leaves the signed range. -/
theorem bmod_neg_xor_overflow {x y : Int} (hx : -2 ^ 31 ≤ x ∧ x < 2 ^ 31) (hy : -2 ^ 31 ≤ y ∧ y < 2 ^ 31) :
    (decide (Int.bmod (x - y) (2 ^ 32) < 0) ^^ decide (¬ (-2 ^ 31 ≤ x - y ∧ x - y < 2 ^ 31))) = decide (x < y) := by
  obtain ⟨hx1, hx2⟩ := hx
  obtain ⟨hy1, hy2⟩ := hy
  rw [Int.bmod_def, Bool.eq_iff_iff]
  simp only [Bool.xor_iff_ne, ne_eq, decide_eq_true_eq, decide_eq_decide]
  split <;> omega

/-- Sign and overflow of a difference together order the operands as signed numbers. -/
theorem isSubFlags_lt {a b : Word} {f : Flags} (h : IsSubFlags a b false f) : flagLt f = decide (a.toInt < b.toInt) := by
  obtain ⟨hn, -, hv, -, -⟩ := h
  have hsub : a - b - BitVec.ofNat 32 (carryNat false) = a - b := BitVec.sub_zero _
  have hdiff : a.toInt - b.toInt - (carryNat false : Nat) = a.toInt - b.toInt := Int.sub_zero _
  rw [hsub, BitVec.msb_eq_toInt, BitVec.toInt_sub] at hn
  rw [hdiff] at hv
  rw [flagLt, hn, hv]
  exact bmod_neg_xor_overflow ⟨BitVec.le_toInt a, BitVec.toInt_lt⟩ ⟨BitVec.le_toInt b, BitVec.toInt_lt⟩

theorem isSubFlags_eq {a b : Word} {f : Flags} (h : IsSubFlags a b false f) : f.z = decide (a = b) := by
  obtain ⟨-, hz, -, -, -⟩ := h
  have hsub : a - b - BitVec.ofNat 32 (carryNat false) = a - b := BitVec.sub_zero _
  rw [hz, hsub, decide_eq_decide]
  exact sub_eq_zero

theorem isSubFlags_carry {a b : Word} {f : Flags} (h : IsSubFlags a b false f) : f.c = decide (b.toNat ≤ a.toNat) := by
  obtain ⟨-, -, -, hc, -⟩ := h
  exact hc

/-- Settles O34: `N xor V`, `Z` and `C` after a compare are the orders and the equality, and every predicate is made of them. -/
theorem predicatesOrderTheComparedValues : Obligations.PredicatesOrderTheComparedValues := by
  intro s t a b h
  have hf : IsSubFlags (readReg s a) (readReg s b) false t.flags := by
    cases h
    exact subtractor_flags _ _ true
  have hlt := isSubFlags_lt hf
  have hz := isSubFlags_eq hf
  have hc := isSubFlags_carry hf
  have heqInt : readReg s a = readReg s b ↔ (readReg s a).toInt = (readReg s b).toInt := BitVec.toInt_inj.symm
  have heqNat : readReg s a = readReg s b ↔ (readReg s a).toNat = (readReg s b).toNat := BitVec.toNat_inj.symm
  refine ⟨hz, hc, hlt, ?_, ?_, ?_, ?_, ?_, ?_, ?_⟩
  · show (flagLt t.flags || t.flags.z) = _
    rw [hlt, hz, Bool.eq_iff_iff]
    simp [heqInt]
    omega
  · show (!t.flags.c || t.flags.z) = _
    rw [hc, hz, Bool.eq_iff_iff]
    simp [heqNat]
    omega
  · show (!t.flags.z) = _
    rw [hz, decide_not]
  · show (!t.flags.c) = _
    rw [hc, Bool.eq_iff_iff]
    simp
  · show (!flagLt t.flags) = _
    rw [hlt, Bool.eq_iff_iff]
    simp
  · show (!(flagLt t.flags || t.flags.z)) = _
    rw [hlt, hz, Bool.eq_iff_iff]
    simp [heqInt]
    omega
  · show (t.flags.c && !t.flags.z) = _
    rw [hc, hz, Bool.eq_iff_iff]
    simp [heqNat]
    omega

end Sys2Proof.Machine

/-!
PROOFS, decimal adjustment. What ADJUST adds (rules R109, R188 to R193), and that with ADD it adds packed-decimal and excess-3 numbers (rules R190,
R191), digit by digit.
-/

namespace Sys2Proof.Machine

/-! ## The constants of ADJUST (rule R109) -/

/-- The sum over the eight digits as one integer: `c` times `16^k` where digit `k` carried, `p` times `16^k` where it did not. -/
theorem digitSum_eq (cb : BitVec 8) (c p : Int) : digitSum cb (BitVec.ofInt 32 c) (BitVec.ofInt 32 p) =
    BitVec.ofInt 32 (∑ k ∈ Finset.range 8, (if cb.getLsbD k then c else p) * 16 ^ k) := by
  have hpow : ∀ k : Nat, BitVec.ofNat 32 (16 ^ k) = BitVec.ofInt 32 (16 ^ k) := fun k => by
    rw [← BitVec.ofInt_natCast, Nat.cast_pow, Nat.cast_ofNat]
  have hif : ∀ b : Bool, (if b = true then BitVec.ofInt 32 c else BitVec.ofInt 32 p) = BitVec.ofInt 32 (if b = true then c else p) :=
    fun b => (apply_ite (BitVec.ofInt 32) _ _ _).symm
  simp only [digitSum, List.foldl_cons, List.foldl_nil, Finset.sum_range_succ, Finset.sum_range_zero, hpow, hif, ← BitVec.ofInt_mul]
  rw [show (0 : Word) = BitVec.ofInt 32 0 from rfl]
  simp only [← BitVec.ofInt_add]

/-- BCD takes 6 from every digit that did not carry. -/
theorem bcdConstant_eq (cb : BitVec 8) :
    bcdConstant cb = BitVec.ofInt 32 (∑ k ∈ Finset.range 8, (if cb.getLsbD k then 0 else -6) * 16 ^ k) := by
  have hneg : ∀ k : Nat, (if cb.getLsbD k then (0 : Int) else -6) * 16 ^ k = -((if cb.getLsbD k then 0 else 6) * 16 ^ k) := fun k => by
    split <;> ring
  rw [bcdConstant, show (0 : Word) = BitVec.ofInt 32 0 from rfl, show (6 : Word) = BitVec.ofInt 32 6 from rfl, digitSum_eq, ← BitVec.ofInt_neg]
  simp only [hneg, Finset.sum_neg_distrib]

/-- Excess-3 adds 3 to every digit that carried and takes 3 from every other. -/
theorem ex3Constant_eq (cb : BitVec 8) :
    ex3Constant cb = BitVec.ofInt 32 (∑ k ∈ Finset.range 8, (if cb.getLsbD k then 3 else -3) * 16 ^ k) := by
  rw [ex3Constant, show (3 : Word) = BitVec.ofInt 32 3 from rfl, ← BitVec.ofInt_neg, digitSum_eq]

/-- Settles O17: each selector's constant, and an addition that keeps the flags. -/
theorem plusAndAdjustAddWithoutFlags : Obligations.PlusAndAdjustAddWithoutFlags := by
  intro s d a
  have hadjust : ∀ (sel : BitVec 4) (v : Word), readReg s d + adjustConstant sel s.flags = v →
      Computes s (exec (.adjust d sel) s) d v (fun f => f = s.flags) := fun sel v hv =>
    (finishReg_computes s d _).mono hv fun _ => id
  refine ⟨finishReg_computes s d _, fun j hj => hadjust _ _ ?_, fun sel hsel => hadjust _ _ ?_, hadjust _ _ rfl, hadjust _ _ ?_, hadjust _ _ ?_⟩
  · interval_cases j <;> rfl
  · rcases hsel with rfl | rfl | rfl | rfl | rfl <;> exact BitVec.add_zero _
  · have hsum : ((∑ k ∈ Finset.range 8, if s.flags.cb.getLsbD k then 0 else 6 * 16 ^ k : Nat) : Int) =
        -∑ k ∈ Finset.range 8, (if s.flags.cb.getLsbD k then 0 else -6) * 16 ^ k := by
      rw [← Finset.sum_neg_distrib]
      push_cast
      exact Finset.sum_congr rfl fun k _ => by split <;> ring
    show _ + bcdConstant s.flags.cb = _
    rw [bcdConstant_eq, ← BitVec.ofInt_natCast, hsum, BitVec.ofInt_neg, BitVec.sub_eq_add_neg, BitVec.neg_neg]
  · show _ + ex3Constant s.flags.cb = _
    rw [ex3Constant_eq]
    congr 2
    exact Finset.sum_congr rfl fun k _ => by split <;> ring

/-! ## Digits and carries -/

/-- The carry out of the low `k` digits of an addition. -/
def digitCarry (a b : Word) (k : Nat) : Nat := (a.toNat % 16 ^ k + b.toNat % 16 ^ k) / 16 ^ k

theorem digitCarry_zero (a b : Word) : digitCarry a b 0 = 0 := by
  simp [digitCarry, Nat.mod_one]

theorem digitCarry_le_one (a b : Word) (k : Nat) : digitCarry a b k ≤ 1 := by
  have hp : 0 < 16 ^ k := by positivity
  have ha := Nat.mod_lt a.toNat hp
  have hb := Nat.mod_lt b.toNat hp
  exact Nat.lt_succ_iff.1 ((Nat.div_lt_iff_lt_mul hp).2 (by omega))

theorem mod_succ_digit (w : Word) (k : Nat) : w.toNat % 16 ^ (k + 1) = w.toNat % 16 ^ k + 16 ^ k * digit w k := by
  rw [pow_succ, Nat.mod_mul, digit]

/-- The carry into the next digit is that of the two digits and the carry into them. -/
theorem digitCarry_succ (a b : Word) (k : Nat) : digitCarry a b (k + 1) = (digit a k + digit b k + digitCarry a b k) / 16 := by
  have hp : 0 < 16 ^ k := by positivity
  have hsplit : a.toNat % 16 ^ (k + 1) + b.toNat % 16 ^ (k + 1) =
      (a.toNat % 16 ^ k + b.toNat % 16 ^ k) + 16 ^ k * (digit a k + digit b k) := by
    rw [mod_succ_digit, mod_succ_digit]
    ring
  rw [digitCarry, hsplit, pow_succ, ← Nat.div_div_eq_div_mul, Nat.add_mul_div_left _ _ hp, Nat.add_comm, digitCarry]

/-- A digit of a sum. -/
theorem digit_add (a b : Word) {k : Nat} (hk : k < 8) : digit (a + b) k = (digit a k + digit b k + digitCarry a b k) % 16 := by
  have hp : 0 < 16 ^ k := by positivity
  have h32 : (2:Nat) ^ 32 = 16 ^ k * 16 * 16 ^ (7 - k) := by
    rw [← pow_succ, ← pow_add, show k + 1 + (7 - k) = 8 by omega]
    rfl
  have hmod : (a + b).toNat / 16 ^ k % 16 = (a.toNat + b.toNat) / 16 ^ k % 16 := by
    rw [BitVec.toNat_add, h32, Nat.mul_assoc, Nat.mod_mul_right_div_self, Nat.mod_mul_right_mod]
  have hsum : a.toNat + b.toNat = (a.toNat % 16 ^ k + b.toNat % 16 ^ k) + 16 ^ k * (a.toNat / 16 ^ k + b.toNat / 16 ^ k) := by
    have h1 := Nat.mod_add_div a.toNat (16 ^ k)
    have h2 := Nat.mod_add_div b.toNat (16 ^ k)
    rw [Nat.mul_add]
    omega
  rw [digit, hmod, hsum, Nat.add_mul_div_left _ _ hp, digitCarry, digit, digit]
  omega

/-- The capture of an addition holds the carry out of each digit (rule R100). -/
theorem isAddFlags_digitCarry {a b : Word} {f : Flags} (h : IsAddFlags a b false f) {k : Nat} (hk : k < 8) :
    digitCarry a b (k + 1) = if f.cb.getLsbD k then 1 else 0 := by
  obtain ⟨-, -, -, -, hcb⟩ := h
  have hp : 0 < 16 ^ (k + 1) := by positivity
  have hle := digitCarry_le_one a b (k + 1)
  rw [hcb k hk]
  simp only [carryNat, Bool.false_eq_true, if_false, Nat.add_zero, decide_eq_true_eq]
  split
  next hc => exact Nat.le_antisymm hle ((Nat.le_div_iff_mul_le hp).2 (by omega))
  next hc => exact Nat.div_eq_of_lt (by omega)

theorem isAddFlags_c {a b : Word} {f : Flags} (h : IsAddFlags a b false f) : digitCarry a b 8 = if f.c then 1 else 0 := by
  obtain ⟨-, -, -, hc, -⟩ := h
  have ha := a.isLt
  have hb := b.isLt
  rw [hc, digitCarry, Nat.mod_eq_of_lt (a := a.toNat) (by omega), Nat.mod_eq_of_lt (a := b.toNat) (by omega)]
  simp only [carryNat, Bool.false_eq_true, if_false, Nat.add_zero, decide_eq_true_eq]
  split <;> omega

/-- A word is the sum of its digits. -/
theorem toNat_eq_sum_digits (w : Word) : w.toNat = ∑ k ∈ Finset.range 8, digit w k * 16 ^ k := by
  have hsum : ∀ n, w.toNat % 16 ^ n = ∑ k ∈ Finset.range n, digit w k * 16 ^ k := by
    intro n
    induction n with
    | zero => simp [Nat.mod_one]
    | succ n ih => rw [mod_succ_digit, Finset.sum_range_succ, ← ih, Nat.mul_comm]
  have hw := w.isLt
  rw [← hsum, Nat.mod_eq_of_lt (by omega)]

/-- The digits of a word spelled out of digits. -/
theorem digit_ofNat_sum {z : Nat → Nat} (hz : ∀ k < 8, z k < 16) {k : Nat} (hk : k < 8) :
    digit (BitVec.ofNat 32 (∑ j ∈ Finset.range 8, z j * 16 ^ j)) k = z k := by
  have h0 := hz 0 (by omega)
  have h1 := hz 1 (by omega)
  have h2 := hz 2 (by omega)
  have h3 := hz 3 (by omega)
  have h4 := hz 4 (by omega)
  have h5 := hz 5 (by omega)
  have h6 := hz 6 (by omega)
  have h7 := hz 7 (by omega)
  rw [digit, BitVec.toNat_ofNat]
  simp only [Finset.sum_range_succ, Finset.sum_range_zero]
  interval_cases k <;> norm_num <;> omega

/-! ## Decimal addition (rules R190, R191) -/

/-- A sum of words adjusted digit by digit, with no digit leaving its place: the digits of the result. -/
theorem digit_adjusted {a b : Word} {adj : Nat → Int} {z : Nat → Nat} (hz : ∀ k < 8, z k < 16)
    (hadj : ∀ k < 8, (z k : Int) = digit (a + b) k + adj k) {k : Nat} (hk : k < 8) :
    digit (a + b + BitVec.ofInt 32 (∑ j ∈ Finset.range 8, adj j * 16 ^ j)) k = z k := by
  have hword : a + b + BitVec.ofInt 32 (∑ j ∈ Finset.range 8, adj j * 16 ^ j) = BitVec.ofNat 32 (∑ j ∈ Finset.range 8, z j * 16 ^ j) := by
    have hab : a + b = BitVec.ofInt 32 (∑ j ∈ Finset.range 8, (digit (a + b) j : Int) * 16 ^ j) := by
      have hnat : a + b = BitVec.ofNat 32 (∑ j ∈ Finset.range 8, digit (a + b) j * 16 ^ j) := by
        rw [← toNat_eq_sum_digits, BitVec.ofNat_toNat, BitVec.setWidth_eq]
      refine hnat.trans ?_
      rw [← BitVec.ofInt_natCast]
      push_cast
      rfl
    conv_lhs => rw [hab]
    rw [← BitVec.ofInt_add, ← BitVec.ofInt_natCast, ← Finset.sum_add_distrib]
    push_cast
    congr 1
    exact Finset.sum_congr rfl fun j hj => by rw [hadj j (Finset.mem_range.1 hj), add_mul]
  rw [hword, digit_ofNat_sum hz hk]

/-- Digits that add like decimal digits with carries spell the decimal sum. -/
theorem decimalValue_add {bias : Nat} {z c : Nat → Nat} {u v w : Word} (hu : ∀ k < 8, digit u k = z k)
    (hc : c 0 = 0) (h : ∀ k < 8, (z k - bias) + 10 * c (k + 1) = (digit v k - bias) + (digit w k - bias) + c k) :
    decimalValue bias u + 10 ^ 8 * c 8 = decimalValue bias v + decimalValue bias w := by
  have h0 := h 0 (by omega)
  have h1 := h 1 (by omega)
  have h2 := h 2 (by omega)
  have h3 := h 3 (by omega)
  have h4 := h 4 (by omega)
  have h5 := h 5 (by omega)
  have h6 := h 6 (by omega)
  have h7 := h 7 (by omega)
  simp only [Nat.reduceAdd] at h0 h1 h2 h3 h4 h5 h6 h7
  simp only [decimalValue, hu 0 (by omega), hu 1 (by omega), hu 2 (by omega), hu 3 (by omega), hu 4 (by omega), hu 5 (by omega),
    hu 6 (by omega), hu 7 (by omega)]
  omega

/-- Digit `k` of the decimal sum of `v` and `w`, by the carries of the addition of `a` and `b`, with the bias added back. -/
def decimalSumDigit (bias : Nat) (a b v w : Word) (k : Nat) : Nat :=
  bias + ((digit v k - bias) + (digit w k - bias) + digitCarry a b k - 10 * digitCarry a b (k + 1))

/-- Decimal addition with the bias of the digit form: where the digits of the addends exceed those of `v` and `w` by 6 together, an adjustment by the bias
in every digit that carried, and by 6 less in every other, leaves the sum of `v` and `w`. -/
theorem adjusted_sum_isDecimal {bias : Nat} {a b v w u : Word} {f : Flags} (hb : bias ≤ 6) (hf : IsAddFlags a b false f)
    (hv : IsDecimal bias v) (hw : IsDecimal bias w)
    (hdigits : ∀ k < 8, digit a k + digit b k = (digit v k - bias) + (digit w k - bias) + 6)
    (hu : u = a + b + BitVec.ofInt 32 (∑ k ∈ Finset.range 8, (if f.cb.getLsbD k then (bias : Int) else bias - 6) * 16 ^ k)) :
    IsDecimal bias u ∧ decimalValue bias u + (if f.c then 10 ^ 8 else 0) = decimalValue bias v + decimalValue bias w := by
  have hcarry : ∀ k < 8, digitCarry a b (k + 1) = ((digit v k - bias) + (digit w k - bias) + 6 + digitCarry a b k) / 16 := fun k hk => by
    rw [digitCarry_succ, hdigits k hk]
  have hrange : ∀ k < 8, bias ≤ decimalSumDigit bias a b v w k ∧ decimalSumDigit bias a b v w k < bias + 10 := fun k hk => by
    have hnext := hcarry k hk
    have hone := digitCarry_le_one a b k
    obtain ⟨-, hvk⟩ := hv k hk
    obtain ⟨-, hwk⟩ := hw k hk
    unfold decimalSumDigit
    omega
  have hadj : ∀ k < 8, (decimalSumDigit bias a b v w k : Int) = digit (a + b) k + if f.cb.getLsbD k then (bias : Int) else bias - 6 :=
    fun k hk => by
      have hnext := hcarry k hk
      have hone := digitCarry_le_one a b k
      have hflag := isAddFlags_digitCarry hf hk
      rw [digit_add a b hk, hdigits k hk, decimalSumDigit]
      split at hflag
      next hcb => rw [if_pos hcb]; omega
      next hcb => rw [if_neg hcb]; omega
  have hdigit : ∀ k < 8, digit u k = decimalSumDigit bias a b v w k := fun k hk => by
    rw [hu]
    exact digit_adjusted (fun j hj => by have := hrange j hj; omega) hadj hk
  have hsum : decimalValue bias u + 10 ^ 8 * digitCarry a b 8 = decimalValue bias v + decimalValue bias w := by
    refine decimalValue_add hdigit (digitCarry_zero a b) fun k hk => ?_
    have hnext := hcarry k hk
    have hone := digitCarry_le_one a b k
    unfold decimalSumDigit
    omega
  refine ⟨fun k hk => by rw [hdigit k hk]; exact hrange k hk, ?_⟩
  rw [← hsum, isAddFlags_c hf]
  split <;> rfl

/-- ADD then ADJUST: the register and the flags after both. -/
theorem add_then_adjust (s : State) {d : RegNo} (a b : RegNo) (sel : BitVec 4) (hd : d ≠ 0) :
    ∃ t u, exec (.add d a b) s = .next t ∧ exec (.adjust d sel) t = .next u ∧
      readReg u d = readReg s a + readReg s b + adjustConstant sel u.flags ∧ IsAddFlags (readReg s a) (readReg s b) false u.flags := by
  obtain ⟨t, ht, hreg, hflags, -⟩ := finishAdd_adder_false s d (readReg s a) (readReg s b)
  refine ⟨t, _, ht, rfl, ?_, hflags⟩
  have hsum := hreg d
  rw [if_neg hd, if_pos rfl] at hsum
  rw [readReg_writeReg, if_neg hd, if_pos rfl, hsum]
  rfl

/-- Adding 6 to every decimal digit carries nowhere. -/
theorem digit_add_sixes {p : Word} (hp : IsDecimal 0 p) {k : Nat} (hk : k < 8) : digit (p + 0x66666666) k = digit p k + 6 := by
  have hsix : ∀ j < 8, digit 0x66666666 j = 6 := by decide
  have hcarry : ∀ j ≤ 8, digitCarry p 0x66666666 j = 0 := by
    intro j
    induction j with
    | zero => exact fun _ => digitCarry_zero _ _
    | succ j ih =>
      intro hj
      obtain ⟨-, h⟩ := hp j (by omega)
      rw [digitCarry_succ, ih (by omega), hsix j (by omega)]
      omega
  obtain ⟨-, h⟩ := hp k hk
  rw [digit_add _ _ hk, hcarry k (by omega), hsix k hk]
  omega

/-- Settles O18: the sixes make decimal carries of the digit carries, and BCD takes back those that were not used up. -/
theorem bcdAdditionIsDecimal : Obligations.BcdAdditionIsDecimal := by
  intro s d a b p q hd ha hb hp hq
  obtain ⟨t, u, ht, hu, hreg, hflags⟩ := add_then_adjust s a b 2 hd
  rw [ha, hb] at hreg hflags
  refine ⟨t, u, ht, hu, adjusted_sum_isDecimal (by decide) hflags hp hq (fun k hk => ?_) ?_⟩
  · rw [digit_add_sixes hp hk]
    omega
  · rw [hreg]
    exact congrArg _ (bcdConstant_eq u.flags.cb)

/-- Settles O19: the two biases are the sixes of rule R190, and EX3 restores one of them. -/
theorem excessThreeAdditionIsDecimal : Obligations.ExcessThreeAdditionIsDecimal := by
  intro s d a b hd ha hb
  obtain ⟨t, u, ht, hu, hreg, hflags⟩ := add_then_adjust s a b 3 hd
  refine ⟨t, u, ht, hu, adjusted_sum_isDecimal (by decide) hflags ha hb (fun k hk => ?_) ?_⟩
  · have h1 := ha k hk
    have h2 := hb k hk
    omega
  · rw [hreg]
    exact congrArg _ (ex3Constant_eq u.flags.cb)

end Sys2Proof.Machine

/-!
PROOFS, system. Reset (rules R36, R280), the special registers and the privilege checks (rules R196 to R203, R262), the synchronous exceptions and the
return from them (rules R236 to R240, R258), and the coprocessor's control register and slot check (rules R204 to R211).
-/

namespace Sys2Proof.Machine

/-! ## Reset -/

/-- Settles O1. -/
theorem resetHoldsTheStatedValues : Obligations.ResetHoldsTheStatedValues :=
  ⟨by decide, by decide, rfl, rfl, rfl, rfl, rfl, rfl, by decide, rfl, rfl, rfl, rfl, rfl, fun _ => rfl⟩

/-- Settles O2. -/
theorem resetMeetsTheInvariant : Obligations.ResetMeetsTheInvariant :=
  ⟨⟨rfl, rfl, rfl, rfl, rfl⟩, by decide⟩

/-! ## Reserved bits (decision D35) -/

/-- A PSW written as data reads back without its reserved bits: each bit read is the bit written, or a reserved 0 (rules R19, R199). -/
theorem pswValue_writePsw (s : State) (w : Word) : pswValue (writePsw s w) = w &&& 0xFF00FF0F := by
  have hmask : ∀ i < 32, (0xFF00FF0F : Word).getLsbD i = (decide (i < 4) || decide (8 ≤ i ∧ i < 16) || decide (24 ≤ i)) := by decide
  refine BitVec.eq_of_getLsbD_eq fun i hi => ?_
  rw [BitVec.getLsbD_and, hmask i hi, pswValue_eq_append]
  simp only [pswLow, writePsw, BitVec.getLsbD_append, BitVec.getLsbD_ofBool, BitVec.getLsbD_extractLsb']
  interval_cases i <;> simp

/-- COSTAT written reads back without its reserved bits (rules R205, R209). -/
theorem costatValue_costatOf (w : Word) : costatValue (costatOf w) = w &&& 0x0000FF71 := by
  have hmask : ∀ i < 32, (0x0000FF71 : Word).getLsbD i = (decide (i = 0) || decide (4 ≤ i ∧ i < 7) || decide (8 ≤ i ∧ i < 16)) := by decide
  have happend : costatValue (costatOf w) = (0#16 ++ w.extractLsb' 8 8 ++ 0#1 ++ w.extractLsb' 4 3 ++ 0#3 ++ BitVec.ofBool (w.getLsbD 0) :
    BitVec (16 + 8 + 1 + 3 + 3 + 1)) := rfl
  refine BitVec.eq_of_getLsbD_eq fun i hi => ?_
  rw [BitVec.getLsbD_and, hmask i hi, happend]
  simp only [BitVec.getLsbD_append, BitVec.getLsbD_ofBool, BitVec.getLsbD_extractLsb']
  interval_cases i <;> simp

/-- COSTAT as a number (rule R25). -/
theorem costatValue_toNat (c : Costat) : (costatValue c).toNat = c.coen.toNat * 2 ^ 8 + c.cosel.toNat * 2 ^ 4 + c.long.toNat := by
  have hcoen := c.coen.isLt
  have hcosel := c.cosel.isLt
  have hlong : (BitVec.ofBool c.long).toNat = c.long.toNat := by cases c.long <;> rfl
  have hzero : ∀ x n : Nat, x <<< n ||| (0#n).toNat = x * 2 ^ n := fun x n => by simp [Nat.shiftLeft_eq]
  unfold costatValue
  simp only [BitVec.toNat_append, hzero]
  rw [hlong, ← Nat.shiftLeft_add_eq_or_of_lt hcosel, ← Nat.shiftLeft_add_eq_or_of_lt (by cases c.long <;> decide),
    ← Nat.shiftLeft_add_eq_or_of_lt hcoen]
  simp only [Nat.shiftLeft_eq, BitVec.toNat_ofNat]
  omega

/-! ## CPUGET and CPUSET -/

theorem unprivileged_of_ne {s : State} (h : s.level ≠ 15) : unprivileged s = false :=
  Bool.eq_false_iff.2 fun hu => h (beq_iff_eq.1 hu)

theorem unprivileged_of_eq {s : State} (h : s.level = 15) : unprivileged s = true :=
  beq_iff_eq.2 h

/-- The table of special registers (table of `10_state.md` section 5). -/
theorem specialValue_of_specialIs {s : State} {k : BitVec 4} {v : Word} (h : SpecialIs s k v) : specialValue s k = some v := by
  rcases h with ⟨rfl, h⟩ | ⟨rfl, rfl⟩ | ⟨rfl, rfl⟩ | ⟨rfl, rfl⟩ | ⟨rfl, rfl⟩
  · rw [← pswValue_toNat] at h
    rw [BitVec.eq_of_toNat_eq h]
    rfl
  all_goals rfl

/-- CPUGET into a register that the privilege check admits. -/
theorem execCpuget_register {s : State} {d : RegNo} {k : BitVec 4} {v : Word} (hv : specialValue s k = some v) (hd : d ≠ 0)
    (hp : unprivileged s = false ∨ isStatusRegister k = false) : execCpuget d k s = .next (writeReg s d v) := by
  have hadmit : (unprivileged s && (isStatusRegister k || d == 0)) = false := by
    rcases hp with hp | hp
    · rw [hp, Bool.false_and]
    · rw [hp, beq_false_of_ne hd, Bool.or_false, Bool.and_false]
  simp only [execCpuget, hv, hadmit, if_neg hd]
  rfl

/-- CPUGET with destination 0 below level 15 is the return. -/
theorem execCpuget_return {s : State} {k : BitVec 4} {v : Word} (hv : specialValue s k = some v) (hp : unprivileged s = false) :
    execCpuget 0 k s = .next (returnFromTrap s v) := by
  simp only [execCpuget, hv, hp, Bool.false_and]
  rfl

/-- Settles O37: CYC is no status register, and below level 15 the check admits everything. -/
theorem cpugetReadsTheRegisterOrReturns : Obligations.CpugetReadsTheRegisterOrReturns := by
  intro s d k v hv
  have hs := specialValue_of_specialIs hv
  refine ⟨fun hd hp => ?_, fun hl => ?_⟩
  · have he : exec (.cpuget d k) s = finishReg s d v := by
      refine execCpuget_register hs hd ?_
      rcases hp with hl | rfl
      · exact .inl (unprivileged_of_ne hl)
      · exact .inr rfl
    exact he ▸ finishReg_computes s d v
  · exact ⟨_, execCpuget_return hs (unprivileged_of_ne hl), ⟨rfl, rfl⟩, rfl, rfl, fun _ => rfl, rfl, rfl, rfl, rfl, rfl, rfl,
      ⟨fun _ => rfl, rfl, rfl, rfl, rfl⟩, rfl, rfl, rfl, rfl⟩

/-- CPUSET of an existing register below level 15 is its write. -/
theorem execCpuset_of_privileged {s t : State} (hl : s.level ≠ 15) (r : RegNo) (k : BitVec 4)
    (hw : writeSpecial s k (readReg s r) = some t) : exec (.cpuset r k) s = .next t := by
  simp only [exec, execCpuset, hw, unprivileged_of_ne hl]
  rfl

/-- Settles O38. -/
theorem cpusetWritesTheSpecialRegister : Obligations.CpusetWritesTheSpecialRegister := by
  intro s r hl
  have hw := (readReg s r).isLt
  refine ⟨⟨_, execCpuset_of_privileged hl r 0 rfl, rfl, ?_, ?_, ?_, rfl, rfl, rfl, rfl, pswValue_writePsw s _⟩,
    execCpuset_of_privileged hl r 1 rfl, execCpuset_of_privileged hl r 2 rfl, execCpuset_of_privileged hl r 3 rfl,
    execCpuset_of_privileged hl r 8 rfl⟩
  · rw [writePsw_level, BitVec.extractLsb'_toNat, Nat.shiftRight_eq_div_pow]
    omega
  · rw [writePsw_olevel, BitVec.extractLsb'_toNat, Nat.shiftRight_eq_div_pow]
  · rw [writePsw_flags, BitVec.extractLsb'_toNat, Nat.shiftRight_eq_div_pow]

/-! ## Illegal and privileged instructions (rules R236, R237) -/

theorem illegalInstruction_entry (s : State) (p : Word) : TakesException s (.next (takeException s .illegalInstruction p)) 0x20 p s.tma :=
  takeException_entry s .illegalInstruction p

theorem privilegeViolation_entry (s : State) (p : Word) : TakesException s (.next (takeException s .privilegeViolation p)) 0x30 p s.tma :=
  takeException_entry s .privilegeViolation p

theorem missingCoprocessor_entry (s : State) (p : Word) : TakesException s (.next (takeException s .missingCoprocessor p)) 0x50 p s.tma :=
  takeException_entry s .missingCoprocessor p

/-- Only the numbers 0 to 3 and 8 name a special register (rule R203). -/
theorem special_none {k : BitVec 4} (h : k ≠ 0 ∧ k ≠ 1 ∧ k ≠ 2 ∧ k ≠ 3 ∧ k ≠ 8) (s : State) (w : Word) :
    specialValue s k = none ∧ writeSpecial s k w = none := by
  obtain ⟨h0, h1, h2, h3, h8⟩ := h
  simp only [specialValue, writeSpecial, if_neg h0, if_neg h1, if_neg h2, if_neg h3, if_neg h8, and_self]

/-- Settles O39: the existence check comes first, so a missing register traps like an unassigned combination. -/
theorem illegalInstructionsTakeTheirVector : Obligations.IllegalInstructionsTakeTheirVector := by
  intro s d x
  refine ⟨illegalInstruction_entry s _, illegalInstruction_entry s _, illegalInstruction_entry s _, fun hx => ?_, ?_⟩
  · obtain ⟨hget, hset⟩ := special_none hx s (readReg s d)
    have hcpuget : exec (.cpuget d x) s = raise16 s .illegalInstruction := by simp only [exec, execCpuget, hget]
    have hcpuset : exec (.cpuset d x) s = raise16 s .illegalInstruction := by simp only [exec, execCpuset, hset]
    rw [hcpuget, hcpuset]
    exact ⟨illegalInstruction_entry s _, illegalInstruction_entry s _⟩
  · simp [Instr.isLong]

/-- A special register that exists can be read and written. -/
theorem special_some {k : BitVec 4} (h : k = 0 ∨ k = 1 ∨ k = 2 ∨ k = 3 ∨ k = 8) (s : State) (w : Word) :
    (∃ v, specialValue s k = some v) ∧ ∃ t, writeSpecial s k w = some t := by
  rcases h with rfl | rfl | rfl | rfl | rfl <;> exact ⟨⟨_, rfl⟩, _, rfl⟩

/-- Settles O40: each privileged form passes its existence check and fails the privilege check. -/
theorem privilegedInstructionsTrapAtLevel15 : Obligations.PrivilegedInstructionsTrapAtLevel15 := by
  intro i s hl hi
  have hun := unprivileged_of_eq hl
  have htrap : exec i s = raise16 s .privilegeViolation := by
    cases i
    case cpuset r k =>
      obtain ⟨-, t, ht⟩ := special_some hi s (readReg s r)
      simp only [exec, execCpuset, ht, hun]
      rfl
    case cpuget d k =>
      have hexists : k = 0 ∨ k = 1 ∨ k = 2 ∨ k = 3 ∨ k = 8 := by
        rcases hi with h | h | h | h | ⟨h, -⟩ <;> simp [h]
      have hchecked : (isStatusRegister k || d == 0) = true := by
        rcases hi with h | h | h | h | ⟨-, h⟩ <;> simp [isStatusRegister, h]
      obtain ⟨⟨v, hv⟩, -⟩ := special_some hexists s 0
      simp only [exec, execCpuget, hv, hun, hchecked]
      rfl
    case coset r k =>
      have hk : k = 0 := hi
      simp only [exec, execCoset, hk, hun]
      rfl
    all_goals exact hi.elim
  exact htrap ▸ privilegeViolation_entry s _

/-- Settles O43: `TPC` holds the address, `OLEVEL` the level, and neither the entry nor the return touches anything else named here. -/
theorem theReturnUndoesTrapEntry : Obligations.TheReturnUndoesTrapEntry := by
  intro s e p hp
  have hlevel : (takeException s e p).level ≠ 15 := show (0 : BitVec 4) ≠ 15 by decide
  refine ⟨_, execCpuget_return (s := takeException s e p) (k := 1) rfl (unprivileged_of_ne hlevel), evenAddr_of_even p hp, rfl, rfl,
    fun _ => rfl, rfl, rfl, rfl, fun _ => rfl⟩

/-! ## COSTAT and the slot check (rules R204 to R211) -/

/-- Settles O44. -/
theorem costatIsReadAndWritten : Obligations.CostatIsReadAndWritten := by
  intro s r d
  refine ⟨?_, fun hl => ?_⟩
  · rw [← costatValue_toNat, BitVec.ofNat_toNat, BitVec.setWidth_eq]
    exact finishReg_computes s d (costatValue s.costat)
  · have he : exec (.coset r 0) s = .next { s with costat := costatOf (readReg s r) } := by
      simp only [exec, execCoset, unprivileged_of_ne hl]
      rfl
    refine ⟨_, he, rfl, ?_, ?_, rfl, costatValue_costatOf _⟩
    · show ((readReg s r).extractLsb' 8 8).toNat = _
      rw [BitVec.extractLsb'_toNat, Nat.shiftRight_eq_div_pow]
    · show ((readReg s r).extractLsb' 4 3).toNat = _
      rw [BitVec.extractLsb'_toNat, Nat.shiftRight_eq_div_pow]

/-- The slot check is rule R211's three conditions. -/
theorem slotOk_iff (s : State) : slotOk s = true ↔ UnitAnswers s := by
  simp [slotOk, UnitAnswers, and_assoc]

/-- Settles O45. -/
theorem missingCoprocessorsTakeTheirVector : Obligations.MissingCoprocessorsTakeTheirVector := by
  intro s d k hk hmissing
  have hslot : slotOk s = false := by
    refine Bool.eq_false_iff.2 fun h => ?_
    obtain ⟨hsel, hen, hfpu⟩ := (slotOk_iff s).1 h
    rcases hmissing with h | h | h
    · exact h hsel
    · rw [hen] at h; cases h
    · rw [hfpu] at h; cases h
  have hcoget : exec (.coget d k) s = raise16 s .missingCoprocessor := by
    simp only [exec, execCoget, if_neg hk, hslot]
    rfl
  have hcoset : exec (.coset d k) s = raise16 s .missingCoprocessor := by
    simp only [exec, execCoset, if_neg hk, hslot]
    rfl
  rw [hcoget, hcoset]
  exact ⟨missingCoprocessor_entry s _, missingCoprocessor_entry s _⟩

/-! ## The unit's registers (rules R210 to R229) -/

/-- COSET of a unit register that reaches the unit is the unit's write, and nothing else. -/
theorem execCoset_unit {s : State} (hu : UnitAnswers s) {k : BitVec 4} (hk : k ≠ 0) (r : RegNo) :
    exec (.coset r k) s = .next { s with fpu := unitWrite s.cfg.nanRule s.costat.long s.fpu k (readReg s r) } := by
  simp only [exec, execCoset, if_neg hk, (slotOk_iff s).2 hu]
  rfl

/-- COGET of a unit register that reaches the unit is the unit's read, with the flags from its condition result. -/
theorem execCoget_unit {s : State} (hu : UnitAnswers s) {k : BitVec 4} (hk : k ≠ 0) (d : RegNo) :
    exec (.coget d k) s = .next (setFlags
      { writeReg s d (unitRead s.cfg.nanRule s.costat.long s.fpu k).value with fpu := (unitRead s.cfg.nanRule s.costat.long s.fpu k).unit }
      (coccFlags (unitRead s.cfg.nanRule s.costat.long s.fpu k).cocc)) := by
  simp only [exec, execCoget, if_neg hk, (slotOk_iff s).2 hu]
  rfl

theorem unitBecomes_coset {s : State} (hu : UnitAnswers s) {k : BitVec 4} (hk : k ≠ 0) (r : RegNo) :
    UnitBecomes s (exec (.coset r k) s) (unitWrite s.cfg.nanRule s.costat.long s.fpu k (readReg s r)) :=
  ⟨_, execCoset_unit hu hk r, rfl, fun _ => rfl, rfl, ⟨rfl, rfl, rfl, rfl, rfl, rfl, rfl, rfl, rfl, rfl, rfl, rfl, rfl, rfl⟩,
    ⟨fun _ => rfl, rfl, rfl, rfl, rfl⟩, ⟨rfl, rfl⟩⟩

theorem unitReads_coget {s : State} (hu : UnitAnswers s) {k : BitVec 4} (hk : k ≠ 0) (d : RegNo) {v : Word} {n z i : Bool} {f : Fpu}
    (h : unitRead s.cfg.nanRule s.costat.long s.fpu k = ⟨v, ⟨n, z, i⟩, f⟩) : UnitReads s (exec (.coget d k) s) d v n z i f := by
  rw [execCoget_unit hu hk, h]
  exact ⟨_, rfl, regWritten_writeReg s d v, rfl, rfl, ⟨rfl, rfl, rfl, rfl, rfl, rfl, rfl, rfl, rfl, rfl, rfl, rfl, rfl, rfl⟩,
    ⟨fun _ => rfl, rfl, rfl, rfl, rfl⟩, ⟨rfl, rfl⟩⟩

/-- Settles O46: the unit's write of each register number, evaluated. -/
theorem cosetWritesTheUnit : Obligations.CosetWritesTheUnit := by
  intro s r hu
  exact ⟨unitBecomes_coset hu (by decide) r, unitBecomes_coset hu (by decide) r, unitBecomes_coset hu (by decide) r,
    unitBecomes_coset hu (by decide) r, unitBecomes_coset hu (by decide) r, unitBecomes_coset hu (by decide) r,
    unitBecomes_coset hu (by decide) r, unitBecomes_coset hu (by decide) r, unitBecomes_coset hu (by decide) r,
    unitBecomes_coset hu (by decide) r, unitBecomes_coset hu (by decide) r, unitBecomes_coset hu (by decide) r,
    unitBecomes_coset hu (by decide) r, unitBecomes_coset hu (by decide) r, unitBecomes_coset hu (by decide) r⟩

/-- A field of a word is a quotient reduced. -/
theorem extractLsb'_eq_iff {w : Nat} (x : BitVec w) (start len : Nat) (y : BitVec len) :
    (x.extractLsb' start len == y) = decide (x.toNat / 2 ^ start % 2 ^ len = y.toNat) := by
  rw [Bool.eq_iff_iff, beq_iff_eq, decide_eq_true_eq, ← BitVec.toNat_inj, BitVec.extractLsb'_toNat, Nat.shiftRight_eq_div_pow]

/-- The conditions of a binary64 pattern (rule R229). -/
theorem cocc64_eq (d : DWord) : cocc64 d = ⟨d.msb, decide (d.toNat % 2 ^ 63 = 0), decide (d.toNat / 2 ^ 52 % 2048 = 2047)⟩ := by
  rw [cocc64, extractLsb'_eq_iff, extractLsb'_eq_iff, BitVec.msb_eq_getLsbD_last, Nat.pow_zero, Nat.div_one]
  rfl

/-- The conditions of a binary32 pattern (rule R229). -/
theorem cocc32_eq (w : Word) : cocc32 w = ⟨w.msb, decide (w.toNat % 2 ^ 31 = 0), decide (w.toNat / 2 ^ 23 % 256 = 255)⟩ := by
  rw [cocc32, extractLsb'_eq_iff, extractLsb'_eq_iff, BitVec.msb_eq_getLsbD_last, Nat.pow_zero, Nat.div_one]
  rfl

/-- The conditions of the staging word, read as an integer (rule R225). -/
theorem coccInt_eq (w : Word) : coccInt w = ⟨w.msb, decide (w = 0), false⟩ := by
  rw [coccInt, BitVec.msb_eq_getLsbD_last]
  rfl

/-- The accumulators stand at register numbers 2 and 3. -/
theorem unitRead_acc (q : NanRule) (long : Bool) (f : Fpu) (n : Bool) : unitRead q long f (if n then 3 else 2) = storeAcc q long f n := by
  cases n <;> rfl

/-- Settles O47: the unit's read of each register, with its conditions. -/
theorem cogetReadsTheUnit : Obligations.CogetReadsTheUnit := by
  intro s d hu
  refine ⟨?_, fun n => ⟨fun hlong => ?_, fun hshort => ?_⟩, fun k hk => ?_⟩
  · refine unitReads_coget hu (by decide) d ?_
    rw [← coccInt_eq]
    rfl
  · refine unitReads_coget hu (by cases n <;> decide) d ?_
    rw [← cocc64_eq, unitRead_acc, hlong]
    rfl
  · refine unitReads_coget hu (by cases n <;> decide) d ?_
    rw [← cocc32_eq, unitRead_acc, hshort]
    rfl
  · have hne : ∀ m : BitVec 4, m.toNat < 4 → k ≠ m := by
      rintro m hm rfl
      omega
    refine unitReads_coget hu (hne 0 (by decide)) d ?_
    rw [unitRead, if_neg (hne 1 (by decide)), if_neg (not_or.2 ⟨hne 2 (by decide), hne 3 (by decide)⟩)]

/-- The slot check sees only COSTAT and the parameters. -/
theorem UnitAnswers.of_systemKept {s t : State} (hu : UnitAnswers s) (h : SystemKept s t) : UnitAnswers t := by
  rw [UnitAnswers, h.costat, h.cfg]
  exact hu

theorem unitWrite_load (q : NanRule) (long : Bool) (f : Fpu) (n : Bool) (w : Word) :
    unitWrite q long f (if n then 3 else 2) w = writeAcc f n (fpOperand q long f w) := by
  cases n <;> rfl

theorem readAcc_writeAcc (f : Fpu) (n : Bool) (d : DWord) : readAcc (writeAcc f n d) n = d := by
  cases n <;> rfl

/-- In 64-bit mode an accumulator that holds `hi : lo` gives `hi`, and leaves `lo` in the staging register (rule R227). -/
theorem storeAcc_long (q : NanRule) (f : Fpu) (n : Bool) (hi lo : Word) (h : readAcc f n = hi ++ lo) :
    storeAcc q true f n = ⟨hi, cocc64 (hi ++ lo), { f with fplow := lo }⟩ := by
  have hhi : (hi ++ lo : BitVec (32 + 32)).extractLsb' 32 32 = hi := BitVec.extractLsb'_append_eq_left
  have hlo : (hi ++ lo : BitVec (32 + 32)).extractLsb' 0 32 = lo := BitVec.extractLsb'_append_eq_right
  show (⟨(readAcc f n).extractLsb' 32 32, cocc64 (readAcc f n), { f with fplow := (readAcc f n).extractLsb' 0 32 }⟩ : UnitAnswer) = _
  rw [h, hhi, hlo]

/-- Settles O48: the low word waits in the staging register while the high word is written, and again while it is read. -/
theorem longTransfersRoundTrip : Obligations.LongTransfersRoundTrip := by
  intro s lo hi dl dh n hu hlong hdl hdh hne k
  have hk : k ≠ 0 := by cases n <;> decide
  obtain ⟨s1, h1, hf1, hregs1, -, hsys1, -⟩ := unitBecomes_coset hu (k := 1) (by decide) lo
  have hu1 := hu.of_systemKept hsys1
  obtain ⟨s2, h2, hf2, -, -, hsys2, -⟩ := unitBecomes_coset hu1 hk hi
  have hu2 := hu1.of_systemKept hsys2
  have hlow1 : s1.fpu.fplow = readReg s lo := by rw [hf1]; rfl
  have hlong1 : s1.costat.long = true := by rw [hsys1.costat, hlong]
  have hlong2 : s2.costat.long = true := by rw [hsys2.costat, hlong1]
  have hacc : readAcc s2.fpu n = readReg s hi ++ readReg s lo := by
    rw [hf2, unitWrite_load, readAcc_writeAcc, hlong1, fpOperand, if_pos rfl, hlow1, hregs1]
  have hmode := congrArg (fun long => unitRead s2.cfg.nanRule long s2.fpu k) hlong2
  have hread := hmode.trans ((unitRead_acc s2.cfg.nanRule true s2.fpu n).trans (storeAcc_long _ _ n _ _ hacc))
  obtain ⟨s3, h3, hreg3, -, hf3, hsys3, -⟩ := unitReads_coget hu2 hk dh hread
  have hu3 := hu2.of_systemKept hsys3
  obtain ⟨s4, h4, hreg4, -⟩ := unitReads_coget hu3 (k := 1) (by decide) dl rfl
  refine ⟨s1, s2, s3, s4, h1, h2, h3, h4, ?_, ?_⟩
  · rw [hreg4 dh, if_neg hdh, if_neg hne.symm, hreg3 dh, if_neg hdh, if_pos rfl]
  · rw [hreg4 dl, if_neg hdl, if_pos rfl, hf3]

end Sys2Proof.Machine

/-!
PROOFS, fetch and boundary. The fetch through the prefetch buffer and its faults (rules R54 to R57, R235), interrupts (rules R20, R244, R251), the
environment (rules R250, R287), the Monitor (rules R213, R268 to R273), and the step as a whole (rule R250).
-/

namespace Sys2Proof.Machine

/-! ## Fetching a halfword (rule R55) -/

/-- A fetch that the prefetch buffer serves reads no bus. -/
theorem fetchHalf_of_buffered {s : State} (hb : Buffered s) : fetchHalf s = some (pickHalf s.prefetch.word s.pc, advancePc s) := by
  have hhit : (s.prefetch.valid && s.prefetch.addr == wordAddr s.pc) = true := by simpa [Buffered] using hb
  rw [fetchHalf, if_pos hhit]

/-- A fetch faults where it needs a bus read and that faults (rule R56). -/
theorem fetchHalf_none {s : State} (hb : ¬ Buffered s) (h : busRead s s.pc = none) : fetchHalf s = none := by
  have hmiss : ¬ (s.prefetch.valid && s.prefetch.addr == wordAddr s.pc) = true := by simpa [Buffered] using hb
  rw [fetchHalf, if_neg hmiss, h]

/-- Settles O53. -/
theorem fetchHalfUsesTheBuffer : Obligations.FetchHalfUsesTheBuffer := by
  refine fun s => ⟨fetchHalf_of_buffered, fun hb => ⟨fetchHalf_none hb, fun w t h => ?_⟩⟩
  have hfetch := fetchHalf_of_not_buffered hb h
  obtain ⟨log, rfl⟩ := busRead_frame h
  exact hfetch

/-! ## Addresses of halfwords -/

theorem getLsbD_eq_div (a : Word) (i : Nat) : a.getLsbD i = decide (a.toNat / 2 ^ i % 2 = 1) :=
  Nat.testBit_eq_decide_div_mod_eq

theorem even_of_getLsbD {a : Word} (h : a.getLsbD 0 = false) : a.toNat % 2 = 0 := by
  rw [getLsbD_eq_div, decide_eq_false_iff_not] at h
  omega

theorem toNat_add_two {a : Word} (h : a.toNat + 2 < 2 ^ 32) : (a + 2).toNat = a.toNat + 2 := by
  rw [BitVec.toNat_add]
  exact Nat.mod_eq_of_lt h

/-- A word's upper and lower halfwords are its upper and lower bytes. -/
theorem halves_of_bytes (b3 b2 b1 b0 : Byte) :
    (b3 ++ b2 ++ b1 ++ b0 : BitVec (8 + 8 + 8 + 8)).extractLsb' 16 16 = b3 ++ b2 ∧
    (b3 ++ b2 ++ b1 ++ b0 : BitVec (8 + 8 + 8 + 8)).extractLsb' 0 16 = b1 ++ b0 := by
  have hsplit : (b3 ++ b2 ++ b1 ++ b0 : BitVec (8 + 8 + 8 + 8)) = ((b3 ++ b2) ++ (b1 ++ b0) : BitVec (16 + 16)) := by
    simp only [BitVec.append_assoc, BitVec.cast_eq]
  rw [hsplit]
  exact ⟨BitVec.extractLsb'_append_eq_left, BitVec.extractLsb'_append_eq_right⟩

/-- The halfword that an even address picks from its word is the two bytes there, little-endian (rules R41, R54). -/
theorem pickHalf_wordAt (s : State) {p : Word} (hp : p.getLsbD 0 = false) :
    pickHalf (wordAt s (wordAddr p).toNat) p = byteAt s (p.toNat + 1) ++ byteAt s p.toNat := by
  have heven := even_of_getLsbD hp
  obtain ⟨hupper, hlower⟩ := halves_of_bytes (byteAt s ((wordAddr p).toNat + 3)) (byteAt s ((wordAddr p).toNat + 2))
    (byteAt s ((wordAddr p).toNat + 1)) (byteAt s (wordAddr p).toNat)
  have hbit := getLsbD_eq_div p 1
  have hword := wordAddr_toNat p
  unfold pickHalf
  split
  next h1 =>
    rw [h1] at hbit
    have hpos : (wordAddr p).toNat + 2 = p.toNat := by have := of_decide_eq_true hbit.symm; omega
    refine hupper.trans ?_
    rw [← hpos]
  next h1 =>
    rw [Bool.eq_false_iff.2 h1] at hbit
    have hpos : (wordAddr p).toNat = p.toNat := by have := of_decide_eq_false hbit.symm; omega
    refine hlower.trans ?_
    rw [hpos]

/-! ## Fetch faults (rule R235) -/

/-- Between the end of memory and the I/O region every read faults. -/
theorem busRead_unmapped {s : State} {a : Word} (hc : configOk s.cfg = true) (h1 : s.cfg.memSize ≤ a.toNat) (h2 : a.toNat < s.cfg.ioBase) :
    busRead s a = none := by
  have h4 := memSize_mod_four hc
  refine (busRead_none_iff s a).2 fun hr => hr ((region_eq_unmapped_iff _ _).2 ?_)
  rw [wordAddr_toNat]
  omega

/-- A fetch fault takes BusFault with the instruction's address in `TPC`. -/
theorem runInstruction_fault {s t : State} {a : Word} (h : fetchInstr s = .fault t a) :
    runInstruction s = .next (takeException t (.busFault a) s.pc) := by
  rw [runInstruction, h]

/-- An exception taken after the pc and the buffer have moved on says the same of the state they moved on from. -/
theorem TakesException.of_fetched {s : State} {o : Result} {vector pcInst tma pc : Word} {buffer : Prefetch}
    (h : TakesException { s with pc := pc, prefetch := buffer } o vector pcInst tma) : TakesException s o vector pcInst tma := by
  obtain ⟨t, ho, htpc, htma, holevel, hlevel, hwent, hregs, hflags, hfpu, hbus, hrest⟩ := h
  exact ⟨t, ho, htpc, htma, holevel, hlevel, hwent, hregs, hflags, hfpu, ⟨hbus.memory, hbus.token, hbus.devLog, hbus.cyc, hbus.budget⟩, hrest⟩

/-- A first halfword that asks for a second one, whose fetch faults. -/
theorem fetchInstr_second_fault {s t : State} {h : Half} (h1 : fetchHalf s = some (h, t)) (hn : needsSecondHalf h = true)
    (h2 : fetchHalf t = none) : fetchInstr s = .fault t t.pc := by
  simp only [fetchInstr, h1, hn, h2, if_true]

/-- After the last halfword of memory the next fetch faults. -/
theorem fetchHalf_none_at_end {s t : State} (hc : configOk s.cfg = true) (hend : s.pc.toNat + 2 = s.cfg.memSize)
    (hio : s.cfg.memSize < s.cfg.ioBase) (hpc : t.pc = s.pc + 2) (hcfg : t.cfg = s.cfg) (haddr : t.prefetch.addr = wordAddr s.pc) :
    fetchHalf t = none := by
  obtain ⟨h4, -, -, -, -, -, hlt, -⟩ := (configOk_iff s.cfg).1 hc
  have hpc' : t.pc.toNat = s.pc.toNat + 2 := by rw [hpc]; exact toNat_add_two (by omega)
  refine fetchHalf_none ?_ (busRead_unmapped (by rwa [hcfg]) (by rw [hcfg]; omega) (by rw [hcfg]; omega))
  rintro ⟨-, hb⟩
  rw [haddr, wordAddr_eq_iff, hpc'] at hb
  omega

/-- Settles O54: the refill faults on the first halfword, or on the second after a first one from the buffer or from memory. -/
theorem fetchFaultsTakeTheBusVector : Obligations.FetchFaultsTakeTheBusVector := by
  intro s hc hp
  refine ⟨fun hb h1 h2 => ?_, fun hend hio => ⟨fun hb hn => ?_, fun hb hn => ?_⟩⟩
  · have hnone := fetchHalf_none hb (busRead_unmapped hc h1 h2)
    have hfault : fetchInstr s = .fault s s.pc := by simp only [fetchInstr, hnone]
    exact runInstruction_fault hfault ▸ busFault_entry s.pc
  · have hbit : s.pc.getLsbD 1 = true := by
      have h4 := memSize_mod_four hc
      rw [getLsbD_eq_div]
      exact decide_eq_true (by omega)
    have hpick : pickHalf s.prefetch.word s.pc = s.prefetch.word.extractLsb' 16 16 := by rw [pickHalf, if_pos hbit]
    have hnone : fetchHalf (advancePc s) = none := fetchHalf_none_at_end hc hend hio rfl rfl hb.2
    have hfault := fetchInstr_second_fault (fetchHalf_of_buffered hb) (by rwa [hpick]) hnone
    rw [runInstruction_fault hfault]
    exact TakesException.of_fetched (s := s) (busFault_entry s.pc)
  · have hread := busRead_memory (s := s) (ea := s.pc) (region_memory (by rw [wordAddr_toNat]; omega))
    have hfetch := fetchHalf_of_not_buffered hb hread
    have hpick : pickHalf (memReadWord s.mem (wordAddr s.pc).toNat) s.pc = byteAt s (s.pc.toNat + 1) ++ byteAt s s.pc.toNat :=
      pickHalf_wordAt s hp
    have hnone := fetchHalf_none_at_end (t := advancePc { countAccess s with
      prefetch := ⟨true, wordAddr s.pc, memReadWord s.mem (wordAddr s.pc).toNat⟩ }) hc hend hio rfl rfl rfl
    have hfault := fetchInstr_second_fault hfetch (by rwa [hpick]) hnone
    rw [runInstruction_fault hfault]
    exact TakesException.of_fetched (s := countAccess s) (busFault_entry s.pc)

/-! ## Completion (rules R5, R236 to R239) -/

theorem branchOn_next (c : BitVec 4) (d : BitVec 8) (s : State) : ∃ t, branchOn c d s = .next t := by
  unfold branchOn
  split <;> exact ⟨_, rfl⟩

theorem load16_next {s : State} {ea : Word} {fin : State → Word → Result} (h : ∀ u v, ∃ t, fin u v = .next t) :
    ∃ t, load16 s ea fin = .next t := by
  unfold load16
  split
  · exact h _ _
  · exact ⟨_, rfl⟩

theorem load32_next {s : State} {ea : Word} {fin : State → Word → Result} (h : ∀ u v, ∃ t, fin u v = .next t) :
    ∃ t, load32 s ea fin = .next t := by
  unfold load32
  split
  · exact h _ _
  · exact ⟨_, rfl⟩

/-- Every instruction has a next state: its result, or the exception it takes. -/
theorem exec_next (i : Instr) (s : State) : ∃ t, exec i s = .next t := by
  cases i
  case br d => exact branchOn_next 0x0 d s
  case bns d => exact branchOn_next 0x1 d s
  case bzs d => exact branchOn_next 0x2 d s
  case bvs d => exact branchOn_next 0x3 d s
  case bcs d => exact branchOn_next 0x4 d s
  case blt d => exact branchOn_next 0x5 d s
  case ble d => exact branchOn_next 0x6 d s
  case bleu d => exact branchOn_next 0x7 d s
  case nop d => exact branchOn_next 0x8 d s
  case bnr d => exact branchOn_next 0x9 d s
  case bzr d => exact branchOn_next 0xA d s
  case bvr d => exact branchOn_next 0xB d s
  case bcr d => exact branchOn_next 0xC d s
  case bge d => exact branchOn_next 0xD d s
  case bgt d => exact branchOn_next 0xE d s
  case bgtu d => exact branchOn_next 0xF d s
  case load | loadcc => exact load32_next fun _ _ => ⟨_, rfl⟩
  case loads | loadscc | loadl => exact load16_next fun _ _ => ⟨_, rfl⟩
  case store =>
    simp only [exec, execStore]
    split <;> exact ⟨_, rfl⟩
  case stores =>
    simp only [exec, execStores]
    split <;> exact ⟨_, rfl⟩
  case storec =>
    simp only [exec, execStorec]
    split
    · split <;> exact ⟨_, rfl⟩
    · exact ⟨_, rfl⟩
  case cpuget =>
    simp only [exec, execCpuget]
    split
    · exact ⟨_, rfl⟩
    · split_ifs <;> exact ⟨_, rfl⟩
  case cpuset =>
    simp only [exec, execCpuset]
    split
    · exact ⟨_, rfl⟩
    · split_ifs <;> exact ⟨_, rfl⟩
  case coget =>
    simp only [exec, execCoget]
    split_ifs <;> exact ⟨_, rfl⟩
  case coset =>
    simp only [exec, execCoset]
    split_ifs <;> exact ⟨_, rfl⟩
  all_goals exact ⟨_, rfl⟩

theorem engineTurn_next (s : State) : ∃ u, engineTurn s = .next u := by
  unfold engineTurn
  split
  · exact ⟨_, rfl⟩
  · unfold runInstruction
    split
    · exact exec_next _ _
    · exact ⟨_, rfl⟩

/-- A step whose Monitor's turn ends goes on with the environment and the engine. -/
theorem step_of_monitorTurn {s t u : State} (hc : configOk s.cfg = true) (hm : monitorTurn s = some t)
    (he : engineTurn (environmentTurn t) = .next u) : step s = .next (endStep u) := by
  simp only [step, hc, hm, he, if_true]

theorem monitorTurn_of_no_yield {s : State} (h : ¬ YieldConditions s) : monitorTurn s = some s := by
  rw [monitorTurn, if_neg fun hy => h ((yieldDue_iff s).1 hy)]

theorem no_yield_of_no_monitor {s : State} (h : s.cfg.monitor = false) : ¬ YieldConditions s := by
  rintro ⟨hm, -⟩
  rw [h] at hm
  cases hm

/-- Settles O59. -/
theorem theMachineNeverStops : Obligations.TheMachineNeverStops := by
  refine ⟨exec_next, fun s hc hm => ?_⟩
  obtain ⟨u, hu⟩ := engineTurn_next (environmentTurn s)
  exact ⟨_, step_of_monitorTurn hc (monitorTurn_of_no_yield (no_yield_of_no_monitor hm)) hu⟩

/-! ## Interrupts (rules R20, R244, R251) -/

/-- No line is pending where none that is requested is admitted. -/
theorem pendingLine_eq_none {s : State} (h : ∀ i, 1 ≤ i → i ≤ 7 → s.irq.getLsbD (i - 1) = true → s.level.toNat < i) :
    pendingLine s = none := by
  refine List.find?_eq_none.2 fun i hi hp => ?_
  rw [Bool.and_eq_true, lineRequested, lineEnabled, decide_eq_true_eq] at hp
  have hrange : 1 ≤ i ∧ i ≤ 7 := by fin_cases hi <;> decide
  have hlt := h i hrange.1 hrange.2 hp.1
  omega

/-- The pending line is the lowest one requested, if it is admitted. -/
theorem pendingLine_eq_some {s : State} {i : Nat} (h1 : 1 ≤ i) (h7 : i ≤ 7) (hreq : s.irq.getLsbD (i - 1) = true) (hen : i ≤ s.level.toNat)
    (hlow : ∀ j, 1 ≤ j → j < i → s.irq.getLsbD (j - 1) = false) : pendingLine s = some i := by
  have hi : (lineRequested s.irq i && lineEnabled s.level i) = true := by
    rw [lineRequested, hreq, lineEnabled, decide_eq_true hen]
    rfl
  have hj : ∀ j, 1 ≤ j → j < i → (lineRequested s.irq j && lineEnabled s.level j) = false := fun j hj1 hji => by
    rw [lineRequested, hlow j hj1 hji, Bool.false_and]
  unfold pendingLine
  interval_cases i <;> simp [hi, hj]

/-- Where no line is pending the engine's turn is one instruction. -/
theorem engineTurn_of_no_line {s : State} (h : pendingLine s = none) : engineTurn s = runInstruction s := by
  rw [engineTurn, h]

theorem environmentTurn_of_nil {s : State} (h : s.env = []) : environmentTurn s = s := by
  rw [environmentTurn, h]

/-- Settles O55: at level 0 no line is admitted; and the lowest admitted request is entered. -/
theorem interruptsEnterTheLowestAdmittedLine : Obligations.InterruptsEnterTheLowestAdmittedLine := by
  refine ⟨fun s vector savedPc addr => ?_, fun s i hc hm he h1 h7 hreq hen hlow => ?_⟩
  · refine engineTurn_of_no_line (pendingLine_eq_none fun i h1 _ _ => ?_)
    exact h1
  · have hline := pendingLine_eq_some h1 h7 hreq hen hlow
    have hengine : engineTurn (environmentTurn s) = .next (interruptEntry s i) := by
      rw [environmentTurn_of_nil he, engineTurn, hline]
    have hstep := step_of_monitorTurn hc (monitorTurn_of_no_yield (no_yield_of_no_monitor hm)) hengine
    have hvector : (0x80 : Word) + 0x10 * BitVec.ofNat 32 i = BitVec.ofNat 32 (0x80 + 0x10 * i) := by
      rw [BitVec.ofNat_add, BitVec.ofNat_mul]
      rfl
    have hpc : (interruptEntry s i).pc = BitVec.ofNat 32 (0x80 + 0x10 * i) &&& 0xFFFFFFFE := by
      rw [← hvector]
      rfl
    have hnonzero : (interruptEntry s i).pc ≠ 0 := by
      rw [hpc]
      interval_cases i <;> decide
    have hbudget : (endStep (interruptEntry s i)).dbg.budget = s.dbg.budget := if_neg hnonzero
    exact ⟨_, hstep, ⟨hpc, rfl⟩, rfl, rfl, rfl, rfl, rfl, fun _ => rfl, rfl, rfl, rfl, rfl, ⟨fun _ => rfl, rfl, rfl, rfl, hbudget⟩⟩

/-! ## The environment (rules R250 step 2, R273, R287) -/

/-- From `s` to `t` only what the environment may touch has changed: request lines, memory inside `MEM_SIZE`, the device history, the pause flag, its
snapshot, and the token's valid bit, which has not become true. -/
def EnvFrame (s t : State) : Prop :=
  ∃ irq mem log paused snapshot valid,
    t = { s with irq := irq, mem := mem, devLog := log, dbg := { s.dbg with paused := paused, snapshot := snapshot },
                 token := { s.token with valid := valid } } ∧
    (valid = true → s.token.valid = true) ∧
    ∀ a, configOk s.cfg = true ∧ s.cfg.memSize ≤ a ∨ s.cfg.memSize + 3 ≤ a → memRead mem a = byteAt s a

theorem EnvFrame.refl (s : State) : EnvFrame s s := ⟨_, _, _, _, _, _, rfl, id, fun _ _ => rfl⟩

theorem EnvFrame.trans {s t u : State} (h1 : EnvFrame s t) (h2 : EnvFrame t u) : EnvFrame s u := by
  obtain ⟨irq, mem, log, paused, snapshot, valid, rfl, hv, hm⟩ := h1
  obtain ⟨irq', mem', log', paused', snapshot', valid', rfl, hv', hm'⟩ := h2
  exact ⟨irq', mem', log', paused', snapshot', valid', rfl, fun h => hv (hv' h), fun a ha => (hm' a ha).trans (hm a ha)⟩

theorem breakToken_eq (t : Token) (a : Word) : breakToken t a = { t with valid := (breakToken t a).valid } := by
  unfold breakToken
  split <;> rfl

theorem agentWriteByte_envFrame (s : State) (a : Word) (b : Byte) : EnvFrame s (agentWriteByte s a b) := by
  obtain ⟨-, he⟩ | ⟨ha, he⟩ := agentWriteByte_cases s a b <;> rw [he]
  · exact .refl s
  · refine ⟨_, _, _, _, _, _, by rw [breakToken_eq], fun h => (breakToken_valid h).1, fun c hc => memRead_memWrite_ne ?_ s.mem b⟩
    omega

theorem agentWriteWord_envFrame (s : State) (a v : Word) : EnvFrame s (agentWriteWord s a v) := by
  obtain ⟨-, he⟩ | ⟨ha, he⟩ := agentWriteWord_cases s a v <;> rw [he]
  · exact .refl s
  · refine ⟨_, _, _, _, _, _, by rw [breakToken_eq], fun h => (breakToken_valid h).1, fun c hc => memRead_memWriteWord_ne (.inr ?_) s.mem v⟩
    obtain ⟨hok, hc⟩ | hc := hc
    · have h4 := memSize_mod_four hok
      rw [wordAddr_toNat] at ha ⊢
      omega
    · omega

theorem environmentAct_envFrame (s : State) (act : EnvAction) : EnvFrame s (environmentAct s act) := by
  cases act
  case writeByte a b => exact agentWriteByte_envFrame s a b
  case writeWord a v => exact agentWriteWord_envFrame s a v
  all_goals exact ⟨_, _, _, _, _, _, rfl, id, fun _ _ => rfl⟩

theorem environmentActs_envFrame (s : State) (acts : List EnvAction) : EnvFrame s (acts.foldl environmentAct s) := by
  induction acts generalizing s with
  | nil => exact .refl s
  | cons act acts ih => exact (environmentAct_envFrame s act).trans (ih _)

/-- The environment counts nothing. -/
theorem environmentAct_cyc (s : State) (act : EnvAction) : (environmentAct s act).cyc = s.cyc := by
  obtain ⟨irq, mem, log, paused, snapshot, valid, he, -⟩ := environmentAct_envFrame s act
  rw [he]

/-- Only the pause signal reaches the debugger's state. -/
theorem environmentAct_dbg {act : EnvAction} (s : State) (h : act ≠ .pause) : (environmentAct s act).dbg = s.dbg := by
  cases act
  case pause => exact absurd rfl h
  case writeByte a b =>
    obtain ⟨-, he⟩ | ⟨-, he⟩ := agentWriteByte_cases s a b <;> rw [environmentAct, he]
  case writeWord a v =>
    obtain ⟨-, he⟩ | ⟨-, he⟩ := agentWriteWord_cases s a v <;> rw [environmentAct, he]
  all_goals rfl

/-- Without a pause signal the debugger's state is kept. -/
theorem environmentActs_dbg {acts : List EnvAction} (s : State) (h : EnvAction.pause ∉ acts) : (acts.foldl environmentAct s).dbg = s.dbg := by
  induction acts generalizing s with
  | nil => rfl
  | cons act acts ih =>
    obtain ⟨hact, hacts⟩ := not_or.1 (mt List.mem_cons.2 h)
    exact (ih _ hacts).trans (environmentAct_dbg s (Ne.symm hact))

/-- The pause flag is set, and the snapshot holds the cycle count. -/
def PauseRecorded (s : State) : Prop := s.dbg.paused = true ∧ s.dbg.snapshot = s.cyc

theorem environmentAct_pauseRecorded {s : State} (act : EnvAction) (h : PauseRecorded s ∨ act = .pause) : PauseRecorded (environmentAct s act) := by
  by_cases hp : act = .pause
  · subst hp
    exact ⟨rfl, rfl⟩
  · rw [PauseRecorded, environmentAct_dbg s hp, environmentAct_cyc]
    exact h.resolve_right hp

theorem environmentActs_pauseRecorded {acts : List EnvAction} {s : State} (h : PauseRecorded s ∨ EnvAction.pause ∈ acts) :
    PauseRecorded (acts.foldl environmentAct s) := by
  induction acts generalizing s with
  | nil => exact h.resolve_right List.not_mem_nil
  | cons act acts ih =>
    refine ih ?_
    rw [List.mem_cons] at h
    rcases h with h | h | h
    · exact .inl (environmentAct_pauseRecorded act (.inl h))
    · exact .inl (environmentAct_pauseRecorded act (.inr h.symm))
    · exact .inr h

theorem environmentActs_cyc (s : State) (acts : List EnvAction) : (acts.foldl environmentAct s).cyc = s.cyc := by
  obtain ⟨irq, mem, log, paused, snapshot, valid, he, -⟩ := environmentActs_envFrame s acts
  rw [he]

/-- Settles O56: every action stays in the frame, and only the pause signal reaches the debugger's state. -/
theorem theEnvironmentTouchesOnlyItsOwnState : Obligations.TheEnvironmentTouchesOnlyItsOwnState := by
  refine ⟨fun s => ?_, fun s acts rest he => ?_⟩
  · obtain ⟨h0, he⟩ | ⟨acts, rest, h0, he⟩ := environmentTurn_cases s <;> rw [he]
    · refine ⟨s.irq, s.mem, s.devLog, s.dbg.paused, s.dbg.snapshot, s.token.valid, ?_, id, fun _ _ => rfl⟩
      rw [show s.env.tail = s.env by rw [h0]; rfl]
    · rw [h0]
      exact environmentActs_envFrame { s with env := rest } acts
  · have hturn : environmentTurn s = acts.foldl environmentAct { s with env := rest } := by rw [environmentTurn, he]
    rw [hturn]
    refine ⟨fun hp => ?_, fun hp => environmentActs_dbg _ hp⟩
    obtain ⟨hpaused, hsnapshot⟩ := environmentActs_pauseRecorded (s := { s with env := rest }) (.inr hp)
    rw [environmentActs_cyc] at hsnapshot
    exact ⟨hpaused, hsnapshot⟩

/-! ## The Monitor (rules R213, R268 to R273) -/

/-- Only termination leaves no state. -/
theorem monitorAct_eq_none_iff (s : State) (act : MonitorAction) : monitorAct s act = none ↔ act = .terminate := by
  cases act <;> simp [monitorAct]

theorem monitorSession_cons (s : State) (act : MonitorAction) (acts : List MonitorAction) :
    monitorSession s (act :: acts) = (monitorAct s act).bind fun t => monitorSession t acts := by
  rw [monitorSession]
  cases monitorAct s act <;> rfl

/-- A session ends the run exactly where it holds a termination. -/
theorem monitorSession_eq_none_iff (s : State) (acts : List MonitorAction) : monitorSession s acts = none ↔ MonitorAction.terminate ∈ acts := by
  induction acts generalizing s with
  | nil => simp [monitorSession]
  | cons act acts ih =>
    rw [monitorSession_cons, List.mem_cons]
    cases ha : monitorAct s act with
    | none =>
      have hterm := (monitorAct_eq_none_iff s act).1 ha
      simp [hterm]
    | some t =>
      have hne : MonitorAction.terminate ≠ act := fun h => by
        rw [(monitorAct_eq_none_iff s act).2 h.symm] at ha
        cases ha
      rw [Option.bind_some, ih t]
      simp [hne]

/-- The unit called while it is built and enabled is the unit's own write and read. -/
theorem unitEnabled_of_unitAnswers {s : State} (hu : UnitAnswers s) : unitEnabled s = true := by
  obtain ⟨-, hen, hfpu⟩ := hu
  rw [unitEnabled, hen, hfpu]
  rfl

theorem unitEnabled_of_disabled {s : State} (h : s.costat.coen.getLsbD 1 = false) : unitEnabled s = false := by
  rw [unitEnabled, h, Bool.and_false]

/-- A direct read of the disabled unit leaves the unit. -/
theorem unitCallAnswer_disabled {s : State} (h : unitEnabled s = false) (k : BitVec 4) : (unitCallAnswer s k).unit = s.fpu := by
  unfold unitCallAnswer
  rw [if_neg (by rw [h]; exact Bool.false_ne_true)]
  split <;> rfl

/-- A Monitor write inside memory: the word, the token broken on a hit, the buffer emptied (rules R50, R272). -/
theorem monitorWriteWord_inside {s : State} {a : Word} (v : Word) (h : (wordAddr a).toNat < s.cfg.memSize) :
    monitorWriteWord s a v = { s with mem := memWriteWord s.mem (wordAddr a).toNat v, token := tokenAfterStore s a, prefetch := { s.prefetch with valid := false } } := by
  rw [monitorWriteWord, if_pos h, agentWriteWord, if_pos h, breakToken_eq_tokenAfterStore]
  rfl

theorem monitorWriteByte_inside {s : State} {a : Word} (b : Byte) (h : a.toNat < s.cfg.memSize) :
    monitorWriteByte s a b = { s with mem := memWrite s.mem a.toNat b, token := tokenAfterStore s a, prefetch := { s.prefetch with valid := false } } := by
  rw [monitorWriteByte, if_pos h, agentWriteByte, if_pos h, breakToken_eq_tokenAfterStore]
  rfl

theorem monitorActions (s : State) : MonitorActions s where
  setReg r v := ⟨_, rfl, rfl, regWritten_writeReg s r v⟩
  setPc v := ⟨_, rfl, rfl⟩
  setPsw w := ⟨_, rfl, rfl, by rw [← pswValue_toNat, pswValue_writePsw]⟩
  setTpc w := rfl
  setTma w := rfl
  setTsv w := rfl
  setCyc w := rfl
  setCostat w := ⟨_, rfl, rfl, costatValue_costatOf w⟩
  setAcc d := ⟨rfl, rfl⟩
  setFplow w := rfl
  writeWord hwf a v ha := by
    refine ⟨_, congrArg some (monitorWriteWord_inside v ha), rfl, memReadWord_memWriteWord hwf _ v, fun c hc => memRead_memWriteWord_ne ?_ s.mem v⟩
    unfold inWordOf at hc
    omega
  writeByte hwf a b ha := by
    refine ⟨_, congrArg some (monitorWriteByte_inside b ha), rfl, fun c => ?_⟩
    refine (memRead_memWrite hwf a.toNat c b).trans ?_
    simp only [eq_comm (a := c)]
    rfl
  writeOutside a v b := by
    refine ⟨fun ha => ?_, fun ha => ?_⟩
    · rw [monitorAct, monitorWriteWord, if_neg (by omega)]
    · rw [monitorAct, monitorWriteByte, if_neg (by omega)]
  unitDisabled k w h := by
    have hd := unitEnabled_of_disabled h
    refine ⟨?_, ?_⟩
    · rw [monitorAct, unitCallWrite, if_neg (by rw [hd]; exact Bool.false_ne_true)]
    · rw [monitorAct, unitCallAnswer_disabled hd]
  unitEnabled hu r k t hk := by
    have he := unitEnabled_of_unitAnswers hu
    refine ⟨fun h => ?_, fun h => ?_⟩
    · rw [execCoset_unit hu hk] at h
      cases h
      rw [monitorAct, unitCallWrite, if_pos he]
    · rw [execCoget_unit hu hk] at h
      cases h
      rw [monitorAct, unitCallAnswer, if_pos he]
      rfl
  setBreakpoint a := rfl
  setBudget n := rfl
  setPause p := rfl
  terminate := rfl

/-- Settles O58. -/
theorem yieldsHappenExactlyOnTheirConditions : Obligations.YieldsHappenExactlyOnTheirConditions := by
  refine ⟨fun s => monitorTurn_of_no_yield, fun s hy => ⟨fun hs => ?_, fun session rest hs => ?_⟩,
    fun s => ⟨rfl, monitorActions s, monitorSession_cons s⟩, fun s hc => ⟨fun hm => ?_, fun t u hm he => ?_⟩, fun s t h => ?_⟩
  · rw [monitorTurn, if_pos ((yieldDue_iff s).2 hy), hs]
    rfl
  · have hturn : monitorTurn s = (monitorSession { s with dbg := { s.dbg with script := rest } } session).map resume := by
      rw [monitorTurn, if_pos ((yieldDue_iff s).2 hy), hs]
      dsimp only
      cases monitorSession { s with dbg := { s.dbg with script := rest } } session <;> rfl
    refine ⟨hturn, ?_⟩
    rw [hturn, Option.map_eq_none_iff]
    exact monitorSession_eq_none_iff _ session
  · simp only [step, hc, hm, if_true]
  · exact ⟨_, step_of_monitorTurn hc hm he, rfl⟩
  · obtain ⟨-, t', w, -, -, rfl⟩ := step_cases h
    exact ⟨rfl, fun h0 => if_pos h0⟩

/-! ## A step at a quiet boundary (rules R13, R55, R80) -/

/-- At a quiet boundary a step is the fetched instruction and the end of a step. -/
theorem step_of_quiet {s t u : State} {i : Instr} (hq : Quiet s) (hf : fetchInstr s = .instr i t) (he : exec i t = .next u) :
    ∃ v, step s = .next v ∧ StepEnds u v := by
  have hrun : engineTurn (environmentTurn s) = .next u := by
    rw [environmentTurn_of_nil hq.env, engineTurn_of_no_line (pendingLine_eq_none hq.lines), runInstruction, hf]
    exact he
  exact ⟨_, step_of_monitorTurn hq.config (monitorTurn_of_no_yield hq.noYield) hrun, rfl⟩

theorem fetchInstr_short {s t : State} {h : Half} (hf : fetchHalf s = some (h, t)) (hn : needsSecondHalf h = false) :
    fetchInstr s = .instr (decodeHalves h 0) t := by
  simp only [fetchInstr, hf, hn]
  rfl

theorem fetchInstr_long {s t u : State} {h h2 : Half} (hf : fetchHalf s = some (h, t)) (hn : needsSecondHalf h = true)
    (hf2 : fetchHalf t = some (h2, u)) : fetchInstr s = .instr (decodeHalves h h2) u := by
  simp only [fetchInstr, hf, hn, hf2, if_true]

/-- The encoding is as long as `isLong` says (rule R70). -/
theorem encode_length (i : Instr) : (encode i).length = if i.isLong then 2 else 1 := by
  cases i <;> rfl

/-- A decoded instruction is long exactly where its first halfword asks for a second. -/
theorem isLong_decodeHalves (h h2 : Half) : (decodeHalves h h2).isLong = needsSecondHalf h := by
  have hlen := encode_length (decodeHalves h h2)
  rw [(encode_decodeHalves h h2).2, halvesRead] at hlen
  cases hn : needsSecondHalf h <;> cases hl : (decodeHalves h h2).isLong <;> simp [hn, hl] at hlen ⊢

/-- What a fetch of a halfword counts: nothing where the buffer serves it. -/
def fetchCount (s : State) : Nat := if s.prefetch.valid && decide (s.prefetch.addr = wordAddr s.pc) then 0 else 1

/-- The state after a halfword fetched from memory, through a buffer that agrees with it. -/
def fetchedHalf (s : State) : State :=
  { s with
    pc := s.pc + 2
    prefetch := ⟨true, wordAddr s.pc, wordAt s (wordAddr s.pc).toNat⟩
    cyc := s.cyc + BitVec.ofNat 32 (fetchCount s)
    dbg := { s.dbg with budget := s.dbg.budget - fetchCount s } }

/-- A halfword fetched from memory is the two bytes at the pc. -/
theorem fetchHalf_memory {s : State} (hp : s.pc.getLsbD 0 = false) (hmem : s.pc.toNat + 2 ≤ s.cfg.memSize)
    (hagree : Buffered s → s.prefetch.word = wordAt s (wordAddr s.pc).toNat) :
    fetchHalf s = some (byteAt s (s.pc.toNat + 1) ++ byteAt s s.pc.toNat, fetchedHalf s) := by
  rw [← pickHalf_wordAt s hp]
  by_cases hb : Buffered s
  · have hcount : fetchCount s = 0 := by
      obtain ⟨hv, ha⟩ := hb
      rw [fetchCount, hv, decide_eq_true ha]
      rfl
    have hbuffer : s.prefetch = ⟨true, wordAddr s.pc, wordAt s (wordAddr s.pc).toNat⟩ := by
      obtain ⟨hv, ha⟩ := hb
      rw [← hagree ⟨hv, ha⟩, ← hv, ← ha]
    have hstate : fetchedHalf s = advancePc s := by
      rw [fetchedHalf, hcount, ← hbuffer, BitVec.ofNat_eq_ofNat, BitVec.add_zero, Nat.cast_zero, Int.sub_zero]
      rfl
    rw [fetchHalf_of_buffered hb, hagree hb, hstate]
  · have hcount : fetchCount s = 1 := by
      rw [fetchCount, if_neg]
      rw [Bool.and_eq_true, decide_eq_true_eq]
      exact hb
    have hread := busRead_memory (s := s) (ea := s.pc) (region_memory (by rw [wordAddr_toNat]; omega))
    have hstate : fetchedHalf s = advancePc { countAccess s with prefetch := ⟨true, wordAddr s.pc, memReadWord s.mem (wordAddr s.pc).toNat⟩ } := by
      rw [fetchedHalf, hcount]
      rfl
    rw [fetchHalf_of_not_buffered hb hread, hstate]
    rfl

/-- After a fetch the buffer agrees with memory. -/
theorem fetchedHalf_agrees (s : State) (hb : Buffered (fetchedHalf s)) :
    (fetchedHalf s).prefetch.word = wordAt (fetchedHalf s) (wordAddr (fetchedHalf s).pc).toNat := by
  have ha : wordAddr s.pc = wordAddr (fetchedHalf s).pc := hb.2
  rw [← ha]
  rfl

/-- The state in which `exec` meets a 16-bit instruction is that after its halfword. -/
theorem fetchedState_short {s : State} {i : Instr} (h : i.isLong = false) : fetchedState s i = fetchedHalf s := by
  have hlen : i.byteLength = 2 := by rw [Instr.byteLength, h]; rfl
  have hlast : s.pc + 2 - 2 = s.pc := BitVec.add_sub_cancel _ _
  simp only [fetchedState, fetchedHalf, fetchCount, hlen, hlast, if_true, Nat.add_zero]

/-- The state in which `exec` meets a 32-bit instruction is that after its second halfword. -/
theorem fetchedState_long {s : State} {i : Instr} (h : i.isLong = true) : fetchedState s i = fetchedHalf (fetchedHalf s) := by
  have hlen : i.byteLength = 4 := by rw [Instr.byteLength, h]; rfl
  have hlast : s.pc + 4 - 2 = s.pc + 2 := by
    rw [BitVec.sub_eq_add_neg, BitVec.add_assoc]
    rfl
  have hpc : s.pc + 2 + 2 = s.pc + 4 := by
    rw [BitVec.add_assoc]
    rfl
  have hsecond : fetchCount (fetchedHalf s) = if wordAddr (s.pc + 2) = wordAddr s.pc then 0 else 1 := by
    show (if (true && decide (wordAddr s.pc = wordAddr (s.pc + 2))) = true then 0 else 1) = _
    simp only [Bool.true_and, decide_eq_true_eq, eq_comm (a := wordAddr s.pc)]
  have htwice : fetchedHalf (fetchedHalf s) = { s with
      pc := s.pc + 2 + 2
      prefetch := ⟨true, wordAddr (s.pc + 2), wordAt s (wordAddr (s.pc + 2)).toNat⟩
      cyc := s.cyc + BitVec.ofNat 32 (fetchCount s) + BitVec.ofNat 32 (fetchCount (fetchedHalf s))
      dbg := { s.dbg with budget := s.dbg.budget - fetchCount s - fetchCount (fetchedHalf s) } } := rfl
  rw [htwice, hsecond, hpc, BitVec.add_assoc, ← BitVec.ofNat_add, Int.sub_sub, ← Nat.cast_add]
  simp only [fetchedState, hlen, hlast]
  rfl

theorem bytesAt_succ (s : State) (a n : Nat) : bytesAt s a (n + 1) = byteAt s a :: bytesAt s (a + 1) n := by
  simp only [bytesAt, List.range_succ_eq_map, List.map_cons, List.map_map, Nat.add_zero]
  congr 1
  refine List.map_congr_left fun k _ => ?_
  show byteAt s (a + (k + 1)) = byteAt s (a + 1 + k)
  congr 1
  omega

/-- Where bytes of memory begin with those of a halfword, the halfword is the two bytes there. -/
theorem half_of_bytesAt {s : State} {a n : Nat} {w : Half} {rest : List Byte} (h : bytesAt s a n = halfBytes w ++ rest) :
    2 ≤ n ∧ (byteAt s (a + 1) ++ byteAt s a : BitVec (8 + 8)) = w ∧ bytesAt s (a + 2) (n - 2) = rest := by
  match n with
  | 0 => cases h
  | 1 =>
    rw [bytesAt_succ] at h
    injection h with _ h
    cases h
  | n + 2 =>
    rw [bytesAt_succ, bytesAt_succ] at h
    injection h with h0 h
    injection h with h1 h2
    refine ⟨by omega, ?_, h2⟩
    rw [h0, h1]
    exact halfBytes_join w

/-- Settles O4: the bytes at the pc are the halfwords that the fetch delivers, and the fetch leaves the state named. -/
theorem stepRunsTheFetchedInstruction : Obligations.StepRunsTheFetchedInstruction := by
  refine ⟨fun s i n rest hq hp hagree hmem hd => ?_, fun s s1 h hq hf => ⟨fun hn => ?_, fun hn h2 s2 hf2 => ?_⟩⟩
  · obtain ⟨-, -, -, -, -, -, hlt, -⟩ := (configOk_iff s.cfg).1 hq.config
    have hio := memSize_le_ioBase hq.config
    obtain ⟨w, hn, hb, rfl⟩ | ⟨w, w2, hn, hb, rfl⟩ := decodeBytes_cases hd
    · obtain ⟨h2, hw, -⟩ := half_of_bytesAt hb
      have hf := fetchHalf_memory hp (by omega) hagree
      rw [hw] at hf
      refine ⟨(encode_decodeHalves w 0).1, fun u he => ?_⟩
      rw [fetchedState_short (by rw [isLong_decodeHalves, hn])] at he
      exact step_of_quiet hq (fetchInstr_short hf hn) he
    · rw [List.append_assoc] at hb
      obtain ⟨h2, hw, hb2⟩ := half_of_bytesAt hb
      obtain ⟨h4, hw2, -⟩ := half_of_bytesAt hb2
      have hf := fetchHalf_memory hp (by omega) hagree
      have hpc : (fetchedHalf s).pc.toNat = s.pc.toNat + 2 := toNat_add_two (by omega)
      have hp2 : (fetchedHalf s).pc.getLsbD 0 = false := (getLsbD_zero_add_two s.pc).trans hp
      have hf2 := fetchHalf_memory hp2 (by rw [hpc]; exact (show s.pc.toNat + 2 + 2 ≤ s.cfg.memSize by omega)) (fetchedHalf_agrees s)
      rw [hw] at hf
      rw [hpc] at hf2
      have hw2' : (byteAt (fetchedHalf s) (s.pc.toNat + 2 + 1) ++ byteAt (fetchedHalf s) (s.pc.toNat + 2) : BitVec (8 + 8)) = w2 := hw2
      rw [hw2'] at hf2
      refine ⟨(encode_decodeHalves w w2).1, fun u he => ?_⟩
      rw [fetchedState_long (by rw [isLong_decodeHalves, hn])] at he
      exact step_of_quiet hq (fetchInstr_long hf hn hf2) he
  · exact ⟨(encode_decodeHalves h 0).1, fun u he => step_of_quiet hq (fetchInstr_short hf hn) he⟩
  · exact ⟨(encode_decodeHalves h h2).1, fun u he => step_of_quiet hq (fetchInstr_long hf hn hf2) he⟩

end Sys2Proof.Machine

/-!
PROOFS, the arithmetic record. Sums, differences, products, quotients, roots and narrowings round to nearest (rules R220 to R227); exact conversions
(rules R216, R219); and the cases of NaNs, infinities and zeros (rule R226).
-/

namespace Sys2Proof.Machine

/-! ## Rounding of the finite operations (rules R220 to R224, R226, R227) -/

@[simp] theorem roundMag_zero (f : FpFormat) (e : Int) : roundMag f 0 e = 0 := by rw [roundMag, if_pos rfl]

theorem roundMag64_exact (m : Nat) (e : Int) (hm : m ≠ 0) : NearestMag binary64 (m * 2 ^ e) (roundMag binary64 m e) :=
  roundMag64_nearest m e _ hm (.inl rfl) (.inl rfl)

theorem roundMag32_exact (m : Nat) (e : Int) (hm : m ≠ 0) : NearestMag binary32 (m * 2 ^ e) (roundMag binary32 m e) :=
  roundMag_nearest binary32 (by decide) (by decide) m e _ hm (.inl rfl) (.inl rfl)

theorem size_pos {m : Nat} (hm : m ≠ 0) (e : Int) : (0:ℝ) < m * 2 ^ e :=
  mul_pos (Nat.cast_pos.2 (Nat.pos_of_ne_zero hm)) (zpow_pos two_pos e)

/-- A sign and a size, packed after rounding, are the number rounded. -/
theorem rounds64_roundMag (z : Bool) (m : Nat) (e : Int) : Rounds64 (signFactor z * (m * 2 ^ e)) (pack64 z (roundMag binary64 m e)) := by
  by_cases hm : m = 0
  · rw [hm, Nat.cast_zero, zero_mul, mul_zero, roundMag_zero]
    exact rounds64_zero z
  · exact rounds64_signed z (size_pos hm e) (roundMag64_exact m e hm)

theorem rounds32_roundMag (z : Bool) (m : Nat) (e : Int) : Rounds32 (signFactor z * (m * 2 ^ e)) (pack32 z (roundMag binary32 m e)) := by
  by_cases hm : m = 0
  · rw [hm, Nat.cast_zero, zero_mul, mul_zero, roundMag_zero]
    exact rounds32_zero z
  · exact rounds32_signed z (size_pos hm e) (roundMag32_exact m e hm)

theorem signedInt_cast (z : Bool) (m : Nat) : ((signedInt z m : Int) : ℝ) = signFactor z * m := by
  cases z <;> simp [signedInt, signFactor]

theorem signFactor_not (z : Bool) : signFactor (!z) = -signFactor z := by cases z <;> simp [signFactor]

/-- A size on a grid at least as fine. -/
theorem size_on_grid (m : Nat) {e e' : Int} (h : e ≤ e') : ((m * 2 ^ (e' - e).toNat : Nat) : ℝ) * 2 ^ e = m * 2 ^ e' := by
  rw [Nat.cast_mul, Nat.cast_pow, Nat.cast_ofNat, mul_assoc, ← zpow_natCast, Int.toNat_of_nonneg (by omega), ← zpow_add₀ (by norm_num)]
  congr 2
  ring

/-- An integer in units of a grid, packed after rounding, is the number rounded. -/
theorem rounds64_int (v e : Int) : Rounds64 (v * 2 ^ e) (pack64 (decide (v < 0)) (roundMag binary64 v.natAbs e)) := by
  have h := rounds64_roundMag (decide (v < 0)) v.natAbs e
  have hsign : signFactor (decide (v < 0)) * (v.natAbs : ℝ) = v := by
    rw [Nat.cast_natAbs, Int.cast_abs]
    simpa using signFactor_mul_abs (v : ℝ)
  rwa [← mul_assoc, hsign] at h

/-- The sum of two finite values is the exact sum rounded. -/
theorem rounds64_addFinite (n1 : Bool) (m1 : Nat) (e1 : Int) (n2 : Bool) (m2 : Nat) (e2 : Int) :
    Rounds64 (signFactor n1 * (m1 * 2 ^ e1) + signFactor n2 * (m2 * 2 ^ e2)) (addFinite n1 m1 e1 n2 m2 e2) := by
  have hexact : ((signedInt n1 (m1 * 2 ^ (e1 - min e1 e2).toNat) + signedInt n2 (m2 * 2 ^ (e2 - min e1 e2).toNat) : Int) : ℝ) * 2 ^ min e1 e2 =
      signFactor n1 * (m1 * 2 ^ e1) + signFactor n2 * (m2 * 2 ^ e2) := by
    rw [Int.cast_add, signedInt_cast, signedInt_cast, add_mul, mul_assoc, mul_assoc, size_on_grid m1 (min_le_left _ _),
      size_on_grid m2 (min_le_right _ _)]
  rw [← hexact, addFinite]
  split
  next h0 =>
    rw [h0, Int.cast_zero, zero_mul]
    exact rounds64_zero _
  next => exact rounds64_int _ _

/-- Settles O50. -/
theorem sumsAndProductsRoundToNearestEven : Obligations.SumsAndProductsRoundToNearestEven := by
  intro q a b ha hb
  obtain ⟨m1, e1, ha, hva, -, -⟩ := unpack64_finite a ha
  obtain ⟨m2, e2, hb, hvb, -, -⟩ := unpack64_finite b hb
  rw [fpAdd, fpSub, fpMul, ha, hb, Rat.cast_add, Rat.cast_sub, Rat.cast_mul, hva, hvb]
  refine ⟨rounds64_addFinite .., ?_, ?_⟩
  · have h := rounds64_addFinite a.msb m1 e1 (!b.msb) m2 e2
    rwa [signFactor_not, neg_mul, ← sub_eq_add_neg] at h
  · have h := rounds64_roundMag (a.msb ^^ b.msb) (m1 * m2) (e1 + e2)
    have hexact : signFactor (a.msb ^^ b.msb) * (((m1 * m2 : Nat) : ℝ) * 2 ^ (e1 + e2)) =
        signFactor a.msb * (m1 * 2 ^ e1) * (signFactor b.msb * (m2 * 2 ^ e2)) := by
      rw [← signFactor_mul, Nat.cast_mul, zpow_add₀ (by norm_num)]
      ring
    rwa [hexact] at h

/-- A quotient of sizes with its sticky bit rounds as the exact one does. -/
theorem rounds64_quotient (n1 n2 : Bool) {m1 m2 : Nat} (e1 e2 : Int) (h2 : m2 ≠ 0) (hm2 : m2 < 2 ^ 53) :
    Rounds64 (signFactor n1 * (m1 * 2 ^ e1) / (signFactor n2 * (m2 * 2 ^ e2)))
      (pack64 (n1 ^^ n2) (roundMag binary64 (stickyQuotient m1 m2) (e1 - e2 - 111))) := by
  have hexact : signFactor n1 * (m1 * 2 ^ e1) / (signFactor n2 * (m2 * 2 ^ e2)) = signFactor (n1 ^^ n2) * ((m1:ℝ) / m2 * 2 ^ (e1 - e2)) := by
    have hinv : (signFactor n2)⁻¹ = signFactor n2 := inv_eq_of_mul_eq_one_left (signFactor_sq n2)
    rw [← signFactor_mul, zpow_sub₀ (by norm_num), mul_div_mul_comm, mul_div_mul_comm, div_eq_mul_inv (signFactor n1), hinv]
  rw [hexact]
  by_cases h1 : m1 = 0
  · have hzero : stickyQuotient 0 m2 = 0 := by simp [stickyQuotient]
    rw [h1, hzero, roundMag_zero, Nat.cast_zero, zero_div, zero_mul, mul_zero]
    exact rounds64_zero _
  · obtain ⟨hstands, hlarge⟩ := stickyQuotient_stands m1 m2 h1 h2 hm2
    have hexp : (-111 : Int) + (e1 - e2) = e1 - e2 - 111 := by ring
    have hscaled := hstands.scale (e1 - e2)
    rw [hexp] at hscaled
    have hpos : (0:ℝ) < (m1:ℝ) / m2 * 2 ^ (e1 - e2) := by
      have := Nat.pos_of_ne_zero h1
      have := Nat.pos_of_ne_zero h2
      positivity
    exact rounds64_signed _ hpos (roundMag64_nearest _ _ _ (by omega) hscaled (.inr hlarge))

/-- A number with an odd exponent has the square root of twice its significand. -/
theorem sqrt_size (m : Nat) (e : Int) : √((m:ℝ) * 2 ^ e) = √((m * 2 ^ (112 + (e % 2).toNat) : Nat) : ℝ) * 2 ^ ((e - e % 2 - 112) / 2) := by
  have hhalf : 2 * ((e - e % 2 - 112) / 2) = e - e % 2 - 112 := by omega
  have hsq : (m:ℝ) * 2 ^ e = ((m * 2 ^ (112 + (e % 2).toNat) : Nat) : ℝ) * (2 ^ ((e - e % 2 - 112) / 2)) ^ 2 := by
    rw [Nat.cast_mul, Nat.cast_pow, Nat.cast_ofNat, mul_assoc, ← zpow_natCast, ← zpow_natCast, ← zpow_mul, ← zpow_add₀ (by norm_num)]
    congr 2
    have : 0 ≤ e % 2 := Int.emod_nonneg _ (by norm_num)
    push_cast
    omega
  rw [hsq, Real.sqrt_mul (Nat.cast_nonneg _), Real.sqrt_sq (by positivity)]

/-- A root of a size with its sticky bit rounds as the exact one does. -/
theorem rounds64_root {m : Nat} (e : Int) (hm : m ≠ 0) (hlt : m < 2 ^ 53) :
    Rounds64 √((m:ℝ) * 2 ^ e)
      (pack64 false (roundMag binary64 (stickyRoot (m * 2 ^ (112 + (e % 2).toNat))) ((e - e % 2 - 112) / 2 - 1))) := by
  have hbig : m * 2 ^ (112 + (e % 2).toNat) < 2 ^ 168 := by
    have hodd : 2 ^ (112 + (e % 2).toNat) ≤ 2 ^ 113 := Nat.pow_le_pow_right (by norm_num) (by omega)
    calc m * 2 ^ (112 + (e % 2).toNat) ≤ 2 ^ 53 * 2 ^ 113 := Nat.mul_le_mul hlt.le hodd
      _ < 2 ^ 168 := by norm_num
  have hsmall : 2 ^ 112 ≤ m * 2 ^ (112 + (e % 2).toNat) :=
    (Nat.pow_le_pow_right (by norm_num) (Nat.le_add_right _ _)).trans (Nat.le_mul_of_pos_left _ (Nat.pos_of_ne_zero hm))
  obtain ⟨hstands, hlarge⟩ := stickyRoot_stands _ hbig hsmall
  have hexp : (-1 : Int) + (e - e % 2 - 112) / 2 = (e - e % 2 - 112) / 2 - 1 := by ring
  have hscaled := hstands.scale ((e - e % 2 - 112) / 2)
  rw [hexp, ← sqrt_size] at hscaled
  have h := rounds64_signed false (Real.sqrt_pos.2 (size_pos hm e)) (roundMag64_nearest _ _ _ (by omega) hscaled (.inr hlarge))
  rwa [signFactor, if_neg Bool.false_ne_true, one_mul] at h

/-- Settles O51. -/
theorem quotientsRootsAndNarrowingsRoundToNearestEven : Obligations.QuotientsRootsAndNarrowingsRoundToNearestEven := by
  intro q a b ha
  obtain ⟨m1, e1, ha, hva, hlt1, -⟩ := unpack64_finite a ha
  refine ⟨fun ⟨hb, hnonzero⟩ => ?_, fun hpos => ?_, ?_⟩
  · obtain ⟨m2, e2, hb, hvb, hlt2, hzero⟩ := unpack64_finite b hb
    have h2 : m2 ≠ 0 := fun h => hnonzero (BitVec.eq_of_toNat_eq (by
      rw [BitVec.extractLsb'_toNat, Nat.shiftRight_zero]
      exact hzero.1 h))
    rw [fpDiv, ha, hb, divValues, if_neg h2, Rat.cast_div, hva, hvb]
    exact rounds64_quotient _ _ _ _ h2 hlt2
  · have hpos : (0:ℝ) ≤ signFactor a.msb * (m1 * 2 ^ e1) := by
      rw [← hva]
      exact_mod_cast hpos
    rw [fpSqrt, ha, sqrtValue, hva]
    split
    next h0 =>
      rw [h0, Nat.cast_zero, zero_mul, mul_zero, Real.sqrt_zero]
      exact rounds64_zero _
    next h0 =>
      have hsign : a.msb = false := by
        by_contra hneg
        rw [Bool.not_eq_false] at hneg
        rw [hneg, signFactor, if_pos rfl] at hpos
        linarith [size_pos h0 e1]
      rw [hsign, if_neg Bool.false_ne_true, signFactor, if_neg Bool.false_ne_true, one_mul]
      exact rounds64_root e1 h0 hlt1
  · rw [fpNarrow, ha, hva]
    exact rounds32_roundMag ..

end Sys2Proof.Machine

/-!
PROOFS, exact conversions. What patterns unpack to, numbers that rounding leaves alone, and the conversions that lose nothing
(rules R216, R219, R226, R227).
-/

namespace Sys2Proof.Machine

/-! ## Magnitudes -/

theorem infMag_eq (f : FpFormat) : infMag f = f.expMax * 2 ^ (f.prec - 1) := rfl

/-- Magnitude bits below the infinity's have a significand and an exponent inside the format's range. -/
theorem fpUnpack_finite (f : FpFormat) (hp : 1 ≤ f.prec) (hE : 2 ≤ f.expMax) (neg : Bool) {mag : Nat} (h : mag < infMag f) :
    ∃ m e, fpUnpack f neg mag = .fin neg m e ∧ (m:ℝ) * 2 ^ e = magVal f mag ∧ m < 2 ^ f.prec ∧ f.qmin ≤ e ∧ e ≤ f.qmin + f.expMax - 2 ∧
      (m = 0 ↔ mag = 0) := by
  have hpp : 2 ^ f.prec = 2 * 2 ^ (f.prec - 1) := by rw [← pow_succ']; congr 1; omega
  have hP : 0 < 2 ^ (f.prec - 1) := by positivity
  have hfield : mag / 2 ^ (f.prec - 1) < f.expMax := (Nat.div_lt_iff_lt_mul hP).2 h
  have hfraction : mag % 2 ^ (f.prec - 1) < 2 ^ (f.prec - 1) := Nat.mod_lt _ hP
  rw [fpUnpack, magVal]
  rw [if_neg hfield.ne]
  by_cases h0 : mag / 2 ^ (f.prec - 1) = 0
  · have hmod : mag % 2 ^ (f.prec - 1) = mag := Nat.mod_eq_of_lt ((Nat.div_eq_zero_iff_lt hP).1 h0)
    rw [if_pos h0, if_pos h0, hmod]
    exact ⟨_, _, rfl, rfl, by omega, le_refl _, by omega, Iff.rfl⟩
  · have hexp : f.qmin + ((mag / 2 ^ (f.prec - 1) - 1 : Nat) : Int) = f.qmin + ((mag / 2 ^ (f.prec - 1) : Nat) : Int) - 1 := by
      rw [Nat.cast_sub (Nat.pos_of_ne_zero h0), Nat.cast_one, add_sub_assoc]
    rw [if_neg h0, if_neg h0, hexp, Nat.add_comm]
    refine ⟨_, _, rfl, rfl, by omega, by omega, by omega, ⟨fun hm => absurd hm (by omega), fun hm => absurd ?_ h0⟩⟩
    rw [hm, Nat.zero_div]

theorem fpUnpack_infMag (f : FpFormat) (neg : Bool) : fpUnpack f neg (infMag f) = .inf neg := by
  rw [fpUnpack, infMag_eq, Nat.mul_div_cancel _ (by positivity), Nat.mul_mod_left, if_pos rfl, if_pos rfl]

theorem fpUnpack_nan (f : FpFormat) (neg : Bool) {mag : Nat} (h : infMag f < mag) (hlt : mag < infMag f + 2 ^ (f.prec - 1)) :
    fpUnpack f neg mag = .nan := by
  rw [infMag_eq] at h hlt
  have hdiv : mag / 2 ^ (f.prec - 1) = f.expMax := Nat.div_eq_of_lt_le h.le (by rw [Nat.add_mul, Nat.one_mul]; exact hlt)
  have hmod := Nat.div_add_mod mag (2 ^ (f.prec - 1))
  rw [hdiv, Nat.mul_comm] at hmod
  rw [fpUnpack]
  rw [if_pos hdiv, if_neg (by omega)]

/-- On one scale a normal significand on a coarser grid is larger than any on a finer one. -/
theorem grid_lt (f : FpFormat) (hp : 1 ≤ f.prec) {k n k' n' : Nat} (hk : k < k') (hn : n < 2 ^ f.prec) (hn' : 2 ^ (f.prec - 1) ≤ n') :
    (n:ℝ) * 2 ^ (f.qmin + (k:Int)) < n' * 2 ^ (f.qmin + (k':Int)) := by
  have hpp : (2:ℝ) ^ f.prec = 2 ^ (f.prec - 1) * 2 ^ (1:Int) := by rw [zpow_one, ← pow_succ]; congr 1; omega
  calc (n:ℝ) * 2 ^ (f.qmin + (k:Int)) < 2 ^ f.prec * 2 ^ (f.qmin + (k:Int)) :=
        mul_lt_mul_of_pos_right (by exact_mod_cast hn) (by positivity)
    _ = 2 ^ (f.prec - 1) * 2 ^ (f.qmin + (k:Int) + 1) := by rw [hpp, mul_assoc, ← zpow_add₀ (by norm_num), add_comm (1:Int)]
    _ ≤ n' * 2 ^ (f.qmin + (k':Int)) :=
        mul_le_mul (by exact_mod_cast hn') (zpow_le_zpow_right₀ (by norm_num) (by omega)) (by positivity) (by positivity)

/-- Magnitude bits are determined by the number they stand for. -/
theorem magVal_injective (f : FpFormat) (hp : 1 ≤ f.prec) {y y' : Nat} (h : magVal f y = magVal f y') : y = y' := by
  obtain ⟨k, n, rfl, hn, hk⟩ := mag_split f hp y
  obtain ⟨k', n', rfl, hn', hk'⟩ := mag_split f hp y'
  rw [magVal_pack f hp k n hn.le hk, magVal_pack f hp k' n' hn'.le hk'] at h
  obtain hlt | rfl | hlt := lt_trichotomy k k'
  · exact absurd h (grid_lt f hp hlt hn (hk'.resolve_left (by omega))).ne
  · have := mul_right_cancel₀ (by positivity) h
    rw [Nat.cast_injective this]
  · exact absurd h (grid_lt f hp hlt hn' (hk.resolve_left (by omega))).ne'

/-- Magnitude bits below the infinity's stand for numbers below the overflow threshold. -/
theorem magVal_lt_threshold (f : FpFormat) (hp : 1 ≤ f.prec) (hE : 2 ≤ f.expMax) {y : Nat} (hy : y < infMag f) :
    magVal f y < (2 ^ f.prec - 1 / 2) * 2 ^ (f.qmin + f.expMax - 2) := by
  obtain ⟨m, e, -, hval, hm, -, he, -⟩ := fpUnpack_finite f hp hE false hy
  have hm' : (m:ℝ) ≤ 2 ^ f.prec - 1 := by
    have : ((m + 1 : Nat) : ℝ) ≤ ((2 ^ f.prec : Nat) : ℝ) := by exact_mod_cast hm
    push_cast at this
    linarith
  rw [← hval]
  calc (m:ℝ) * 2 ^ e ≤ (2 ^ f.prec - 1) * 2 ^ (f.qmin + f.expMax - 2) :=
        mul_le_mul hm' (zpow_le_zpow_right₀ (by norm_num) he) (by positivity) (le_trans (by positivity) hm')
    _ < _ := mul_lt_mul_of_pos_right (by linarith) (by positivity)

/-! ## Numbers that rounding leaves alone -/

/-- A number of the format is rounded to its own magnitude bits. -/
theorem roundMag_of_magVal (f : FpFormat) (hp : 2 ≤ f.prec) (hE : 2 ≤ f.expMax) {m y : Nat} {e : Int} (hy : y < infMag f)
    (hzero : m = 0 → y = 0) (h : (m:ℝ) * 2 ^ e = magVal f y) : roundMag f m e = y := by
  by_cases hm : m = 0
  · rw [hm, roundMag_zero, hzero hm]
  · have hnear := roundMag_nearest f hp hE m e _ hm (.inl rfl) (.inl rfl)
    have hlt := magVal_lt_threshold f (by omega) hE hy
    rw [← h] at hlt
    have hle := ((hnear.2 hlt).2 false y hy).1
    rw [if_neg Bool.false_ne_true, one_mul, ← h, sub_self, abs_zero, abs_nonpos_iff, sub_eq_zero, h] at hle
    exact (magVal_injective f (by omega) hle).symm

/-- A significand that fits the precision, on a grid in the range, has magnitude bits: doubled until it is normal or on the finest grid. -/
theorem exists_magVal (f : FpFormat) (hp : 1 ≤ f.prec) (hE : 2 ≤ f.expMax) (k : Nat) :
    ∀ m : Nat, m < 2 ^ f.prec → k ≤ f.expMax - 2 → ∃ y < infMag f, magVal f y = m * 2 ^ (f.qmin + (k:Int)) := by
  have hpp : 2 ^ f.prec = 2 * 2 ^ (f.prec - 1) := by rw [← pow_succ']; congr 1; omega
  have hpack : ∀ k n : Nat, n < 2 ^ f.prec → (k = 0 ∨ 2 ^ (f.prec - 1) ≤ n) → k ≤ f.expMax - 2 →
      ∃ y < infMag f, magVal f y = n * 2 ^ (f.qmin + (k:Int)) := fun k n hn hk hmax => by
    refine ⟨k * 2 ^ (f.prec - 1) + n, ?_, magVal_pack f hp k n hn.le hk⟩
    calc k * 2 ^ (f.prec - 1) + n < (k + 2) * 2 ^ (f.prec - 1) := by rw [Nat.add_mul]; omega
      _ ≤ infMag f := Nat.mul_le_mul_right _ (by omega)
  induction k with
  | zero => exact fun m hm hmax => hpack 0 m hm (.inl rfl) hmax
  | succ k ih =>
    intro m hm hmax
    by_cases hnormal : 2 ^ (f.prec - 1) ≤ m
    · exact hpack (k + 1) m hm (.inr hnormal) hmax
    · obtain ⟨y, hy, hval⟩ := ih (2 * m) (by omega) (by omega)
      refine ⟨y, hy, hval.trans ?_⟩
      rw [Nat.cast_succ, ← add_assoc, zpow_add_one₀ (by norm_num), Nat.cast_mul, Nat.cast_ofNat]
      ring

/-- A significand that fits the precision, with an exponent in the range, is rounded to magnitude bits that stand for the same number. -/
theorem magVal_roundMag (f : FpFormat) (hp : 2 ≤ f.prec) (hE : 2 ≤ f.expMax) {m : Nat} {e : Int} (hlt : m < 2 ^ f.prec) (he : f.qmin ≤ e)
    (hmax : e ≤ f.qmin + f.expMax - 2) : roundMag f m e < infMag f ∧ magVal f (roundMag f m e) = m * 2 ^ e := by
  obtain ⟨k, rfl⟩ : ∃ k : Nat, e = f.qmin + k := ⟨(e - f.qmin).toNat, by omega⟩
  by_cases hm : m = 0
  · rw [hm, roundMag_zero, Nat.cast_zero, zero_mul, infMag_eq]
    exact ⟨by positivity, by simp [magVal]⟩
  · obtain ⟨y, hy, hval⟩ := exists_magVal f (by omega) hE k m hlt (by omega)
    rw [roundMag_of_magVal f hp hE hy (fun h => absurd h hm) hval.symm]
    exact ⟨hy, hval⟩

/-! ## Patterns and what they unpack to -/

theorem toNat_append_add {m n : Nat} (x : BitVec m) (y : BitVec n) : (x ++ y).toNat = x.toNat * 2 ^ n + y.toNat := by
  rw [BitVec.toNat_append, ← Nat.shiftLeft_add_eq_or_of_lt y.isLt, Nat.shiftLeft_eq]

theorem toNat_ofBool (z : Bool) : (BitVec.ofBool z).toNat = z.toNat := by cases z <;> rfl

theorem unpack64_eq (a : DWord) : unpack64 a = fpUnpack binary64 a.msb (a.toNat % 2 ^ 63) := by
  rw [unpack64, BitVec.extractLsb'_toNat, Nat.shiftRight_zero, BitVec.msb_eq_getLsbD_last]

theorem unpack32_eq (a : Word) : unpack32 a = fpUnpack binary32 a.msb (a.toNat % 2 ^ 31) := by
  rw [unpack32, BitVec.extractLsb'_toNat, Nat.shiftRight_zero, BitVec.msb_eq_getLsbD_last]

theorem unpack64_pack64 (z : Bool) {mag : Nat} (h : mag < 2 ^ 63) : unpack64 (pack64 z mag) = fpUnpack binary64 z mag := by
  rw [unpack64_eq, pack64_msb z mag h, pack64_mag z mag h]

theorem unpack32_pack32 (z : Bool) {mag : Nat} (h : mag < 2 ^ 31) : unpack32 (pack32 z mag) = fpUnpack binary32 z mag := by
  rw [unpack32_eq, pack32_msb z mag h, pack32_mag z mag h]

theorem pack32_self (a : Word) : pack32 a.msb (a.toNat % 2 ^ 31) = a := by
  apply BitVec.eq_of_toNat_eq
  rw [pack32_toNat _ _ (Nat.mod_lt _ (by norm_num)), BitVec.msb_eq_decide]
  have := a.isLt
  by_cases h : 2 ^ 31 ≤ a.toNat
  · rw [decide_eq_true (by simpa using h), Bool.toNat_true]
    omega
  · rw [decide_eq_false (by simpa using h), Bool.toNat_false]
    omega

theorem infMag64 : infMag binary64 = 0x7FF0000000000000 := rfl

theorem infMag32 : infMag binary32 = 0x7F800000 := rfl

theorem isNan64_iff (d : DWord) : IsNan64 d ↔ infMag binary64 < d.toNat % 2 ^ 63 := by
  rw [IsNan64, ne_eq, ← BitVec.toNat_inj, ← BitVec.toNat_inj, BitVec.extractLsb'_toNat, BitVec.extractLsb'_toNat, Nat.shiftRight_eq_div_pow,
    Nat.shiftRight_zero, infMag64]
  show d.toNat / 2 ^ 52 % 2 ^ 11 = 2047 ∧ ¬ d.toNat % 2 ^ 52 = 0 ↔ _
  omega

theorem isNan32_iff (w : Word) : IsNan32 w ↔ infMag binary32 < w.toNat % 2 ^ 31 := by
  rw [IsNan32, ne_eq, ← BitVec.toNat_inj, ← BitVec.toNat_inj, BitVec.extractLsb'_toNat, BitVec.extractLsb'_toNat, Nat.shiftRight_eq_div_pow,
    Nat.shiftRight_zero, infMag32]
  show w.toNat / 2 ^ 23 % 2 ^ 8 = 255 ∧ ¬ w.toNat % 2 ^ 23 = 0 ↔ _
  omega

theorem unpack64_of_isNan64 {a : DWord} (h : IsNan64 a) : unpack64 a = .nan := by
  rw [unpack64_eq]
  refine fpUnpack_nan _ _ ((isNan64_iff a).1 h) ?_
  show _ < 0x7FF0000000000000 + 2 ^ 52
  omega

theorem unpack32_of_isNan32 {w : Word} (h : IsNan32 w) : unpack32 w = .nan := by
  rw [unpack32_eq]
  refine fpUnpack_nan _ _ ((isNan32_iff w).1 h) ?_
  show _ < 0x7F800000 + 2 ^ 23
  omega

theorem unpack32_finite {w : Word} (h : IsFinite32 w) :
    ∃ m e, unpack32 w = .fin w.msb m e ∧ (m:ℝ) * 2 ^ e = magVal binary32 (w.toNat % 2 ^ 31) ∧ m < 2 ^ 24 ∧ -149 ≤ e ∧ e ≤ 104 ∧
      (m = 0 ↔ w.toNat % 2 ^ 31 = 0) := by
  obtain ⟨m, e, hunpack, hval, hlt, he, hmax, hzero⟩ :=
    fpUnpack_finite binary32 (by decide) (by decide) w.msb ((isFinite32_iff w).1 h)
  exact ⟨m, e, (unpack32_eq w).trans hunpack, hval, hlt, he, hmax.trans_eq (by decide), hzero⟩

/-! ## Conversions that lose nothing (rules R216, R219, R226, R227) -/

/-- A binary64 pattern packed from a number of the format is finite and stands for that number. -/
theorem pack64_roundMag (z : Bool) {m : Nat} {e : Int} (hlt : m < 2 ^ 53) (he : -1074 ≤ e) (hmax : e ≤ 971) :
    IsFinite64 (pack64 z (roundMag binary64 m e)) ∧ (value64 (pack64 z (roundMag binary64 m e)) : ℝ) = signFactor z * (m * 2 ^ e) ∧
    (pack64 z (roundMag binary64 m e)).msb = z ∧ roundMag binary64 m e < 2 ^ 63 := by
  obtain ⟨hfinite, hval⟩ := magVal_roundMag binary64 (by decide) (by decide) hlt he (hmax.trans_eq (by decide))
  have h63 : roundMag binary64 m e < 2 ^ 63 := hfinite.trans (by decide)
  rw [isFinite64_iff, value64_eq, pack64_mag _ _ h63, pack64_msb _ _ h63, hval]
  exact ⟨hfinite, rfl, rfl, h63⟩

/-- The binary64 of an integer stands for that integer (rule R219). -/
theorem value64_fpOfInt (w : Word) : IsFinite64 (fpOfInt w) ∧ value64 (fpOfInt w) = w.toInt ∧ (fpOfInt w).msb = w.msb := by
  have hbound := BitVec.toInt_lt (x := w)
  have hbound' := BitVec.le_toInt (x := w)
  obtain ⟨hfinite, hval, hmsb, -⟩ := pack64_roundMag (decide (w.toInt < 0)) (m := w.toInt.natAbs) (e := 0) (by omega) (by omega) (by omega)
  refine ⟨hfinite, ?_, hmsb.trans BitVec.msb_eq_toInt.symm⟩
  have hsign : signFactor (decide (w.toInt < 0)) * (w.toInt.natAbs : ℝ) = w.toInt := by
    rw [Nat.cast_natAbs, Int.cast_abs]
    simpa using signFactor_mul_abs (w.toInt : ℝ)
  rw [zpow_zero, mul_one, hsign] at hval
  exact_mod_cast hval

theorem inf64_eq (z : Bool) : inf64 z = pack64 z (infMag binary64) := by
  apply BitVec.eq_of_toNat_eq
  rw [pack64_toNat _ _ (by decide), inf64, toNat_append_add, toNat_append_add, toNat_ofBool, infMag64]
  show (z.toNat * 2 ^ 11 + 2047) * 2 ^ 52 + 0 = _
  omega

theorem inf32_eq (z : Bool) : inf32 z = pack32 z (infMag binary32) := by
  apply BitVec.eq_of_toNat_eq
  rw [pack32_toNat _ _ (by decide), inf32, toNat_append_add, toNat_append_add, toNat_ofBool, infMag32]
  show (z.toNat * 2 ^ 8 + 255) * 2 ^ 23 + 0 = _
  omega

theorem zero64_eq (z : Bool) : zero64 z = pack64 z 0 := rfl

theorem zero32_eq (z : Bool) : zero32 z = pack32 z 0 := rfl

@[simp] theorem unpack64_inf64 (z : Bool) : unpack64 (inf64 z) = .inf z := by
  rw [inf64_eq, unpack64_pack64 z (by decide), fpUnpack_infMag]

@[simp] theorem unpack32_inf32 (z : Bool) : unpack32 (inf32 z) = .inf z := by
  rw [inf32_eq, unpack32_pack32 z (by decide), fpUnpack_infMag]

/-- Widening a finite pattern keeps its number and its sign (rules R216, R226). -/
theorem fpWiden_finite (q : NanRule) {w : Word} (h : IsFinite32 w) :
    IsFinite64 (fpWiden q w) ∧ value64 (fpWiden q w) = value32 w ∧ (fpWiden q w).msb = w.msb := by
  obtain ⟨m, e, hunpack, hexact, hlt, he, hmax, -⟩ := unpack32_finite h
  obtain ⟨hfinite, hval, hmsb, -⟩ := pack64_roundMag w.msb (m := m) (e := e) (by omega) (by omega) (by omega)
  rw [fpWiden, hunpack]
  rw [hexact, ← value32_eq] at hval
  exact ⟨hfinite, by exact_mod_cast hval, hmsb⟩

theorem fpWiden_inf32 (q : NanRule) (z : Bool) : fpWiden q (inf32 z) = inf64 z := by
  rw [fpWiden, unpack32_inf32, inf64_eq]

theorem fpNarrow_inf64 (q : NanRule) (z : Bool) : fpNarrow q (inf64 z) = inf32 z := by
  rw [fpNarrow, unpack64_inf64, inf32_eq]

/-- Narrowing a widened finite pattern gives it back: its own magnitude bits are those of the nearest number. -/
theorem fpNarrow_fpWiden_finite (q : NanRule) {w : Word} (h : IsFinite32 w) : fpNarrow q (fpWiden q w) = w := by
  obtain ⟨hfinite, hval, hmsb⟩ := fpWiden_finite q h
  obtain ⟨m, e, hunpack, hexact, -, hzero⟩ := unpack64_finite _ hfinite
  have hsize : (m:ℝ) * 2 ^ e = magVal binary32 (w.toNat % 2 ^ 31) := by
    rw [hval, value32_eq, hmsb] at hexact
    have hne : signFactor w.msb ≠ 0 := fun h0 => by simpa [h0] using signFactor_sq w.msb
    exact (mul_left_cancel₀ hne hexact).symm
  have hzero : m = 0 → w.toNat % 2 ^ 31 = 0 := fun hm => by
    refine magVal_injective binary32 (by decide) (hsize.symm.trans ?_)
    rw [hm]
    simp [magVal]
  rw [fpNarrow, hunpack, hmsb]
  dsimp only
  rw [roundMag_of_magVal binary32 (by decide) (by decide) ((isFinite32_iff w).1 h) hzero hsize, pack32_self]

/-- Settles O52. -/
theorem exactConversionsLoseNothing : Obligations.ExactConversionsLoseNothing := by
  refine fun q w => ⟨value64_fpOfInt w, fpWiden_finite q, fun hnan => ?_⟩
  by_cases h : IsFinite32 w
  · exact fpNarrow_fpWiden_finite q h
  · have hmag : w.toNat % 2 ^ 31 = infMag binary32 := by
      rw [isFinite32_iff] at h
      rw [isNan32_iff] at hnan
      omega
    have hinf : w = inf32 w.msb := by rw [inf32_eq, ← hmag, pack32_self]
    rw [hinf, fpWiden_inf32, fpNarrow_inf64]

end Sys2Proof.Machine

/-!
PROOFS, special values. The cases of the arithmetic record with NaNs, infinities and zeros (rule R226), under either rule for NaNs.
-/

namespace Sys2Proof.Machine

/-! ## NaNs -/

/-- A pattern of an all-ones exponent field and a fraction that is not zero is a NaN. -/
theorem isNan64_fields (z : Bool) {x : BitVec 52} (hx : x ≠ 0) : IsNan64 (BitVec.ofBool z ++ 0x7FF#11 ++ x) := by
  have h0 : x.toNat ≠ 0 := fun h => hx (BitVec.eq_of_toNat_eq h)
  have hlt := x.isLt
  rw [isNan64_iff, toNat_append_add, toNat_append_add, infMag64]
  show _ < (((BitVec.ofBool z).toNat * 2 ^ 11 + 2047) * 2 ^ 52 + x.toNat) % 2 ^ 63
  rw [toNat_ofBool]
  cases z <;> simp only [Bool.toNat_false, Bool.toNat_true] <;> omega

theorem isNan32_fields (z : Bool) {x : BitVec 23} (hx : x ≠ 0) : IsNan32 (BitVec.ofBool z ++ 0xFF#8 ++ x) := by
  have h0 : x.toNat ≠ 0 := fun h => hx (BitVec.eq_of_toNat_eq h)
  have hlt := x.isLt
  rw [isNan32_iff, toNat_append_add, toNat_append_add, infMag32]
  show _ < (((BitVec.ofBool z).toNat * 2 ^ 8 + 255) * 2 ^ 23 + x.toNat) % 2 ^ 31
  rw [toNat_ofBool]
  cases z <;> simp only [Bool.toNat_false, Bool.toNat_true] <;> omega

theorem ite_one_ne_zero {w : Nat} (h : (1 : BitVec w) ≠ 0) (x : BitVec w) : (if x = 0 then 1 else x) ≠ 0 := by
  split
  next => exact h
  next hx => exact hx

/-- Either rule for NaNs delivers a NaN (rule R226 (b)). -/
theorem isNan64_nan64 (r : NanRule) (op : FpOp) (a b : DWord) : IsNan64 (nan64 r op a b) := by
  cases r with
  | canonical =>
    show IsNan64 0x7FF8000000000000
    unfold IsNan64
    decide
  | chosen => exact isNan64_fields _ (ite_one_ne_zero (by decide) _)

theorem isNan32_nan32 (r : NanRule) (op : FpOp) (a b : DWord) : IsNan32 (nan32 r op a b) := by
  cases r with
  | canonical =>
    show IsNan32 0x7FC00000
    unfold IsNan32
    decide
  | chosen => exact isNan32_fields _ (ite_one_ne_zero (by decide) _)

/-! ## What a NaN operand delivers -/

theorem addValues_nan_right (n : DWord) (v : FpValue) : addValues n v .nan = n := by cases v <;> rfl

theorem mulValues_nan_right (n : DWord) (v : FpValue) : mulValues n v .nan = n := by cases v <;> rfl

theorem divValues_nan_right (n : DWord) (v : FpValue) : divValues n v .nan = n := by cases v <;> rfl

/-- A NaN operand gives a NaN. -/
theorem isNan64_of_operand (q : NanRule) {a b : DWord} (h : IsNan64 a ∨ IsNan64 b) :
    IsNan64 (fpAdd q a b) ∧ IsNan64 (fpSub q a b) ∧ IsNan64 (fpMul q a b) ∧ IsNan64 (fpDiv q a b) := by
  rw [fpAdd, fpSub, fpMul, fpDiv]
  obtain h | h := h
  · rw [unpack64_of_isNan64 h]
    exact ⟨isNan64_nan64 .., isNan64_nan64 .., isNan64_nan64 .., isNan64_nan64 ..⟩
  · rw [unpack64_of_isNan64 h, negValue, addValues_nan_right, addValues_nan_right, mulValues_nan_right, divValues_nan_right]
    exact ⟨isNan64_nan64 .., isNan64_nan64 .., isNan64_nan64 .., isNan64_nan64 ..⟩

/-! ## Zeros and finite operands -/

@[simp] theorem unpack64_zero64 (z : Bool) : unpack64 (zero64 z) = .fin z 0 (-1074) := by
  rw [zero64_eq, unpack64_pack64 z (by decide)]
  rfl

@[simp] theorem unpack32_zero32 (z : Bool) : unpack32 (zero32 z) = .fin z 0 (-149) := by
  rw [zero32_eq, unpack32_pack32 z (by decide)]
  rfl

/-- A finite pattern unpacks to a value with its sign, whose significand is zero for a zero only. -/
theorem unpack64_of_isFinite64 {a : DWord} (h : IsFinite64 a) :
    ∃ m e, unpack64 a = .fin a.msb m e ∧ (m = 0 ↔ a.extractLsb' 0 63 = 0) := by
  obtain ⟨m, e, hunpack, -, -, hzero⟩ := unpack64_finite a h
  refine ⟨m, e, hunpack, hzero.trans ?_⟩
  rw [← BitVec.toNat_inj, BitVec.extractLsb'_toNat, Nat.shiftRight_zero]
  rfl

/-- A number plus its opposite is +0.0. -/
theorem addFinite_opposite (z : Bool) (m : Nat) (e : Int) : addFinite z m e (!z) m e = 0 := by
  have hsum : signedInt z (m * 2 ^ (e - min e e).toNat) + signedInt (!z) (m * 2 ^ (e - min e e).toNat) = 0 := by
    cases z <;> simp [signedInt]
  rw [addFinite, if_pos hsum, Bool.and_not_self]
  rfl

/-- Two zeros of one sign add to it. -/
theorem addFinite_zeros (z : Bool) (e : Int) : addFinite z 0 e z 0 e = zero64 z := by
  have hsum : signedInt z (0 * 2 ^ (e - min e e).toNat) + signedInt z (0 * 2 ^ (e - min e e).toNat) = 0 := by
    cases z <;> simp [signedInt]
  rw [addFinite, if_pos hsum, Bool.and_self, zero64_eq]

/-- Turning the sign bit turns the sign of the value. -/
theorem unpack64_flip (a : DWord) : unpack64 (a ^^^ 0x8000000000000000) = negValue (unpack64 a) := by
  have hneg : ∀ (z : Bool) (mag : Nat), fpUnpack binary64 (!z) mag = negValue (fpUnpack binary64 z mag) := fun z mag => by
    unfold fpUnpack
    dsimp only
    split_ifs <;> rfl
  have hmsb : (a ^^^ 0x8000000000000000).msb = !a.msb := by
    rw [BitVec.msb_xor]
    exact Bool.xor_true _
  have hmag : (a ^^^ 0x8000000000000000).toNat % 2 ^ 63 = a.toNat % 2 ^ 63 := by
    rw [BitVec.toNat_xor, Nat.xor_mod_two_pow]
    exact Nat.xor_zero _
  rw [unpack64_eq, unpack64_eq, hmsb, hmag, hneg]

/-- The root of a pattern with the sign bit set that is no zero is a NaN. -/
theorem isNan64_fpSqrt_negative (q : NanRule) {a : DWord} (hs : a.msb = true) (h0 : a.extractLsb' 0 63 ≠ 0) : IsNan64 (fpSqrt q a) := by
  have hnan := isNan64_nan64 q .sqrt a 0
  by_cases hfinite : IsFinite64 a
  · obtain ⟨m, e, hunpack, hzero⟩ := unpack64_of_isFinite64 hfinite
    rw [fpSqrt, hunpack, sqrtValue, if_neg (mt hzero.1 h0), if_pos hs]
    exact hnan
  · by_cases hn : IsNan64 a
    · rw [fpSqrt, unpack64_of_isNan64 hn]
      exact hnan
    · have hmag : a.toNat % 2 ^ 63 = infMag binary64 := by
        rw [isFinite64_iff] at hfinite
        rw [isNan64_iff] at hn
        omega
      rw [fpSqrt, unpack64_eq, hmag, fpUnpack_infMag, sqrtValue, if_pos hs]
      exact hnan

/-! ## The cases by kind of operand -/

theorem pack64_zero (z : Bool) : pack64 z 0 = zero64 z := rfl

theorem pack64_infMag (z : Bool) : pack64 z (infMag binary64) = inf64 z := (inf64_eq z).symm

/-- Two infinities: equal signs add and opposite signs subtract to the infinity; the other sums, and the quotient, are NaNs. -/
theorem infinite_operands (q : NanRule) (y z : Bool) :
    fpAdd q (inf64 z) (inf64 z) = inf64 z ∧ IsNan64 (fpAdd q (inf64 z) (inf64 (!z))) ∧ IsNan64 (fpSub q (inf64 z) (inf64 z)) ∧
    fpSub q (inf64 z) (inf64 (!z)) = inf64 z ∧ fpMul q (inf64 y) (inf64 z) = inf64 (y ^^ z) ∧ IsNan64 (fpDiv q (inf64 y) (inf64 z)) := by
  simp only [fpAdd, fpSub, fpMul, fpDiv, unpack64_inf64, negValue, addValues, mulValues, divValues, Bool.not_not, if_true,
    if_neg (Bool.self_ne_not z), pack64_infMag, isNan64_nan64, and_self]

/-- A zero times an infinity and a zero over a zero are NaNs. -/
theorem invalid_zero_operands (q : NanRule) (y z : Bool) :
    IsNan64 (fpMul q (zero64 y) (inf64 z)) ∧ IsNan64 (fpMul q (inf64 y) (zero64 z)) ∧ IsNan64 (fpDiv q (zero64 y) (zero64 z)) := by
  simp only [fpMul, fpDiv, unpack64_inf64, unpack64_zero64, mulValues, divValues, if_true, isNan64_nan64, and_self]

/-- A finite number and an infinity: the infinity, or as a divisor the zero, of the sign arithmetic gives. -/
theorem finite_and_infinite (q : NanRule) {a : DWord} (z : Bool) (h : IsFinite64 a) :
    fpAdd q a (inf64 z) = inf64 z ∧ fpAdd q (inf64 z) a = inf64 z ∧ fpSub q a (inf64 z) = inf64 (!z) ∧
    fpSub q (inf64 z) a = inf64 z ∧ fpDiv q (inf64 z) a = inf64 (z ^^ a.msb) ∧ fpDiv q a (inf64 z) = zero64 (a.msb ^^ z) := by
  obtain ⟨m, e, hunpack, -⟩ := unpack64_of_isFinite64 h
  simp only [fpAdd, fpSub, fpDiv, hunpack, unpack64_inf64, negValue, addValues, divValues, pack64_infMag, pack64_zero, and_self]

/-- A finite number that is no zero, times an infinity, over a zero, and under a zero. -/
theorem nonzero_and_special (q : NanRule) {a : DWord} (z : Bool) (h : IsNonzero64 a) :
    fpMul q a (inf64 z) = inf64 (a.msb ^^ z) ∧ fpMul q (inf64 z) a = inf64 (z ^^ a.msb) ∧ fpDiv q a (zero64 z) = inf64 (a.msb ^^ z) ∧
    fpDiv q (zero64 z) a = zero64 (z ^^ a.msb) := by
  obtain ⟨m, e, hunpack, hzero⟩ := unpack64_of_isFinite64 h.1
  have hm : m ≠ 0 := mt hzero.1 h.2
  have hquotient : stickyQuotient 0 m = 0 := by simp [stickyQuotient]
  simp only [fpMul, fpDiv, hunpack, unpack64_inf64, unpack64_zero64, mulValues, divValues, if_neg hm, if_true, hquotient, roundMag_zero,
    pack64_infMag, pack64_zero, and_self]

/-- A finite number plus its opposite, less itself, and times a zero. -/
theorem finite_to_zero (q : NanRule) {a : DWord} (z : Bool) (h : IsFinite64 a) :
    fpAdd q a (a ^^^ 0x8000000000000000) = 0 ∧ fpSub q a a = 0 ∧ fpMul q a (zero64 z) = zero64 (a.msb ^^ z) ∧
    fpMul q (zero64 z) a = zero64 (z ^^ a.msb) := by
  obtain ⟨m, e, hunpack, -⟩ := unpack64_of_isFinite64 h
  simp only [fpAdd, fpSub, fpMul, unpack64_flip, hunpack, unpack64_zero64, negValue, addValues, mulValues, addFinite_opposite, Nat.mul_zero,
    Nat.zero_mul, roundMag_zero, pack64_zero, and_self]

/-- Zeros of one sign add to it; the roots of a zero and of the positive infinity are themselves. -/
theorem zeros_and_roots (q : NanRule) (z : Bool) :
    fpAdd q (zero64 z) (zero64 z) = zero64 z ∧ fpSub q (zero64 z) (zero64 (!z)) = zero64 z ∧ fpSqrt q (zero64 z) = zero64 z ∧
    fpSqrt q (inf64 false) = inf64 false := by
  simp only [fpAdd, fpSub, fpSqrt, unpack64_zero64, unpack64_inf64, negValue, Bool.not_not, addValues, sqrtValue, addFinite_zeros, if_true,
    Bool.false_eq_true, if_false, pack64_infMag, pack64_zero, and_self]

/-- Zeros narrow and widen to zeros of their sign. -/
theorem zero_conversions (q : NanRule) (z : Bool) : fpNarrow q (zero64 z) = zero32 z ∧ fpWiden q (zero32 z) = zero64 z := by
  rw [fpNarrow, fpWiden, unpack64_zero64, unpack32_zero32]
  simp only [roundMag_zero, zero64_eq, zero32_eq, and_self]

/-- Settles O49: case by case, by what the operands unpack to. -/
theorem floatingSpecialCasesAreIeee : Obligations.FloatingSpecialCasesAreIeee := by
  intro q a b w y z
  obtain ⟨haddInf, haddNan, hsubNan, hsubInf, hmulInf, hdivNan⟩ := infinite_operands q y z
  obtain ⟨hzeroInf, hinfZero, hzeroZero⟩ := invalid_zero_operands q y z
  obtain ⟨haddZeros, hsubZeros, hsqrtZero, hsqrtInf⟩ := zeros_and_roots q z
  obtain ⟨hnarrowZero, hwidenZero⟩ := zero_conversions q z
  refine ⟨isNan64_of_operand q, fun ha => ⟨?_, ?_⟩, fun hw => ?_, haddInf, haddNan, hsubNan, hsubInf, hmulInf, hdivNan, hzeroInf, hinfZero, hzeroZero,
    finite_and_infinite q z, nonzero_and_special q z, finite_to_zero q z, haddZeros, hsubZeros, hsqrtZero, hsqrtInf, isNan64_fpSqrt_negative q,
    fpNarrow_inf64 q z, hnarrowZero, fpWiden_inf32 q z, hwidenZero⟩
  · rw [fpSqrt, unpack64_of_isNan64 ha]
    exact isNan64_nan64 ..
  · rw [fpNarrow, unpack64_of_isNan64 ha]
    exact isNan32_nan32 ..
  · rw [fpWiden, unpack32_of_isNan32 hw]
    exact isNan64_nan64 ..

end Sys2Proof.Machine
